-- ==== Sys2Proof/Word.lean ====
section
/-! DEFINITION. The widths of HUFC's values (00_scope.md R5, R6): words, bytes, symbols, block addresses, bit strings. -/

namespace Sys2Proof

/-- A 32-bit register, command word, count or length (R5: CNT_W = LEN_W = 32). -/
abbrev Word := BitVec 32

/-- One byte of a buffer or of a table record. -/
abbrev Byte := BitVec 8

/-- A symbol: "one byte (0–255)" (R5, SYM_W = 8). -/
abbrev Symbol := BitVec 8

/-- An address of the block address space, "23 bits wide" (20_memory.md R60). -/
abbrev Addr := BitVec 23

/-- A bit string; its head is bit 0, "the first bit produced by the encoder and the first bit consumed by the
decoder" (R6). -/
abbrev BitString := List Bool

end Sys2Proof
end

