-- ==== Sys2Proof/Config.lean ====
section
/-! DEFINITION. What an implementation of HUFC fixes (the parameters of 00_scope.md R5) and the free values the spec
leaves open (93_implementation_defined.md U1, U2). -/

namespace Sys2Proof

/-- The two capacities that the spec leaves OPEN as arguments of the model (R5, U12). -/
structure Params where
  /-- SYM_CAP, capacity of the symbol buffer in symbols. -/
  symCap : Nat
  /-- BIT_CAP, capacity of the bitstring buffer in bits. -/
  bitCap : Nat
deriving DecidableEq, Repr

/-- PKT_CAP, capacity of the packed-byte buffer in bytes: "1 + BIT_CAP/8" (R5). -/
def Params.pktCap (p : Params) : Nat := 1 + p.bitCap / 8

/-- The column "this hardware" of R5: SYM_CAP 65536, BIT_CAP 1048576. -/
def Params.thisHardware : Params := { symCap := 65536, bitCap := 1048576 }

/-- The value of a buffer byte that nobody has written since the buffer's contents became unspecified: "each such
byte is an arbitrary 8-bit value" (U1), "any value over the whole buffer" (U2). `draw` numbers the event that made
the contents unspecified, `index` is the byte's index in its buffer. It has no body: nothing constrains it
(notes/assumptions/2.md, 3.md). -/
opaque Config.freeByte (draw index : Nat) : Byte

end Sys2Proof
end

