-- ==== Sys2Proof/Syntax.lean ====
section
/-! DEFINITION. The commands of HUFC, one constructor per row of spec/opcode_table.json (30_encoding.md R92). A command
word carries no operand: "Every operand of every command is implicit" (R91). -/

namespace Sys2Proof

/-- The ten commands of R92, in the table's order. -/
inductive Instr where
  /-- NOP, R121. -/
  | nop
  /-- CLR, R122. -/
  | clr
  /-- HIST, R130. -/
  | hist
  /-- BUILD, R132. -/
  | build
  /-- MAP, R160. -/
  | map
  /-- PACK, R161. -/
  | pack
  /-- ENC, R163. -/
  | enc
  /-- UNPACK, R190. -/
  | unpack
  /-- WALK, R191. -/
  | walk
  /-- DEC, R194. -/
  | dec
deriving DecidableEq, Repr

end Sys2Proof
end

