-- ==== Sys2Proof/WellFormed.lean ====
section
/-! DEFINITION. Which terms mean something: commands (all of them, R91), and implementation parameters within the
constraints of 00_scope.md R5. -/

namespace Sys2Proof

/-- A command has no operand that could be out of range: "A command word carries no immediate, no register number and
no addressing mode" (R91). Ill-formed command WORDS are the decoder's to reject (Decode.lean). -/
def Instr.wf : Instr → Bool
  | .nop | .clr | .hist | .build | .map | .pack | .enc | .unpack | .walk | .dec => true

/-- "constraint 1 ≤ SYM_CAP ≤ 2^20" (R5). -/
def Params.symCapOk (p : Params) : Bool := decide (1 ≤ p.symCap) && decide (p.symCap ≤ 2 ^ 20)

/-- "constraint multiple of 8, 8 ≤ BIT_CAP ≤ 2^23" (R5). -/
def Params.bitCapOk (p : Params) : Bool :=
  decide (p.bitCap % 8 = 0) && decide (8 ≤ p.bitCap) && decide (p.bitCap ≤ 2 ^ 23)

/-- The parameters meet the constraints of R5 (SYM_CAP < 2^CNT_W follows from SYM_CAP ≤ 2^20). -/
def Params.wf (p : Params) : Bool := p.symCapOk && p.bitCapOk

end Sys2Proof
end

