-- ==== Sys2Proof/Decode.lean ====
section
/-! DEFINITION. Decoding and encoding of the command word (30_encoding.md R90 to R94). -/

namespace Sys2Proof

/-- Why a word is not a command (R93). -/
inductive DecodeError where
  /-- Bits 31:8 are not zero: "every word with ZERO ≠ 0 whatever its OPC" (R93). -/
  | zeroFieldNotZero
  /-- ZERO is 0 and OPC is one of "the 246 values of OPC not in rule R92" (R93). -/
  | unknownOpcode (opc : Byte)
deriving DecidableEq, Repr

/-- Field OPC, bits 7:0 of the command word (R90). -/
def opcField (w : Word) : Byte := w.extractLsb' 0 8

/-- Field ZERO, bits 31:8 of the command word (R90). -/
def zeroField (w : Word) : BitVec 24 := w.extractLsb' 8 24

/-- The opcode map, row by row as R92 prints it. -/
def opcodeMap : List (Byte × Instr) :=
  [ (0x00, .nop), (0x01, .clr), (0x10, .hist), (0x11, .build), (0x12, .map), (0x13, .pack), (0x1F, .enc),
    (0x20, .unpack), (0x21, .walk), (0x2F, .dec) ]

/-- "A decoder accepts a word w exactly when `w[31:8] = 0` and `w[7:0]` is in this table" (R92). -/
def decode (w : Word) : Except DecodeError Instr :=
  if zeroField w = 0 then
    match opcodeMap.lookup (opcField w) with
    | some i => .ok i
    | none => .error (.unknownOpcode (opcField w))
  else .error .zeroFieldNotZero

/-- The word of a command, the column "word" of R92. -/
def encode : Instr → Word
  | .nop => 0x0000_0000
  | .clr => 0x0000_0001
  | .hist => 0x0000_0010
  | .build => 0x0000_0011
  | .map => 0x0000_0012
  | .pack => 0x0000_0013
  | .enc => 0x0000_001F
  | .unpack => 0x0000_0020
  | .walk => 0x0000_0021
  | .dec => 0x0000_002F

/-- The command the decoder reads from an instruction of `nbits` bits whose bits are `w`, bits above `nbits` being 0.
The word is the data of one 32-bit register write, so no byte order enters (20_memory.md R65). -/
def decodeTableWord (nbits w : Nat) : Option Instr :=
  if w % 2 ^ nbits < 2 ^ 32 then (decode (BitVec.ofNat 32 (w % 2 ^ nbits))).toOption else none

end Sys2Proof
end

