-- ==== Sys2Proof/Machine/State.lean ====
section
/-! DEFINITION. The state of HUFC as plain data (10_state.md), the host's transactions that drive it (20_memory.md R62,
R104), the ways a step can stop, and the state after reset (10_state.md R39). -/

namespace Sys2Proof.Machine

/-! ### Command errors (60_exceptions.md R221) -/

/-- The six errors a command can end with; STATUS.ERR 0 (OK) is the absence of one. "A model's error type has exactly
codes 0 to 6" (93_implementation_defined.md U3). They are results of a command, not stops of the machine (R220). -/
inductive CmdError where
  /-- ERR_EMPTY, code 1 (R222): BUILD, ENC. -/
  | empty
  /-- ERR_DECODE, code 2 (R223): WALK, DEC. -/
  | decode
  /-- ERR_PAD, code 3 (R224): UNPACK, DEC. -/
  | pad
  /-- ERR_NOCODE, code 4 (R225): MAP. -/
  | noCode
  /-- ERR_CAP, code 5 (R226): HIST, MAP, PACK, ENC, UNPACK, WALK, DEC. -/
  | cap
  /-- ERR_ILLCMD, code 6 (R227): dispatch. -/
  | illCmd
deriving DecidableEq, Repr

/-- `raise E(info)` of the pseudocode (R7): the error and the value for ERRINFO. -/
structure Raised where
  err : CmdError
  info : Word
deriving DecidableEq, Repr

/-! ### Tables and buffers (10_state.md R31 to R36) -/

/-- A table of 256 entries, one per symbol or slot number (R31, R32, R33). -/
abbrev Table (α : Type) := Vector α 256

/-- An entry of CODE (R32): VALID, LEN and the 32 bytes of the BITS field (30_encoding.md R96). The reserved bytes and
bits of the record read 0 and are not stored. -/
structure CodeEntry where
  valid : Bool
  len : Byte
  bits : Vector Byte 32
deriving DecidableEq, Repr

/-- A slot of RING (R33): the fields of a `CodeEntry`, the key, and SYM, the symbol the key maps to. -/
structure RingSlot extends CodeEntry where
  sym : Symbol
deriving DecidableEq, Repr

/-- An entry all of whose bytes are 0: the cleared value (40_control.md R120). -/
def CodeEntry.zero : CodeEntry := { valid := false, len := 0, bits := Vector.replicate 32 0 }

/-- A slot all of whose bytes are 0. -/
def RingSlot.zero : RingSlot := { CodeEntry.zero with sym := 0 }

/-- The bytes of a buffer that have been written since its contents became unspecified, by index. -/
abbrev Memory := List Host.Cell

/-- A buffer: SYM, BITS or PKT (R34 to R36). A byte listed in `cells` holds the value listed; a byte not listed has
not been written since draw number `draw` made the contents unspecified, and holds the free value of that draw. -/
structure Buffer where
  draw : Nat
  cells : Memory
deriving DecidableEq, Repr

/-! ### What the host can do next (20_memory.md R62, 30_encoding.md R104, 70_reset_and_hazards.md) -/

/-- A bus transaction of the host, "a tuple (W|R, address, size, data)" (R104). -/
inductive Access where
  | read (addr : Addr) (size : Nat)
  | write (addr : Addr) (size : Nat) (data : Word)
deriving DecidableEq, Repr

/-- What happens next at HUFC's boundary. -/
inductive Event where
  /-- A host transaction. A word write to CMD runs its whole command as one atomic step (00_scope.md R8). -/
  | access (a : Access)
  /-- A word write of `w` to CMD seen at the finer grain of R254: the command starts and stays in progress. -/
  | issue (w : Word)
  /-- The engine completes the command in progress (R254, R260). -/
  | complete
  /-- The reset input is asserted and released (R250). -/
  | rst
deriving DecidableEq, Repr

/-! ### The state -/

/-- The state of HUFC (R20) and the model's own fields, which INVENTORY.md lists apart. -/
structure State where
  /-- The parameters of 00_scope.md R5; the model's own field, which no step writes. -/
  params : Params
  /-- The word of the command in progress (20_memory.md R75); STATUS.BUSY is 1 exactly when there is one (R22). -/
  inFlight : Option Word
  /-- STATUS.DONE (R22). -/
  done : Bool
  /-- STATUS.ERR (R22); `none` is code 0. -/
  err : Option CmdError
  /-- ERRINFO (R23). -/
  errinfo : Word
  /-- SYM_LEN (R24). -/
  symLen : Word
  /-- BIT_LEN (R25). -/
  bitLen : Word
  /-- PKT_LEN (R26). -/
  pktLen : Word
  /-- PAD bits 2:0 (R27); bits 31:3 read as 0. -/
  pad : BitVec 3
  /-- NSYM bits 8:0 (R28); bits 31:9 read as 0. -/
  nsym : BitVec 9
  /-- FREQ (R31). -/
  freq : Table Word
  /-- CODE (R32). -/
  code : Table CodeEntry
  /-- RING (R33). -/
  ring : Table RingSlot
  /-- SYM (R34). -/
  sym : Buffer
  /-- BITS (R35), by byte. -/
  bits : Buffer
  /-- PKT (R36). -/
  pkt : Buffer
  /-- The next unused draw number for unspecified buffer contents; the model's own field. -/
  nextDraw : Nat
  /-- What the host and the reset input do next, oldest first; the model's own field. -/
  script : List Event
  /-- The values the host's reads returned, oldest first; the model's own field. -/
  reads : List Word
deriving DecidableEq, Repr

/-! ### Stops -/

/-- Nothing stops HUFC: "no trap, no hang" (00_scope.md R10), "no traps into a handler" (60_exceptions.md R220). Command
errors are next states. No meaning raises a fault, so the type has no constructor (safe: a claim that a step does not
fault holds of every model of the spec). -/
inductive Fault where
deriving DecidableEq, Repr

/-- Why the model gives a step no meaning. -/
inductive Refusal where
  /-- Raised by an arm of `exec` whose instruction has no meaning yet; no arm is left in that form. Safe. -/
  | notModelled (mnemonic : String)
  /-- Raised by `step` for a host access other than a STATUS read while BUSY = 1: "HUFC gives such an access no meaning;
  a model refuses it" (70_reset_and_hazards.md R254, U4). Safe: the run stops where the spec gives no behaviour. -/
  | accessWhileBusy
  /-- Raised by `step` for an access of the wrong shape: "HUFC gives a malformed access no meaning: a model refuses it"
  (20_memory.md R63, U5). Safe: the run stops where the spec gives no behaviour. -/
  | malformedAccess
deriving DecidableEq, Repr

/-! ### Reset -/

/-- The state after reset (10_state.md R39, 70_reset_and_hazards.md R250), for the parameters of R5's column "this
hardware". The buffers' contents are unspecified: draws 0, 1 and 2. -/
def State.reset : State where
  params := Params.thisHardware
  inFlight := none
  done := false
  err := none
  errinfo := 0
  symLen := 0
  bitLen := 0
  pktLen := 0
  pad := 0
  nsym := 0
  freq := Vector.replicate 256 0
  code := Vector.replicate 256 CodeEntry.zero
  ring := Vector.replicate 256 RingSlot.zero
  sym := { draw := 0, cells := [] }
  bits := { draw := 1, cells := [] }
  pkt := { draw := 2, cells := [] }
  nextDraw := 3
  script := []
  reads := []

end Sys2Proof.Machine
end

