-- ==== Sys2Proof/Machine/Flags.lean ====
section
/-! DEFINITION. The flags of HUFC: the fields of STATUS and the word they make (10_state.md R22, R30; 60_exceptions.md
R221). -/

namespace Sys2Proof.Machine

/-- STATUS.BUSY: "1 from the CMD write that starts a command until that command completes" (R22). -/
def State.busy (s : State) : Bool := s.inFlight.isSome

/-- The error code numbers of R221. -/
def CmdError.number : CmdError → Nat
  | .empty => 1
  | .decode => 2
  | .pad => 3
  | .noCode => 4
  | .cap => 5
  | .illCmd => 6

/-- STATUS.ERR: "0 = no error" (R22). -/
def errNumber : Option CmdError → Nat
  | none => 0
  | some e => e.number

/-- The STATUS word: BUSY in bit 0, DONE in bit 1, ERR in bits 7:4, every other bit 0 (R22). -/
def State.statusWord (s : State) : Word :=
  (if s.busy then 1 else 0) ||| (if s.done then 2 else 0) ||| (BitVec.ofNat 32 (errNumber s.err) <<< 4)

end Sys2Proof.Machine
end

