-- ==== Sys2Proof/Machine/Ops.lean ====
section
/-! DEFINITION. The named operations every command is made of: buffers as memory (20_memory.md R67, R68), bit strings in
bytes (R64), tables, and the shared start and end of a command, with the one way an error is taken (40_control.md R120,
60_exceptions.md R230). -/

namespace Sys2Proof.Machine

/-! ### Memory: the written bytes of a buffer -/

/-- Strictly rising addresses. A byte not listed has no written value, and every listed byte has one, so no entry equals
what an unlisted address reads as, and equal memories are equal lists. -/
abbrev Memory.wf (m : Memory) : Prop := m.Pairwise (fun x y => x.1 < y.1)

/-- The value written at an address, if there is one. -/
def Memory.read? : Memory → Nat → Option Byte
  | [], _ => none
  | (k, v) :: m, a => if k = a then some v else Memory.read? m a

/-- Write one byte, keeping the list rising. -/
def Memory.write : Memory → Nat → Byte → Memory
  | [], a, b => [(a, b)]
  | (k, v) :: m, a, b =>
    if a < k then (a, b) :: (k, v) :: m
    else if a = k then (a, b) :: m
    else (k, v) :: Memory.write m a b

/-! ### Buffers -/

/-- Byte `i` of a buffer: the byte written there, or else the free value of the buffer's draw (U1, U2). -/
def Buffer.read (b : Buffer) (i : Nat) : Byte := (Memory.read? b.cells i).getD (Config.freeByte b.draw i)

/-- Write byte `i` of a buffer. -/
def Buffer.write (b : Buffer) (i : Nat) (v : Byte) : Buffer := { b with cells := Memory.write b.cells i v }

/-- Write consecutive bytes upward from index `i`: the extent of a command (R67, R68). -/
def Buffer.writeFrom (b : Buffer) (i : Nat) : List Byte → Buffer
  | [] => b
  | v :: vs => Buffer.writeFrom (b.write i v) (i + 1) vs

/-- A buffer whose whole contents are unspecified: any value, fixed by draw number `d` (U1, U2). -/
def Buffer.unspecified (d : Nat) : Buffer := { draw := d, cells := [] }

/-! ### Bit strings in bytes (R64) -/

/-- `b[j] = (A[j div 8] >> (7 − (j mod 8))) & 1` (R64). -/
def bitAt (A : Nat → Byte) (j : Nat) : Bool := (A (j / 8)).getLsbD (7 - j % 8)

/-- The first `n` bits of the bit string that the bytes of `A` hold. -/
def bitsOf (A : Nat → Byte) (n : Nat) : BitString := (List.range n).map (bitAt A)

/-- The byte whose register bit 7 − r is `f r` for r in 0..7: `v <- v + 2^(7-r)` for each set bit, from `v <- 0`
(42_map_and_pack.md R161). -/
def byteOfBits (f : Nat → Bool) : Byte :=
  BitVec.ofNat 8 ((List.range 8).foldl (fun v r => if f r then v + 2 ^ (7 - r) else v) 0)

/-- `n` bytes holding the stream bits `f 0, f 1, …` (R64). -/
def packBytes (n : Nat) (f : Nat → Bool) : List Byte := (List.range n).map fun k => byteOfBits fun r => f (8 * k + r)

/-- ceil(n / 8), the bytes that `n` bits occupy. -/
def bytesFor (n : Nat) : Nat := (n + 7) / 8

/-- The bytes of a bit string, "the unused low-order bits of the last byte" being 0 (R68, R98). -/
def bytesOf (b : BitString) : List Byte := packBytes (bytesFor b.length) fun j => b.getD j false

/-! ### Tables -/

/-- The 256 symbols, or slot numbers, in rising order. -/
def allSymbols : List Symbol := (List.range 256).map (BitVec.ofNat 8)

/-- Entry `s` of a table. -/
def Table.entry {α : Type} (t : Table α) (s : Symbol) : α := t[s.toNat]'s.isLt

/-- The table with entry `s` replaced. -/
def Table.put {α : Type} (t : Table α) (s : Symbol) (v : α) : Table α := Vector.set t s.toNat v s.isLt

/-- The table whose entry `s` is `f s`: "for s in 0..255". -/
def Table.ofFn {α : Type} (f : Symbol → α) : Table α := ⟨⟨allSymbols.map f⟩, by simp [allSymbols]⟩

/-- The bit string an entry holds: BITS[0..LEN−1] (30_encoding.md R96). -/
def CodeEntry.key (e : CodeEntry) : BitString := bitsOf (fun k => e.bits.toList.getD k 0) e.len.toNat

/-- The 32 bytes of a BITS field that hold `c`, "every BITS position at or beyond LEN" being 0 (R96). -/
def bitsField (c : BitString) : Vector Byte 32 :=
  ⟨⟨packBytes 32 fun j => c.getD j false⟩, by simp [packBytes]⟩

/-- `(VALID = 1, LEN = |c|, BITS = c)` (41_frequency_and_tree.md R132). -/
def CodeEntry.ofCode (c : BitString) : CodeEntry :=
  { valid := true, len := BitVec.ofNat 8 c.length, bits := bitsField c }

/-! ### Inputs and outputs of the commands (10_state.md R40, 40_control.md R120) -/

/-- The registers that commands read or write (R24 to R28). -/
inductive Reg where
  | symLen | bitLen | pktLen | pad | nsym
deriving DecidableEq, Repr

/-- The tables (R31 to R33). -/
inductive Tab where
  | freq | code | ring
deriving DecidableEq, Repr

/-- The buffers (R34 to R36). -/
inductive Buf where
  | sym | bits | pkt
deriving DecidableEq, Repr

/-- A set of registers, tables and buffers. -/
structure Items where
  regs : List Reg
  tabs : List Tab
  bufs : List Buf
deriving DecidableEq, Repr

/-- The value of a register, as a host read returns it. -/
def State.reg (s : State) : Reg → Word
  | .symLen => s.symLen
  | .bitLen => s.bitLen
  | .pktLen => s.pktLen
  | .pad => s.pad.zeroExtend 32
  | .nsym => s.nsym.zeroExtend 32

/-- The buffer of a name. -/
def State.buf (s : State) : Buf → Buffer
  | .sym => s.sym
  | .bits => s.bits
  | .pkt => s.pkt

/-- The outputs of each command: the table of R120, row by row. -/
def outputsOf : Instr → Items
  | .nop => { regs := [], tabs := [], bufs := [] }
  | .clr => { regs := [.symLen, .bitLen, .pktLen, .pad, .nsym], tabs := [.freq, .code, .ring], bufs := [] }
  | .hist => { regs := [], tabs := [.freq], bufs := [] }
  | .build => { regs := [.nsym], tabs := [.code, .ring], bufs := [] }
  | .map => { regs := [.bitLen], tabs := [], bufs := [.bits] }
  | .pack => { regs := [.pktLen, .pad], tabs := [], bufs := [.pkt] }
  | .enc =>
    { regs := [.bitLen, .pktLen, .pad, .nsym], tabs := [.freq, .code, .ring], bufs := [.bits, .pkt] }
  | .unpack => { regs := [.bitLen, .pad], tabs := [], bufs := [.bits] }
  | .walk => { regs := [.symLen], tabs := [], bufs := [.sym] }
  | .dec => { regs := [.bitLen, .pad, .symLen], tabs := [], bufs := [.bits, .sym] }

/-- The inputs of each command: the entries "r" of R40's matrix, row by row. -/
def inputsOf : Instr → Items
  | .nop | .clr => { regs := [], tabs := [], bufs := [] }
  | .hist => { regs := [.symLen], tabs := [], bufs := [.sym] }
  | .build => { regs := [], tabs := [.freq], bufs := [] }
  | .map => { regs := [.symLen], tabs := [.code], bufs := [.sym] }
  | .pack => { regs := [.bitLen], tabs := [], bufs := [.bits] }
  | .enc => { regs := [.symLen], tabs := [], bufs := [.sym] }
  | .unpack => { regs := [.pktLen], tabs := [], bufs := [.pkt] }
  | .walk => { regs := [.bitLen], tabs := [.ring], bufs := [.bits] }
  | .dec => { regs := [.pktLen], tabs := [.ring], bufs := [.pkt] }

/-- Set every output register and output table to its cleared value (R120). -/
def State.cleared (s : State) (o : Items) : State :=
  { s with
    symLen := if Reg.symLen ∈ o.regs then 0 else s.symLen
    bitLen := if Reg.bitLen ∈ o.regs then 0 else s.bitLen
    pktLen := if Reg.pktLen ∈ o.regs then 0 else s.pktLen
    pad := if Reg.pad ∈ o.regs then 0 else s.pad
    nsym := if Reg.nsym ∈ o.regs then 0 else s.nsym
    freq := if Tab.freq ∈ o.tabs then Vector.replicate 256 0 else s.freq
    code := if Tab.code ∈ o.tabs then Vector.replicate 256 CodeEntry.zero else s.code
    ring := if Tab.ring ∈ o.tabs then Vector.replicate 256 RingSlot.zero else s.ring }

/-- "The contents of every output buffer of the command become unspecified" (R120, R68): a fresh draw for each. -/
def State.forgotten (s : State) (o : Items) : State :=
  { s with
    sym := if Buf.sym ∈ o.bufs then Buffer.unspecified s.nextDraw else s.sym
    bits := if Buf.bits ∈ o.bufs then Buffer.unspecified (s.nextDraw + 1) else s.bits
    pkt := if Buf.pkt ∈ o.bufs then Buffer.unspecified (s.nextDraw + 2) else s.pkt
    nextDraw := s.nextDraw + 3 }

/-! ### The start and the end of a command (R120) -/

/-- `STATUS.BUSY <- 1 ; STATUS.DONE <- 0 ; STATUS.ERR <- 0 ; ERRINFO <- 0`, for the word `w` (R120, R75). It is also all
that "returning" from an error amounts to: the next CMD write zeroes ERR and ERRINFO (R231). -/
def State.started (s : State) (w : Word) : State :=
  { s with inFlight := some w, done := false, err := none, errinfo := 0 }

/-- `STATUS.BUSY <- 0 ; STATUS.DONE <- 1 ; STATUS.ERR <- e ; ERRINFO <- info` (R120). -/
def State.ended (s : State) (e : Option CmdError) (info : Word) : State :=
  { s with inFlight := none, done := true, err := e, errinfo := info }

/-- Taking a command error (R230): the outputs at their cleared values, the output buffers unspecified, STATUS and
ERRINFO set, and "every item that is not an output of the command … exactly as before the command". -/
def State.errorTaken (s : State) (o : Items) (r : Raised) : State :=
  ((s.cleared o).forgotten o).ended (some r.err) r.info

/-- Command dispatch after decoding (R120): clear the outputs, run the command's rule, end with its result or with its
first error. A rule writes nothing but its outputs, so clearing them again after a `raise` leaves the state cleared
here from the command's start. -/
def command (o : Items) (rule : State → Except Raised State) (s : State) : Host.Outcome State Fault Refusal :=
  match rule (s.cleared o) with
  | .ok t => .next (t.ended none 0)
  | .error r => .next (s.errorTaken o r)

/-- An illegal command word (R227): "Nothing else changes: no register, table or buffer other than STATUS and ERRINFO". -/
def State.illegal (s : State) (w : Word) : State := s.ended (some .illCmd) w

end Sys2Proof.Machine
end

