-- ==== Sys2Proof/Machine/Operands.lean ====
section
/-! DEFINITION. The implicit operands of the commands (30_encoding.md R91): the message, the bitstring and the packed
buffer, each with the capacity check of 60_exceptions.md R226 that guards it. -/

namespace Sys2Proof.Machine

/-- The message, SYM[0..SYM_LEN−1] (10_state.md R24). -/
def State.message (s : State) : List Symbol := (List.range s.symLen.toNat).map s.sym.read

/-- The bitstring, BITS[0..BIT_LEN−1] (10_state.md R25). -/
def State.bitstring (s : State) : BitString := bitsOf s.bits.read s.bitLen.toNat

/-- `n <- SYM_LEN ; if n > SYM_CAP then raise ERR_CAP(1)`, then the message (R130, R160, R226). -/
def State.messageOperand (s : State) : Except Raised (List Symbol) :=
  if s.params.symCap < s.symLen.toNat then .error { err := .cap, info := 1 } else .ok s.message

/-- `L <- BIT_LEN ; if L > BIT_CAP then raise ERR_CAP(2)`, then the bitstring (R161, R191, R226). -/
def State.bitstringOperand (s : State) : Except Raised BitString :=
  if s.params.bitCap < s.bitLen.toNat then .error { err := .cap, info := 2 } else .ok s.bitstring

/-- What UNPACK finds in a buffer: the pad length PKT[0] and L, the number of bits it does not drop, with the checks of
43_unpack_and_walk.md R190 in the order written there. -/
def State.packetOperand (s : State) : Except Raised (Nat × Nat) :=
  let m := s.pktLen.toNat
  let pad := (s.pkt.read 0).toNat
  let nbits := 8 * (m - 1)
  if s.params.pktCap < m then .error { err := .cap, info := 3 }
  else if m = 0 then .error { err := .pad, info := 0xFFFF_FFFF }
  else if 7 < pad then .error { err := .pad, info := BitVec.ofNat 32 pad }
  else if nbits < pad then .error { err := .pad, info := BitVec.ofNat 32 pad }
  else .ok (pad, nbits - pad)

/-- Bit `j` of the payload PKT[1..], `(PKT[1 + (j div 8)] >> (7 - (j mod 8))) & 1` (R190). -/
def State.payloadBits (s : State) (n : Nat) : BitString := bitsOf (fun k => s.pkt.read (1 + k)) n

/-- Write a bitstring to BITS, its extent and no more, and its length to BIT_LEN (R68, R98). -/
def State.putBitstring (s : State) (b : BitString) : State :=
  { s with bits := s.bits.writeFrom 0 (bytesOf b), bitLen := BitVec.ofNat 32 b.length }

end Sys2Proof.Machine
end

