-- ==== Sys2Proof/Machine/Control.lean ====
section
/-! DEFINITION. The control commands NOP and CLR (40_control.md). -/

namespace Sys2Proof.Machine

/-- NOP (R121). "Pseudocode: nothing." -/
def execNop (s : State) : Host.Outcome State Fault Refusal := command (outputsOf .nop) (fun s => .ok s) s

/-- The rule of CLR (R122): `SYM_LEN <- 0 ; BIT_LEN <- 0 ; PKT_LEN <- 0 ; PAD <- 0 ; NSYM <- 0`, and every entry of FREQ,
CODE and RING zero. The buffers keep their contents. -/
def clrRule (s : State) : Except Raised State :=
  .ok { s with
    symLen := 0, bitLen := 0, pktLen := 0, pad := 0, nsym := 0
    freq := Vector.replicate 256 0
    code := Vector.replicate 256 CodeEntry.zero
    ring := Vector.replicate 256 RingSlot.zero }

/-- CLR (R122). -/
def execClr (s : State) : Host.Outcome State Fault Refusal := command (outputsOf .clr) clrRule s

end Sys2Proof.Machine
end

