-- ==== Sys2Proof/Machine/Tree.lean ====
section
/-! DEFINITION. The frequency counter HIST and the tree builder BUILD (41_frequency_and_tree.md). -/

namespace Sys2Proof.Machine

/-! ### HIST (R130) -/

/-- `FREQ[x] <- FREQ[x] + 1` for each symbol in turn, from a zero table ("Built fresh per message"). -/
def countSymbols (m : List Symbol) : Table Word :=
  m.foldl (fun f x => f.put x (f.entry x + 1)) (Vector.replicate 256 0)

/-- The rule of HIST (R130). -/
def histRule (s : State) : Except Raised State := do
  let m ← s.messageOperand
  return { s with freq := countSymbols m }

/-- HIST (R130). -/
def execHist (s : State) : Host.Outcome State Fault Refusal := command (outputsOf .hist) histRule s

/-! ### The order on queue nodes (R131) -/

/-- A node of the priority queue: a count and a group (R131). -/
structure Node where
  count : Word
  group : List Symbol
deriving DecidableEq, Repr

/-- `<lex` on tuples of unsigned bytes: the first difference decides, a proper beginning is the lesser (R131). -/
def groupLt : List Symbol → List Symbol → Bool
  | _, [] => false
  | [], _ :: _ => true
  | a :: as, b :: bs => if a = b then groupLt as bs else decide (a < b)

/-- `(c, g) < (c', g')` exactly when `c < c'`, or `c = c'` and `g <lex g'` (R131). -/
def Node.lt (a b : Node) : Bool :=
  decide (a.count < b.count) || (decide (a.count = b.count) && groupLt a.group b.group)

/-- The least of a node and the nodes of a list, and the others. -/
def leastOf (n : Node) : List Node → Node × List Node
  | [] => (n, [])
  | m :: ms =>
    if m.lt n then ((leastOf m ms).1, n :: (leastOf m ms).2)
    else ((leastOf n ms).1, m :: (leastOf n ms).2)

/-- `popmin(Q)`: "removes and returns the least element of set Q" (R7); the set is held as a list in no particular
order. -/
def popMin : List Node → Option (Node × List Node)
  | [] => none
  | n :: ns => some (leastOf n ns)

/-! ### BUILD (R132) -/

/-- `Q ∪ { (FREQ[s], (s)) }` for each symbol that occurs (R132). -/
def initialQueue (freq : Table Word) : List Node :=
  allSymbols.filterMap fun s => if freq.entry s = 0 then none else some { count := freq.entry s, group := [s] }

/-- The codes-so-far after a merge: bit 0 prepended for every symbol of the first popped group, bit 1 for every symbol
of the second (R132). -/
def prependBits (g1 g2 : List Symbol) (c : Symbol → BitString) : Symbol → BitString := fun s =>
  if s ∈ g1 then false :: c s else if s ∈ g2 then true :: c s else c s

/-- The merged node: "summed count, concatenated group, first then second" (R132). -/
def mergeNodes (n1 n2 : Node) : Node := { count := n1.count + n2.count, group := n1.group ++ n2.group }

/-- `while |Q| > 1` of R132. Each turn shortens Q by one, so `fuel = |Q|` turns are enough. -/
def mergeLoop : Nat → List Node → (Symbol → BitString) → (Symbol → BitString)
  | 0, _, c => c
  | fuel + 1, q, c =>
    match popMin q with
    | none => c
    | some (n1, q1) =>
      match popMin q1 with
      | none => c
      | some (n2, q2) => mergeLoop fuel (mergeNodes n1 n2 :: q2) (prependBits n1.group n2.group c)

/-- The codes BUILD gives: a lone symbol gets "0" (R134), otherwise the merges decide (R132). -/
def buildCodes (freq : Table Word) : Symbol → BitString :=
  let q := initialQueue freq
  if q.length = 1 then fun _ => [false] else mergeLoop q.length q fun _ => []

/-- CODE as BUILD writes it (R132, the last loop). -/
def codeTable (freq : Table Word) (c : Symbol → BitString) : Table CodeEntry :=
  Table.ofFn fun s => if freq.entry s = 0 then CodeEntry.zero else CodeEntry.ofCode (c s)

/-- RING as BUILD writes it: the mapping for symbol s in slot s (R132). -/
def ringTable (freq : Table Word) (c : Symbol → BitString) : Table RingSlot :=
  Table.ofFn fun s => if freq.entry s = 0 then RingSlot.zero else { CodeEntry.ofCode (c s) with sym := s }

/-- The rule of BUILD (R132): ERR_EMPTY(0) when no FREQ entry is non-zero (R135). -/
def buildRule (s : State) : Except Raised State :=
  if (initialQueue s.freq).length = 0 then .error { err := .empty, info := 0 }
  else
    .ok { s with
      nsym := BitVec.ofNat 9 (initialQueue s.freq).length
      code := codeTable s.freq (buildCodes s.freq)
      ring := ringTable s.freq (buildCodes s.freq) }

/-- BUILD (R132). -/
def execBuild (s : State) : Host.Outcome State Fault Refusal := command (outputsOf .build) buildRule s

end Sys2Proof.Machine
end

