-- ==== Sys2Proof/Machine/Pack.lean ====
section
/-! DEFINITION. The mapper MAP, the bitpacker PACK and the fused encoder ENC (42_map_and_pack.md). -/

namespace Sys2Proof.Machine

/-! ### MAP (R160) -/

/-- The loop of R160 over the symbols from index `i` on, `b` being the bits produced so far (`L = |b|`): ERR_NOCODE(i)
before ERR_CAP(2) at each index (R229). -/
def mapLoop (code : Table CodeEntry) (bitCap : Nat) : Nat → BitString → List Symbol → Except Raised BitString
  | _, b, [] => .ok b
  | i, b, x :: xs =>
    let e := code.entry x
    if e.valid = false then .error { err := .noCode, info := BitVec.ofNat 32 i }
    else if bitCap < b.length + e.len.toNat then .error { err := .cap, info := 2 }
    else mapLoop code bitCap (i + 1) (b ++ e.key) xs

/-- The rule of MAP (R160). -/
def mapRule (s : State) : Except Raised State := do
  let m ← s.messageOperand
  let b ← mapLoop s.code s.params.bitCap 0 [] m
  return s.putBitstring b

/-- MAP (R160). -/
def execMap (s : State) : Host.Outcome State Fault Refusal := command (outputsOf .map) mapRule s

/-! ### PACK (R161, R162) -/

/-- `pad = (8 − len(bits) mod 8) mod 8` (R162). -/
def padOf (L : Nat) : Nat := (8 - L % 8) % 8

/-- PKT[0..nb] as R161 computes it from L and the bitstring: the pad length, then nb = (L + pad) div 8 bytes whose bits
at or beyond L are 0. -/
def packetOf (b : BitString) : List Byte :=
  BitVec.ofNat 8 (padOf b.length) ::
    packBytes ((b.length + padOf b.length) / 8) fun j => decide (j < b.length) && b.getD j false

/-- The rule of PACK (R161). -/
def packRule (s : State) : Except Raised State := do
  let b ← s.bitstringOperand
  return { s with
    pkt := s.pkt.writeFrom 0 (packetOf b)
    pktLen := BitVec.ofNat 32 (packetOf b).length
    pad := BitVec.ofNat 3 (padOf b.length) }

/-- PACK (R161). -/
def execPack (s : State) : Host.Outcome State Fault Refusal := command (outputsOf .pack) packRule s

/-! ### ENC (R163) -/

/-- The rule of ENC (R163): the two checks, then the bodies of HIST, BUILD, MAP and PACK; a raise in any ends it. -/
def encRule (s : State) : Except Raised State :=
  if s.params.symCap < s.symLen.toNat then .error { err := .cap, info := 1 }
  else if s.symLen.toNat = 0 then .error { err := .empty, info := 0 }
  else do
    let s1 ← histRule s
    let s2 ← buildRule s1
    let s3 ← mapRule s2
    packRule s3

/-- ENC (R163). -/
def execEnc (s : State) : Host.Outcome State Fault Refusal := command (outputsOf .enc) encRule s

end Sys2Proof.Machine
end

