-- ==== Sys2Proof/Machine/Walk.lean ====
section
/-! DEFINITION. The unpacker UNPACK, the code-tree traversal WALK and the fused decoder DEC (43_unpack_and_walk.md). -/

namespace Sys2Proof.Machine

/-! ### UNPACK (R190) -/

/-- The rule of UNPACK (R190). The pad bits are dropped unchecked. -/
def unpackRule (s : State) : Except Raised State := do
  let (pad, L) ← s.packetOperand
  return { s.putBitstring (s.payloadBits L) with pad := BitVec.ofNat 3 pad }

/-- UNPACK (R190). -/
def execUnpack (s : State) : Host.Outcome State Fault Refusal := command (outputsOf .unpack) unpackRule s

/-! ### WALK (R191 to R193) -/

/-- Slot `k` holds the key `acc`: valid, LEN = |acc|, and the same bits below LEN (R192). -/
def slotHolds (ring : Table RingSlot) (acc : BitString) (k : Symbol) : Bool :=
  (ring.entry k).valid && decide ((ring.entry k).key = acc)

/-- `match(acc)`: the least slot number that holds the key `acc` (R192). -/
def matchSlot (ring : Table RingSlot) (acc : BitString) : Option Symbol := allSymbols.find? (slotHolds ring acc)

/-- The loop of R191 over the bits from index `j` on, with the accumulator, the index `start` of its first bit and the
symbols emitted so far (`n` of them). -/
def walkLoop (ring : Table RingSlot) (symCap : Nat) :
    (acc : BitString) → (start j : Nat) → (out : List Symbol) → BitString → Except Raised (List Symbol)
  | acc, start, _, out, [] => if acc = [] then .ok out else .error { err := .decode, info := BitVec.ofNat 32 start }
  | acc, start, j, out, b :: bs =>
    if acc.length = 255 then .error { err := .decode, info := BitVec.ofNat 32 start }
    else
      match matchSlot ring (acc ++ [b]) with
      | none => walkLoop ring symCap (acc ++ [b]) start (j + 1) out bs
      | some k =>
        if out.length = symCap then .error { err := .cap, info := 4 }
        else walkLoop ring symCap [] (j + 1) (j + 1) (out ++ [(ring.entry k).sym]) bs

/-- The rule of WALK (R191): the extent written is SYM[0..n−1]. -/
def walkRule (s : State) : Except Raised State := do
  let b ← s.bitstringOperand
  let out ← walkLoop s.ring s.params.symCap [] 0 0 [] b
  return { s with sym := s.sym.writeFrom 0 out, symLen := BitVec.ofNat 32 out.length }

/-- WALK (R191). -/
def execWalk (s : State) : Host.Outcome State Fault Refusal := command (outputsOf .walk) walkRule s

/-! ### DEC (R194) -/

/-- The rule of DEC (R194): the bodies of UNPACK and WALK; a raise in either ends it. -/
def decRule (s : State) : Except Raised State := do
  let s1 ← unpackRule s
  walkRule s1

/-- DEC (R194). -/
def execDec (s : State) : Host.Outcome State Fault Refusal := command (outputsOf .dec) decRule s

end Sys2Proof.Machine
end

