-- ==== Sys2Proof/Machine/Dispatch.lean ====
section
/-! DEFINITION. The meaning of each command (40_control.md R120). -/

namespace Sys2Proof.Machine

def exec (i : Instr) (s : State) : Host.Outcome State Fault Refusal :=
  match i with
  | .nop => Sys2Proof.Machine.execNop s
  | .clr => Sys2Proof.Machine.execClr s
  | .hist => Sys2Proof.Machine.execHist s
  | .build => Sys2Proof.Machine.execBuild s
  | .map => Sys2Proof.Machine.execMap s
  | .pack => Sys2Proof.Machine.execPack s
  | .enc => Sys2Proof.Machine.execEnc s
  | .unpack => Sys2Proof.Machine.execUnpack s
  | .walk => Sys2Proof.Machine.execWalk s
  | .dec => Sys2Proof.Machine.execDec s

end Sys2Proof.Machine
end

