-- ==== Sys2Proof/Machine/HostPort.lean ====
section
/-! DEFINITION. The host's view of the block: the address map (20_memory.md R60), the legal access shapes (R62, R63), the
record layout (30_encoding.md R96), and what each read returns and each write stores (R61, R66). -/

namespace Sys2Proof.Machine

/-- The eight registers in the order of their offsets 0x00, 0x04, …, 0x1C (R60). -/
inductive RegName where
  | cmd | status | errinfo | symLen | bitLen | pktLen | pad | nsym
deriving DecidableEq, Repr

/-- The registers by word index (offset div 4). -/
def regNames : List RegName := [.cmd, .status, .errinfo, .symLen, .bitLen, .pktLen, .pad, .nsym]

/-- The offset of a register (R21 to R28). -/
def RegName.offset : RegName → Nat
  | .cmd => 0x00
  | .status => 0x04
  | .errinfo => 0x08
  | .symLen => 0x0C
  | .bitLen => 0x10
  | .pktLen => 0x14
  | .pad => 0x18
  | .nsym => 0x1C

/-- What stands at a block address. -/
inductive Location where
  | register (r : RegName)
  | freq (s : Symbol)
  | code (s : Symbol) (offset : Nat)
  | ring (k : Symbol) (offset : Nat)
  | sym (i : Nat)
  | pkt (i : Nat)
  | bits (i : Nat)
  | reserved
deriving DecidableEq, Repr

/-- The address map of R60, range by range. A word-access location is the one of the word that holds the address. -/
def locate (p : Params) (a : Nat) : Location :=
  if a < 0x20 then
    match regNames[a / 4]? with
    | some r => .register r
    | none => .reserved
  else if a < 0x400 then .reserved
  else if a < 0x800 then .freq (BitVec.ofNat 8 ((a - 0x400) / 4))
  else if a < 0x4000 then .reserved
  else if a < 0x8000 then .code (BitVec.ofNat 8 ((a - 0x4000) / 64)) ((a - 0x4000) % 64)
  else if a < 0xC000 then .ring (BitVec.ofNat 8 ((a - 0x8000) / 64)) ((a - 0x8000) % 64)
  else if a < 0x100000 then .reserved
  else if a < 0x200000 then if a - 0x100000 < p.symCap then .sym (a - 0x100000) else .reserved
  else if a < 0x400000 then if a - 0x200000 < p.pktCap then .pkt (a - 0x200000) else .reserved
  else if a - 0x400000 < p.bitCap / 8 then .bits (a - 0x400000) else .reserved

/-- The access is not malformed (R62, R63): an aligned word in 0x000 to 0x7FF, the registers and FREQ, or a byte above,
"Word-only for registers and FREQ, byte-only elsewhere" (92_eei_decisions.md D25; notes/assumptions/11.md for the reserved
gap below 0x4000). -/
def shapeOk (a size : Nat) : Bool :=
  (decide (size = 4) && decide (a % 4 = 0) && decide (a < 0x800)) || (decide (size = 1) && decide (0x800 ≤ a))

/-- Byte `o` of a 64-byte record (R96); `sym` is 0 for a CODE entry. -/
def recordByte (e : CodeEntry) (sym : Byte) (o : Nat) : Byte :=
  if o = 0 then e.len
  else if o = 1 then sym
  else if o = 2 then (if e.valid then 1 else 0)
  else if 4 ≤ o ∧ o < 36 then e.bits.toList.getD (o - 4) 0
  else 0

/-- A RING slot after a host write of byte `o` (R96): reserved bytes and bits ignore writes. -/
def RingSlot.writeByte (r : RingSlot) (o : Nat) (v : Byte) : RingSlot :=
  if o = 0 then { r with len := v }
  else if o = 1 then { r with sym := v }
  else if o = 2 then { r with valid := v.getLsbD 0 }
  else if 4 ≤ o ∧ o < 36 then { r with bits := r.bits.setIfInBounds (o - 4) v }
  else r

/-- What a host read of a location returns; a byte is zero-extended. CMD reads 0 (R21), a reserved range reads 0 (R61). -/
def State.locRead (s : State) : Location → Word
  | .register .cmd => 0
  | .register .status => s.statusWord
  | .register .errinfo => s.errinfo
  | .register .symLen => s.reg .symLen
  | .register .bitLen => s.reg .bitLen
  | .register .pktLen => s.reg .pktLen
  | .register .pad => s.reg .pad
  | .register .nsym => s.reg .nsym
  | .freq x => s.freq.entry x
  | .code x o => (recordByte (s.code.entry x) 0 o).zeroExtend 32
  | .ring k o => (recordByte (s.ring.entry k).toCodeEntry (s.ring.entry k).sym o).zeroExtend 32
  | .sym i => (s.sym.read i).zeroExtend 32
  | .pkt i => (s.pkt.read i).zeroExtend 32
  | .bits i => (s.bits.read i).zeroExtend 32
  | .reserved => 0

/-- What a host write to a location other than CMD stores (R66): read-only and reserved locations ignore it. A byte
location takes the low byte of the data (notes/assumptions/12.md). -/
def State.locWrite (s : State) (v : Word) : Location → State
  | .register .symLen => { s with symLen := v }
  | .register .bitLen => { s with bitLen := v }
  | .register .pktLen => { s with pktLen := v }
  | .register .cmd | .register .status | .register .errinfo | .register .pad | .register .nsym => s
  | .freq _ => s
  | .code _ _ => s
  | .ring k o => { s with ring := s.ring.put k ((s.ring.entry k).writeByte o (v.setWidth 8)) }
  | .sym i => { s with sym := s.sym.write i (v.setWidth 8) }
  | .pkt i => { s with pkt := s.pkt.write i (v.setWidth 8) }
  | .bits i => { s with bits := s.bits.write i (v.setWidth 8) }
  | .reserved => s

/-- A host read: the value goes to the host, the block is unchanged (R66). -/
def State.hostRead (s : State) (a : Nat) : State :=
  { s with reads := s.reads ++ [s.locRead (locate s.params a)] }

/-- A host write to any address but CMD's. -/
def State.hostWrite (s : State) (a : Nat) (v : Word) : State := s.locWrite v (locate s.params a)

/-- Reset of a running block (70_reset_and_hazards.md R250): every register and table at its value of R39, no command in
progress, and the buffers' contents unspecified anew. The parameters are the block's; what the host does next and has
read is outside it. -/
def State.resetBlock (s : State) : State :=
  { State.reset with
    params := s.params
    sym := Buffer.unspecified s.nextDraw
    bits := Buffer.unspecified (s.nextDraw + 1)
    pkt := Buffer.unspecified (s.nextDraw + 2)
    nextDraw := s.nextDraw + 3
    script := s.script
    reads := s.reads }

end Sys2Proof.Machine
end

