-- ==== Sys2Proof/Machine/Engine.lean ====
section
/-! DEFINITION. The engine as the host drives it: a command word run whole, or issued and completed in two steps, and the
events at HUFC's boundary (40_control.md R120, 70_reset_and_hazards.md R250 to R254). -/

namespace Sys2Proof.Machine

/-- Dispatch of a command word (R120): an illegal word ends with ERR_ILLCMD (R227), any other runs its command. -/
def runWord (w : Word) (s : State) : Host.Outcome State Fault Refusal :=
  match decode w with
  | .ok i => exec i s
  | .error _ => .next (s.illegal w)

/-- A host transaction. While BUSY = 1 only a STATUS read has a meaning (R254); otherwise a malformed access is refused
(R63), a write to CMD runs its command (R120), and every other access reads or stores (R66). -/
def hostAccess (a : Access) (s : State) : Host.Outcome State Fault Refusal :=
  match a with
  | .read addr size =>
    if s.busy && !(decide (addr.toNat = RegName.status.offset) && decide (size = 4)) then .refused .accessWhileBusy
    else if shapeOk addr.toNat size then .next (s.hostRead addr.toNat)
    else .refused .malformedAccess
  | .write addr size v =>
    if s.busy then .refused .accessWhileBusy
    else if shapeOk addr.toNat size then
      if addr.toNat = RegName.cmd.offset then runWord v s else .next (s.hostWrite addr.toNat v)
    else .refused .malformedAccess

/-- The start of a command at the finer grain (R254): BUSY = 1 until it completes; a CMD write while BUSY = 1 is refused.
DESIGN CHOICE (notes/assumptions/20.md): an illegal word, of which R93 says that it "completes at once", is issued and
completed in two events like any other; a script that completes it directly after the issue is that at-once ending. -/
def issueCommand (w : Word) (s : State) : Host.Outcome State Fault Refusal :=
  if s.busy then .refused .accessWhileBusy else .next (s.started w)

/-- The engine's own step: complete the command in progress; with none it is "simply idle, all state is retained"
(60_exceptions.md R236). -/
def engineStep (s : State) : Host.Outcome State Fault Refusal :=
  match s.inFlight with
  | some w => runWord w s
  | none => .next s

/-- One event. -/
def runEvent (e : Event) (s : State) : Host.Outcome State Fault Refusal :=
  match e with
  | .access a => hostAccess a s
  | .issue w => issueCommand w s
  | .complete => engineStep s
  | .rst => .next s.resetBlock

end Sys2Proof.Machine
end

