-- ==== Sys2Proof/Machine/Step.lean ====
section
/-! DEFINITION. One step of HUFC: the next event of the script, or, when nothing is left in it, the engine's own step. -/

namespace Sys2Proof.Machine

/-- One step. The next event is taken off the script and run; with an empty script the engine completes the command in
progress, if there is one ("BUSY always returns to 0", R253), and otherwise stays idle (R236). -/
def step (s : State) : Host.Outcome State Fault Refusal :=
  match s.script with
  | [] => engineStep s
  | e :: es => runEvent e { s with script := es }

/-- `s` about to run the command whose bits are `w`: the host's next transaction is the write of that word to CMD, and
the engine is idle, so that CMD accepts it (notes/assumptions/6.md). -/
def State.withFetchWord (s : State) (nbits w : Nat) : State :=
  { s with
    inFlight := none
    script := .access (.write 0 4 (BitVec.ofNat 32 (w % 2 ^ nbits))) :: s.script }

end Sys2Proof.Machine
end

