-- ==== Sys2Proof/Machine/Script.lean ====
section
/-! DEFINITION. The host-script notation (30_encoding.md R101 to R104): each line as the transactions it stands for. -/

namespace Sys2Proof.Machine

/-- The byte windows a `wb` or `rb` line names: `BUF[i]`, `RING[k][i]`, `CODE[s][i]` (R101). -/
inductive Window where
  | sym | pkt | bits
  | ring (k : Symbol)
  | code (s : Symbol)
deriving DecidableEq, Repr

/-- The base address of a window (R101). -/
def Window.base : Window → Nat
  | .sym => 0x100000
  | .pkt => 0x200000
  | .bits => 0x400000
  | .ring k => 0x8000 + 64 * k.toNat
  | .code s => 0x4000 + 64 * s.toNat

/-- A line of a host script: the transactions of R101 and the pseudo-operations of R103. The assertion `expect X == v` is
"not a transaction"; the read X it speaks about is a line of its own, and its value goes to `State.reads`. -/
inductive ScriptLine where
  | wr (r : RegName) (v : Word)
  | rd (r : RegName)
  | wb (b : Window) (i : Nat) (v : Byte)
  | rb (b : Window) (i : Nat)
  | rw (s : Symbol)
  | cmd (i : Instr)
  | wait
  | run (i : Instr)
  | loadSym (bs : List Byte)
  | loadPkt (bs : List Byte)
  | loadBits (b : BitString)
  | ring (k : Symbol) (s : Symbol) (c : BitString)
  | unring (k : Symbol)
deriving DecidableEq, Repr

/-- `wr REG, v` as a transaction (R101, R104). -/
def wrEvent (r : RegName) (v : Word) : Event := .access (.write (BitVec.ofNat 23 r.offset) 4 v)

/-- `rd REG` (R101). -/
def rdEvent (r : RegName) : Event := .access (.read (BitVec.ofNat 23 r.offset) 4)

/-- `wb BUF[i], v` (R101). -/
def wbEvent (b : Window) (i : Nat) (v : Byte) : Event :=
  .access (.write (BitVec.ofNat 23 (b.base + i)) 1 (v.zeroExtend 32))

/-- `rb BUF[i]` (R101). -/
def rbEvent (b : Window) (i : Nat) : Event := .access (.read (BitVec.ofNat 23 (b.base + i)) 1)

/-- `wb` lines for consecutive bytes from index `i` up. -/
def wbRun (b : Window) (i : Nat) : List Byte → List Event
  | [] => []
  | v :: vs => wbEvent b i v :: wbRun b (i + 1) vs

/-- The transactions of a line (R101, R103). A `wait` is one STATUS read: "in the command-level model the first
`rd STATUS` of a `wait` already returns BUSY = 0" (95_test_vectors.md Part 3; notes/assumptions/18.md). -/
def ScriptLine.events : ScriptLine → List Event
  | .wr r v => [wrEvent r v]
  | .rd r => [rdEvent r]
  | .wb b i v => [wbEvent b i v]
  | .rb b i => [rbEvent b i]
  | .rw s => [.access (.read (BitVec.ofNat 23 (0x400 + 4 * s.toNat)) 4)]
  | .cmd i => [wrEvent .cmd (encode i)]
  | .wait => [rdEvent .status]
  | .run i => [wrEvent .cmd (encode i), rdEvent .status]
  | .loadSym bs => wbRun .sym 0 bs ++ [wrEvent .symLen (BitVec.ofNat 32 bs.length)]
  | .loadPkt bs => wbRun .pkt 0 bs ++ [wrEvent .pktLen (BitVec.ofNat 32 bs.length)]
  | .loadBits b => wbRun .bits 0 (bytesOf b) ++ [wrEvent .bitLen (BitVec.ofNat 32 b.length)]
  | .ring k s c =>
    [wbEvent (.ring k) 2 0, wbEvent (.ring k) 0 (BitVec.ofNat 8 c.length), wbEvent (.ring k) 1 s]
      ++ wbRun (.ring k) 4 (bytesOf c) ++ [wbEvent (.ring k) 2 1]
  | .unring k => [wbEvent (.ring k) 2 0]

/-- The transactions of a script, in order. -/
def scriptEvents (ls : List ScriptLine) : List Event := ls.flatMap ScriptLine.events

end Sys2Proof.Machine
end

