-- ==== Sys2Proof/Machine/CodeTree.lean ====
section
/-! DEFINITION. Other views of BUILD and WALK that the spec gives beside the normative pseudocode: the code tree
(41_frequency_and_tree.md R136), the unbounded accumulator (43_unpack_and_walk.md R193) and the walk of the trie of the
ring's keys (R195). No command calls them; the statements compare the commands with them. -/

namespace Sys2Proof.Machine

/-! ### The code tree (R136) -/

/-- "A binary tree whose leaves are symbols"; `lone` is the root "with a single 0-child, the leaf" of NSYM = 1 (R136). -/
inductive CodeTree where
  | leaf (s : Symbol)
  | node (zero one : CodeTree)
  | lone (s : Symbol)
deriving DecidableEq, Repr

/-- The leaves with their root paths: "the sequence of edge labels from the root down to the leaf" (R136). -/
def CodeTree.paths : CodeTree → List (Symbol × BitString)
  | .leaf s => [(s, [])]
  | .node z o => z.paths.map (fun p => (p.1, false :: p.2)) ++ o.paths.map (fun p => (p.1, true :: p.2))
  | .lone s => [(s, [false])]

/-- The merges of BUILD, each node with its tree, found by the node's group: "a merge creates an internal node whose
0-child is the first popped node and whose 1-child is the second popped node" (R136). The last node is the root. -/
def treeLoop : Nat → List Node → (List Symbol → CodeTree) → Option CodeTree
  | 0, q, tr => q.head?.map fun n => tr n.group
  | fuel + 1, q, tr =>
    match popMin q with
    | none => none
    | some (n1, q1) =>
      match popMin q1 with
      | none => some (tr n1.group)
      | some (n2, q2) =>
        treeLoop fuel (mergeNodes n1 n2 :: q2) fun g =>
          if g = n1.group ++ n2.group then .node (tr n1.group) (tr n2.group) else tr g

/-- The code tree of a frequency table (R136); there is none when no symbol occurs. -/
def codeTree (freq : Table Word) : Option CodeTree :=
  match initialQueue freq with
  | [] => none
  | [n] => some (.lone (n.group.headD 0))
  | q => treeLoop q.length q fun g => .leaf (g.headD 0)

/-! ### The unbounded accumulator (R193) -/

/-- The scan of R191 without the 255-bit limit, the document's accumulator (R193). -/
def walkUnbounded (ring : Table RingSlot) (symCap : Nat) :
    (acc : BitString) → (start j : Nat) → (out : List Symbol) → BitString → Except Raised (List Symbol)
  | acc, start, _, out, [] => if acc = [] then .ok out else .error { err := .decode, info := BitVec.ofNat 32 start }
  | acc, start, j, out, b :: bs =>
    match matchSlot ring (acc ++ [b]) with
    | none => walkUnbounded ring symCap (acc ++ [b]) start (j + 1) out bs
    | some k =>
      if out.length = symCap then .error { err := .cap, info := 4 }
      else walkUnbounded ring symCap [] (j + 1) (j + 1) (out ++ [(ring.entry k).sym]) bs

/-! ### The trie of the ring (R195) -/

/-- A binary trie of keys; a node is marked with a symbol when it equals a key (R195). -/
inductive Trie where
  | empty
  | node (mark : Option Symbol) (zero one : Trie)
deriving DecidableEq, Repr

/-- The b-child of a node. -/
def Trie.child : Trie → Bool → Trie
  | .empty, _ => .empty
  | .node _ z o, b => if b then o else z

/-- The mark of a node. -/
def Trie.mark? : Trie → Option Symbol
  | .empty => none
  | .node m _ _ => m

/-- Mark the node of a key, in place of an earlier mark. -/
def Trie.insert (x : Symbol) : BitString → Trie → Trie
  | [], t => .node (some x) (t.child false) (t.child true)
  | false :: bs, t => .node t.mark? (Trie.insert x bs (t.child false)) (t.child true)
  | true :: bs, t => .node t.mark? (t.child false) (Trie.insert x bs (t.child true))

/-- The trie of the valid slots' keys, each node marked "with the symbol of the least slot holding that key" (R195):
slots are entered from the highest down, so the least stands. -/
def ringTrie (ring : Table RingSlot) : Trie :=
  allSymbols.foldr
    (fun k t => if (ring.entry k).valid then Trie.insert (ring.entry k).sym (ring.entry k).key t else t) .empty

/-- The walk of R195 from a node at a depth: "for each bit move to that child; if the node reached is marked, emit its
symbol and return to the root; at the end of the bitstring fail unless standing at the root; fail when about to step
below depth 255". -/
def trieWalk (root : Trie) (symCap : Nat) :
    (here : Trie) → (depth start j : Nat) → (out : List Symbol) → BitString → Except Raised (List Symbol)
  | _, depth, start, _, out, [] =>
    if depth = 0 then .ok out else .error { err := .decode, info := BitVec.ofNat 32 start }
  | here, depth, start, j, out, b :: bs =>
    if depth = 255 then .error { err := .decode, info := BitVec.ofNat 32 start }
    else
      match (here.child b).mark? with
      | none => trieWalk root symCap (here.child b) (depth + 1) start (j + 1) out bs
      | some x =>
        if out.length = symCap then .error { err := .cap, info := 4 }
        else trieWalk root symCap root 0 (j + 1) (j + 1) (out ++ [x]) bs

end Sys2Proof.Machine
end

