-- ==== Sys2Proof/Safety.lean ====
section
/-! DEFINITION. What the statements speak about: the invariants of a run of HUFC, agreement of two states on a set of
items, extents, and the relations that say what BUILD and WALK compute without the pseudocode's loops. -/

namespace Sys2Proof.Machine

/-! ### Invariants -/

/-- A buffer is in canonical form and lists only bytes that exist: "Only indices below SYM_CAP exist" (10_state.md R34),
and likewise for BITS and PKT (R35, R36). -/
def Buffer.Fits (b : Buffer) (cap : Nat) : Prop := Memory.wf b.cells ∧ ∀ x ∈ b.cells, x.1 < cap

/-- The sum of all FREQ entries (10_state.md R31). -/
def freqTotal (freq : Table Word) : Nat := (allSymbols.map fun x => (freq.entry x).toNat).sum

/-- The symbols with a valid code. -/
def codedSymbols (code : Table CodeEntry) : List Symbol := allSymbols.filter fun x => (code.entry x).valid

/-- An entry of CODE has the form the engine writes: "an invalid entry is all zero, and in a valid entry every BITS
position at or beyond LEN is 0" (30_encoding.md R96), and "no code is empty" (10_state.md R32). -/
def CodeEntry.EngineWritten (e : CodeEntry) : Prop :=
  (e.valid = false → e = CodeEntry.zero) ∧ (e.valid = true → e = CodeEntry.ofCode e.key ∧ e.key ≠ [])

/-- What every state that HUFC can be in satisfies. -/
structure State.Inv (s : State) : Prop where
  /-- The parameters meet the constraints of 00_scope.md R5. -/
  params : s.params.wf = true
  /-- The buffers are canonical and within their capacities (20_memory.md R69). -/
  symFits : s.sym.Fits s.params.symCap
  bitsFits : s.bits.Fits (s.params.bitCap / 8)
  pktFits : s.pkt.Fits s.params.pktCap
  /-- The buffers' draws are used ones and differ, so no two buffers share free values. -/
  draws : s.sym.draw < s.nextDraw ∧ s.bits.draw < s.nextDraw ∧ s.pkt.draw < s.nextDraw
  drawsDiffer : s.sym.draw ≠ s.bits.draw ∧ s.sym.draw ≠ s.pkt.draw ∧ s.bits.draw ≠ s.pkt.draw
  /-- "BUSY and DONE are never both 1" (10_state.md R22). -/
  busyNotDone : s.busy = true → s.done = false
  /-- Without a completed command there is no error (R22: reset and each CMD write zero ERR). -/
  errWhenDone : s.done = false → s.err = none
  /-- ERRINFO is "0 when ERR = 0" (10_state.md R23). -/
  infoWhenErr : s.err = none → s.errinfo = 0
  /-- "The FREQ entries sum to SYM_LEN ≤ SYM_CAP" (41_frequency_and_tree.md R139). -/
  freqBound : freqTotal s.freq ≤ s.params.symCap
  /-- CODE holds only what the engine writes (10_state.md R32). -/
  codeForm : ∀ x, (s.code.entry x).EngineWritten
  /-- NSYM is "the number of valid CODE entries" (10_state.md R28). -/
  nsymCounts : s.nsym.toNat = (codedSymbols s.code).length

/-- "No code is a prefix of another" (10_state.md R32): the codes of two different symbols that have one. -/
def PrefixFree (code : Table CodeEntry) : Prop :=
  ∀ x y, (code.entry x).valid = true → (code.entry y).valid = true → x ≠ y →
    ¬ (code.entry x).key <+: (code.entry y).key

/-! ### Agreement and extents -/

/-- The bytes of a buffer that its length register says are in use: SYM_LEN, ceil(BIT_LEN/8), PKT_LEN (R24 to R26). -/
def State.extent (s : State) : Buf → Nat
  | .sym => s.symLen.toNat
  | .bits => bytesFor s.bitLen.toNat
  | .pkt => s.pktLen.toNat

/-- Two states hold the same table. -/
def sameTab (s t : State) : Tab → Prop
  | .freq => s.freq = t.freq
  | .code => s.code = t.code
  | .ring => s.ring = t.ring

/-- Two states agree on registers, tables, and the extents of buffers. -/
structure AgreeOn (o : Items) (s t : State) : Prop where
  params : s.params = t.params
  regs : ∀ r ∈ o.regs, s.reg r = t.reg r
  tabs : ∀ x ∈ o.tabs, sameTab s t x
  bufs : ∀ b ∈ o.bufs, ∀ k < s.extent b, (s.buf b).read k = (t.buf b).read k

/-- The state after a command ended without error, in the flags: STATUS = 0x02, ERRINFO = 0 (R120). -/
def State.succeeded (s : State) : State := { s with inFlight := none, done := true, err := none, errinfo := 0 }

/-- The state after a command ended with an error, in the flags (R230), draws up to `n` being used: STATUS = 0x02 | E << 4. -/
def State.failed (s : State) (e : CmdError) (info : Word) (n : Nat) : State :=
  { s with inFlight := none, done := true, err := some e, errinfo := info, nextDraw := n }

/-- Draw `d` was made by a step that used the draws from `m` up to `n`: the contents it gives are unspecified anew. -/
def FreshDraw (m n d : Nat) : Prop := m ≤ d ∧ d < n

/-- A malformed access of 20_memory.md R63: "a word access at an address not a multiple of 4; a byte access to the
word-access region; a word access to a byte-access region; an access of any other size". The word-access region is 0x000 to
0x7FF (R62), and all above it is byte-only (92_eei_decisions.md D25). -/
def Malformed (a size : Nat) : Prop :=
  (size = 4 ∧ a % 4 ≠ 0) ∨ (size = 1 ∧ a < 0x800) ∨ (size = 4 ∧ 0x800 ≤ a) ∨ (size ≠ 1 ∧ size ≠ 4)

/-- A buffer holds `bs` from index 0 up and is otherwise as `old`: an extent was written and nothing else (R68). -/
def Buffer.Extended (b old : Buffer) (bs : List Byte) : Prop :=
  (∀ k (h : k < bs.length), b.read k = bs[k]) ∧ ∀ k, bs.length ≤ k → b.read k = old.read k

/-! ### BUILD as a relation (41_frequency_and_tree.md R132), the queue being a set -/

/-- The initial queue, "one per distinct symbol" (R132). -/
def leaves (freq : Table Word) : Multiset Node :=
  ((allSymbols.filter fun x => freq.entry x ≠ 0).map fun x => { count := freq.entry x, group := [x] } : List Node)

/-- `n` is the least node of a queue (R131). -/
def LeastIn (n : Node) (q : Multiset Node) : Prop := n ∈ q ∧ ∀ m ∈ q, m ≠ n → n.lt m = true

/-- The merges of R132 from queue `q` and codes-so-far `c` end with the codes `c'`. -/
inductive Merges : Multiset Node → (Symbol → BitString) → (Symbol → BitString) → Prop where
  | done {q c} : Multiset.card q ≤ 1 → Merges q c c
  | turn {q n1 n2 c c'} : LeastIn n1 q → LeastIn n2 (q.erase n1) →
      Merges (mergeNodes n1 n2 ::ₘ (q.erase n1).erase n2) (prependBits n1.group n2.group c) c' → Merges q c c'

/-! ### WALK as a relation (43_unpack_and_walk.md R191, R192) -/

/-- `k` is the least slot that holds the key `c`: VALID = 1, LEN = |c|, the same bits (R192). -/
def LeastHolder (ring : Table RingSlot) (c : BitString) (k : Symbol) : Prop :=
  (ring.entry k).valid = true ∧ (ring.entry k).key = c ∧
    ∀ j, j < k → ¬ ((ring.entry j).valid = true ∧ (ring.entry j).key = c)

/-- No valid slot holds `c`. -/
def NoHolder (ring : Table RingSlot) (c : BitString) : Prop :=
  ∀ k, ¬ ((ring.entry k).valid = true ∧ (ring.entry k).key = c)

/-- `c` is a code of the ring read greedily: non-empty, held by slot `k`, and no shorter beginning of it is a key. -/
def ShortestMatch (ring : Table RingSlot) (c : BitString) (k : Symbol) : Prop :=
  c ≠ [] ∧ LeastHolder ring c k ∧ ∀ p, p <+: c → p ≠ [] → p ≠ c → NoHolder ring p

/-- The bit string is a sequence of whole codes of the ring, which map to the symbols. -/
inductive Parses (ring : Table RingSlot) : BitString → List Symbol → Prop where
  | nil : Parses ring [] []
  | cons {c k b xs} : ShortestMatch ring c k → Parses ring b xs → Parses ring (c ++ b) ((ring.entry k).sym :: xs)

end Sys2Proof.Machine
end

