-- ==== Sys2Proof/Certificates/Slice0/Obligations.lean ====
section
/-! DEFINITION. The statements about HUFC for the provers, in the order of OBLIGATIONS.json. -/

open Sys2Proof Sys2Proof.Machine

/-! ### Encoding (30_encoding.md) -/

/-- R92: "A decoder accepts a word w exactly when `w[31:8] = 0` and `w[7:0]` is in this table", the ten words of the
table's column "word". -/
def Obligations.DecodeAcceptsExactlyTheOpcodeMap : Prop :=
  ∀ (w : Word) (i : Instr), decode w = .ok i ↔
    (w.toNat, i) ∈ [(0x00, Instr.nop), (0x01, .clr), (0x10, .hist), (0x11, .build), (0x12, .map), (0x13, .pack),
      (0x1F, .enc), (0x20, .unpack), (0x21, .walk), (0x2F, .dec)]

/-- Decoding and encoding agree, both ways round. -/
def Obligations.DecodeAndEncodeAgree : Prop :=
  (∀ i : Instr, i.wf = true → decode (encode i) = .ok i) ∧ ∀ (w : Word) (i : Instr), decode w = .ok i → encode i = w

/-- Words written out bit by bit from R90 and R92 decode to the commands they stand for, one of each family. -/
def Obligations.WrittenWordsDecode : Prop :=
  decode 0b0000_0000_0000_0000_0000_0000_0000_0001#32 = .ok .clr ∧
  decode 0b0000_0000_0000_0000_0000_0000_0001_0001#32 = .ok .build ∧
  decode 0b0000_0000_0000_0000_0000_0000_0001_1111#32 = .ok .enc ∧
  decode 0b0000_0000_0000_0000_0000_0000_0010_0001#32 = .ok .walk ∧
  decode 0b0000_0000_0000_0000_0000_0001_0001_1111#32 = .error .zeroFieldNotZero

/-! ### Dispatch, errors, reset (40_control.md, 60_exceptions.md, 70_reset_and_hazards.md) -/

/-- A host write of a command's word to CMD while BUSY = 0 is one step, and that step is the command (R120, R8); the
same for a word placed by `withFetchWord`. -/
def Obligations.StepRunsTheDecodedCommand : Prop :=
  (∀ (s : State) (es : List Event) (w : Word) (i : Instr), s.script = .access (.write 0 4 w) :: es → s.busy = false →
    decode w = .ok i → step s = exec i { s with script := es }) ∧
  ∀ (s : State) (nbits w : Nat) (i : Instr), nbits ≤ 32 → decodeTableWord nbits w = some i →
    step (s.withFetchWord nbits w) = exec i { s with inFlight := none }

/-- R227: a word that is not one of the ten ends with ERR_ILLCMD, "ERRINFO = the word written. Nothing else changes". -/
def Obligations.IllegalWordChangesOnlyStatus : Prop :=
  ∀ (s : State) (es : List Event) (w : Word), s.script = .access (.write 0 4 w) :: es → s.busy = false →
    (∀ i : Instr, encode i ≠ w) →
      step s = .next { s with script := es, inFlight := none, done := true, err := some .illCmd, errinfo := w }

/-- Every command completes in one step with BUSY = 0 and DONE = 1, STATUS = `0x02 | (ERR << 4)`, and ERRINFO = 0 when
ERR = 0 (10_state.md R22, R23; R120). -/
def Obligations.EveryCommandCompletes : Prop :=
  ∀ (i : Instr) (s : State), ∃ t, exec i s = .next t ∧ t.busy = false ∧ t.done = true ∧
    t.statusWord.toNat = 2 + 16 * errNumber t.err ∧ (t.err = none → t.errinfo = 0)

/-- The frame of every command (R120, 10_state.md R40, 20_memory.md R68): registers, tables and buffers that are not its
outputs are untouched, and on success an output buffer keeps every byte at or beyond its extent, the extent being the
one its length register then gives. -/
def Obligations.CommandChangesOnlyItsOutputs : Prop :=
  ∀ (i : Instr) (s t : State), exec i s = .next t →
    (∀ r, r ∉ (outputsOf i).regs → t.reg r = s.reg r) ∧
    (∀ x, x ∉ (outputsOf i).tabs → sameTab s t x) ∧
    (∀ b, b ∉ (outputsOf i).bufs → t.buf b = s.buf b) ∧
    (s.params.wf = true → t.err = none → ∀ b ∈ (outputsOf i).bufs, ∀ k, t.extent b ≤ k →
      (t.buf b).read k = (s.buf b).read k) ∧
    t.params = s.params ∧ t.script = s.script ∧ t.reads = s.reads

/-- "No command's input set and output set share a register, table or buffer" (R120), both sets as R40's matrix and
R120's table print them. -/
def Obligations.InputsAndOutputsAreDisjoint : Prop :=
  ∀ i : Instr, (∀ r ∈ (inputsOf i).regs, r ∉ (outputsOf i).regs) ∧ (∀ x ∈ (inputsOf i).tabs, x ∉ (outputsOf i).tabs) ∧
    ∀ b ∈ (inputsOf i).bufs, b ∉ (outputsOf i).bufs

/-- R230, R68: a command that ends with an error leaves its output registers and tables cleared, every byte of its output
buffers a free value of a draw made by this step (so: any value), and everything else as before. -/
def Obligations.FailedCommandClearsItsOutputs : Prop :=
  ∀ (i : Instr) (s t : State), exec i s = .next t → t.err ≠ none →
    (∀ r, t.reg r = if r ∈ (outputsOf i).regs then 0 else s.reg r) ∧
    (∀ x, t.freq.entry x = if Tab.freq ∈ (outputsOf i).tabs then 0 else s.freq.entry x) ∧
    (∀ x, t.code.entry x = if Tab.code ∈ (outputsOf i).tabs then CodeEntry.zero else s.code.entry x) ∧
    (∀ x, t.ring.entry x = if Tab.ring ∈ (outputsOf i).tabs then RingSlot.zero else s.ring.entry x) ∧
    (∀ b ∈ (outputsOf i).bufs, ∃ d, FreshDraw s.nextDraw t.nextDraw d ∧ ∀ k, (t.buf b).read k = Config.freeByte d k) ∧
    (∀ b, b ∉ (outputsOf i).bufs → t.buf b = s.buf b) ∧
    t.statusWord.toNat = 2 + 16 * errNumber t.err

/-- R231: "Re-issuing the failed command unchanged fails in the same way". -/
def Obligations.FailureRepeats : Prop :=
  ∀ (i : Instr) (s t : State), exec i s = .next t → t.err ≠ none →
    ∃ u, exec i t = .next u ∧ u.err = t.err ∧ u.errinfo = t.errinfo

/-- R9, R40: a command's results are a function of its inputs alone. From two states that agree on the parameters and on
the command's input registers, tables and buffer extents, it ends with the same error, the same output registers and
tables, and on success the same bytes in the extents of its output buffers; no flag, no other register and no older
content of an output plays a part (10_state.md R30, R37). -/
def Obligations.CommandDependsOnItsInputsAlone : Prop :=
  ∀ (i : Instr) (s s' t t' : State), AgreeOn (inputsOf i) s s' → exec i s = .next t → exec i s' = .next t' →
    t.err = t'.err ∧ t.errinfo = t'.errinfo ∧
    (∀ r ∈ (outputsOf i).regs, t.reg r = t'.reg r) ∧ (∀ x ∈ (outputsOf i).tabs, sameTab t t' x) ∧
    (t.err = none → ∀ b ∈ (outputsOf i).bufs, ∀ k < t.extent b, (t.buf b).read k = (t'.buf b).read k)

/-- R8, R120, R254: a command issued and then completed, with BUSY = 1 between, leaves exactly what the CMD write taken
as one atomic step leaves. The two grains are the model's choice (notes/assumptions/8.md), and so is it that an illegal
word has BUSY = 1 between the two like any other (notes/assumptions/20.md). -/
def Obligations.IssueThenCompleteEqualsOneStep : Prop :=
  ∀ (s : State) (w : Word) (es : List Event), s.script = .issue w :: .complete :: es → s.busy = false →
    ∃ u t, step s = .next u ∧ u.statusWord = 1 ∧ u.errinfo = 0 ∧ step u = .next t ∧
      step { s with script := .access (.write 0 4 w) :: es } = .next t

/-- R254: while BUSY = 1 a STATUS read returns STATUS (0x01, when DONE and ERR are 0 as they are while BUSY) and every
other access, a CMD write too, is refused. -/
def Obligations.BusyAllowsOnlyStatusReads : Prop :=
  ∀ (s : State) (es : List Event), s.busy = true →
    (s.script = .access (.read 4 4) :: es →
      step s = .next { s with script := es, reads := s.reads ++ [s.statusWord] }) ∧
    (s.done = false → s.err = none → s.statusWord = 1) ∧
    (∀ (a : Addr) (n : Nat), s.script = .access (.read a n) :: es → ¬(a = 4 ∧ n = 4) →
      step s = .refused .accessWhileBusy) ∧
    (∀ (a : Addr) (n : Nat) (v : Word), s.script = .access (.write a n v) :: es → step s = .refused .accessWhileBusy) ∧
    ∀ w : Word, s.script = .issue w :: es → step s = .refused .accessWhileBusy

/-- Nothing stops HUFC but what R63 and R254 give no meaning: every step goes on, or its next event is an access other
than a STATUS read while BUSY = 1, or a malformed access while BUSY = 0. No step faults (00_scope.md R10). -/
def Obligations.StepStopsOnlyOnForbiddenAccesses : Prop :=
  ∀ s : State, (∃ t, step s = .next t) ∨
    (step s = .refused .accessWhileBusy ∧ s.busy = true ∧ ∃ es,
      (∃ a n, s.script = .access (.read a n) :: es ∧ ¬(a = 4 ∧ n = 4)) ∨
      (∃ a n v, s.script = .access (.write a n v) :: es) ∨ ∃ w, s.script = .issue w :: es) ∨
    (step s = .refused .malformedAccess ∧ s.busy = false ∧ ∃ es a n, Malformed a.toNat n ∧
      (s.script = .access (.read a n) :: es ∨ ∃ v, s.script = .access (.write a n v) :: es))

/-- R39: the reset values, by register, table and buffer; every byte of a buffer is a free value. -/
def Obligations.ResetValues : Prop :=
  State.reset.statusWord = 0 ∧ State.reset.errinfo = 0 ∧ (∀ r, State.reset.reg r = 0) ∧
    (∀ x, State.reset.freq.entry x = 0) ∧ (∀ x, State.reset.code.entry x = CodeEntry.zero) ∧
    (∀ x, State.reset.ring.entry x = RingSlot.zero) ∧
    (∀ b, (State.reset.buf b).cells = []) ∧ State.reset.inFlight = none

/-- R250: the reset input brings every register and table to its value of R39, whatever the block was doing: a command in
progress is abandoned. Every byte of every buffer is a free value of a draw made by this step. -/
def Obligations.ResetInputResets : Prop :=
  ∀ (s : State) (es : List Event), s.script = .rst :: es → ∃ t, step s = .next t ∧
    t.statusWord = 0 ∧ t.inFlight = none ∧ t.errinfo = 0 ∧ (∀ r, t.reg r = 0) ∧
    (∀ x, t.freq.entry x = 0) ∧ (∀ x, t.code.entry x = CodeEntry.zero) ∧ (∀ x, t.ring.entry x = RingSlot.zero) ∧
    (∀ b, ∃ d, FreshDraw s.nextDraw t.nextDraw d ∧ ∀ k, (t.buf b).read k = Config.freeByte d k) ∧
    t.params = s.params ∧ t.script = es ∧ t.reads = s.reads

/-! ### Invariants -/

/-- The invariants hold at reset. -/
def Obligations.ResetMeetsTheInvariants : Prop := State.Inv State.reset ∧ PrefixFree State.reset.code

/-- Every step keeps the structural invariant: canonical buffers within their capacities (20_memory.md R69), BUSY and DONE
never both 1 (10_state.md R22), ERRINFO 0 when ERR is 0 (R23), FREQ summing to at most SYM_CAP (R139), CODE in the form
the engine writes (R96) and NSYM counting its valid entries (R28). -/
def Obligations.StepKeepsTheInvariant : Prop := ∀ s t : State, State.Inv s → step s = .next t → State.Inv t

/-- Every step keeps CODE prefix-free: "no code is a prefix of another" (10_state.md R32), whatever FREQ a BUILD or ENC
works from. -/
def Obligations.StepKeepsCodesPrefixFree : Prop :=
  ∀ s t : State, PrefixFree s.code → step s = .next t → PrefixFree t.code

/-! ### NOP and CLR (40_control.md) -/

/-- R121: NOP, word 0x0000_0000, changes the flags only: STATUS = 0x02, ERRINFO = 0. -/
def Obligations.NopChangesOnlyTheFlags : Prop :=
  decode 0x0000_0000#32 = .ok .nop ∧
  ∀ s : State, exec .nop s = .next { s with inFlight := none, done := true, err := none, errinfo := 0 } ∧
    ∀ t, exec .nop s = .next t → t.statusWord = 0x02

/-- R122: CLR, word 0x0000_0001, zeroes the five registers and the three tables and keeps the contents of the buffers. -/
def Obligations.ClrClearsRegistersAndTables : Prop :=
  decode 0x0000_0001#32 = .ok .clr ∧
  ∀ s : State, ∃ t, exec .clr s = .next t ∧ (∀ r, t.reg r = 0) ∧ (∀ x, t.freq.entry x = 0) ∧
    (∀ x, t.code.entry x = CodeEntry.zero) ∧ (∀ x, t.ring.entry x = RingSlot.zero) ∧ (∀ b, t.buf b = s.buf b) ∧
    t.statusWord = 0x02 ∧ t.errinfo = 0 ∧ t.params = s.params ∧ t.script = s.script ∧ t.reads = s.reads

/-! ### HIST and BUILD (41_frequency_and_tree.md) -/

/-- R130: HIST counts the message, all 256 entries anew, and nothing else changes; SYM_LEN > SYM_CAP is ERR_CAP(1) with
FREQ all zero; SYM_LEN = 0 is no error (the first clause with an empty message). -/
def Obligations.HistCountsTheMessage : Prop :=
  decode 0x0000_0010#32 = .ok .hist ∧
  ∀ s : State,
    (s.symLen.toNat ≤ s.params.symCap → ∃ f : Table Word, (∀ x, (f.entry x).toNat = s.message.count x) ∧
      exec .hist s = .next { s.succeeded with freq := f }) ∧
    (s.params.symCap < s.symLen.toNat → ∃ n,
      exec .hist s = .next { s.failed .cap 1 n with freq := Vector.replicate 256 0 })

/-- "Invariant after a successful HIST or ENC: the sum of all FREQ[s] equals the SYM_LEN the command read" (10_state.md
R31). -/
def Obligations.FreqSumsToTheMessageLength : Prop :=
  ∀ (i : Instr) (s t : State), i = .hist ∨ i = .enc → exec i s = .next t → t.err = none →
    freqTotal t.freq = s.symLen.toNat

/-- R131: the order on nodes is strict and total; the count decides first; among equal counts the groups decide
lexicographically: "the first position where they differ decides", and a proper beginning is the lesser. -/
def Obligations.NodeOrderIsStrictAndTotal : Prop :=
  (∀ a : Node, a.lt a = false) ∧ (∀ a b c : Node, a.lt b = true → b.lt c = true → a.lt c = true) ∧
  (∀ a b : Node, a ≠ b → a.lt b = true ∨ b.lt a = true) ∧
  (∀ a b : Node, a.count < b.count → a.lt b = true) ∧
  (∀ (a b : Node) (p xs ys : List Symbol) (x y : Symbol), a.count = b.count → a.group = p ++ x :: xs →
    b.group = p ++ y :: ys → x ≠ y → (a.lt b = true ↔ x < y)) ∧
  ∀ a b : Node, a.count = b.count → a.group <+: b.group → a.group ≠ b.group → a.lt b = true

/-- R7: `popmin(Q)` "removes and returns the least element of set Q". -/
def Obligations.PopMinTakesTheLeast : Prop :=
  ∀ q : List Node, (popMin q = none ↔ q = []) ∧ ∀ n r, popMin q = some (n, r) →
    q.Perm (n :: r) ∧ ∀ m ∈ r, m.lt n = false

/-- R132 for two symbols or more: BUILD's codes are those of the merges of R132 on the queue as a set, no other codes are
(so the result "does not depend on how the priority queue is implemented", R140), and CODE, RING and NSYM are written
from them. -/
def Obligations.BuildFollowsTheMerges : Prop :=
  decode 0x0000_0011#32 = .ok .build ∧
  ∀ s : State, 2 ≤ Multiset.card (leaves s.freq) →
    ∃ c, Merges (leaves s.freq) (fun _ => []) c ∧ (∀ c', Merges (leaves s.freq) (fun _ => []) c' → c' = c) ∧
      exec .build s = .next { s.succeeded with
        nsym := BitVec.ofNat 9 (Multiset.card (leaves s.freq))
        code := Table.ofFn fun x => if s.freq.entry x = 0 then CodeEntry.zero else CodeEntry.ofCode (c x)
        ring := Table.ofFn fun x =>
          if s.freq.entry x = 0 then RingSlot.zero else { CodeEntry.ofCode (c x) with sym := x } }

/-- R134: "HUFC gives the lone symbol s the one-bit code "0": CODE[s] = (1, 1, "0"), RING[s] = (1, 1, "0", s), NSYM = 1". -/
def Obligations.BuildOfOneSymbol : Prop :=
  ∀ (s : State) (x : Symbol), s.freq.entry x ≠ 0 → (∀ y, y ≠ x → s.freq.entry y = 0) →
    exec .build s = .next { s.succeeded with
      nsym := 1
      code := Table.put (Vector.replicate 256 CodeEntry.zero) x (CodeEntry.ofCode [false])
      ring := Table.put (Vector.replicate 256 RingSlot.zero) x { CodeEntry.ofCode [false] with sym := x } }

/-- R135, R222: ERR_EMPTY "by BUILD when every FREQ entry is 0, and by ENC when SYM_LEN = 0": no code table, ring or
payload is produced. -/
def Obligations.EmptyInputIsAnError : Prop :=
  (∀ s : State, (∀ x, s.freq.entry x = 0) → ∃ n, exec .build s = .next { s.failed .empty 0 n with
    nsym := 0, code := Vector.replicate 256 CodeEntry.zero, ring := Vector.replicate 256 RingSlot.zero }) ∧
  ∀ s : State, s.symLen = 0 → ∃ n d d', FreshDraw s.nextDraw n d ∧ FreshDraw s.nextDraw n d' ∧
    exec .enc s = .next { s.failed .empty 0 n with
      bitLen := 0, pktLen := 0, pad := 0, nsym := 0
      freq := Vector.replicate 256 0
      code := Vector.replicate 256 CodeEntry.zero
      ring := Vector.replicate 256 RingSlot.zero
      bits := Buffer.unspecified d, pkt := Buffer.unspecified d' }

/-- The spec's inference from R132 that closes section 4 of 41_frequency_and_tree.md: every symbol with a count has
exactly one code, the codes are prefix-free, none is empty or longer than NSYM − 1 (or 1), NSYM counts them, and the
ring is the exact inverse of the code table, with no key twice. -/
def Obligations.BuildGivesAPrefixCode : Prop :=
  ∀ s : State, (∃ x, s.freq.entry x ≠ 0) → ∃ t, exec .build s = .next t ∧ t.err = none ∧
    t.nsym.toNat = (allSymbols.filter fun x => decide (s.freq.entry x ≠ 0)).length ∧
    (∀ x, (t.code.entry x).valid = true ↔ s.freq.entry x ≠ 0) ∧ PrefixFree t.code ∧
    (∀ x, (t.code.entry x).valid = true →
      1 ≤ (t.code.entry x).len.toNat ∧ (t.code.entry x).len.toNat ≤ max 1 (t.nsym.toNat - 1)) ∧
    (∀ x, (t.code.entry x).valid = true → t.ring.entry x = { t.code.entry x with sym := x }) ∧
    (∀ x, (t.code.entry x).valid = false → t.ring.entry x = RingSlot.zero) ∧
    ∀ x y, (t.ring.entry x).valid = true → (t.ring.entry y).valid = true →
      (t.ring.entry x).key = (t.ring.entry y).key → x = y

/-- The spec's inference of the code tree (41_frequency_and_tree.md section 4): the codes BUILD writes are exactly the
root paths of the leaves of the tree of its merges. -/
def Obligations.CodesAreThePathsOfTheCodeTree : Prop :=
  ∀ s t : State, exec .build s = .next t → t.err = none → ∃ T, codeTree s.freq = some T ∧
    ∀ x c, (x, c) ∈ T.paths ↔ (t.code.entry x).valid = true ∧ (t.code.entry x).key = c

/-! ### MAP, PACK and ENC (42_map_and_pack.md) -/

/-- R160: MAP writes the concatenation of the message's codes to BITS, exactly its bytes, and its length to BIT_LEN; or
ends with ERR_CAP(1), or at the first symbol where it happens with ERR_NOCODE(i) or ERR_CAP(2). -/
def Obligations.MapConcatenatesTheCodes : Prop :=
  decode 0x0000_0012#32 = .ok .map ∧
  ∀ s : State,
    let total := fun (m : List Symbol) => (m.map fun x => (s.code.entry x).len.toNat).sum
    let fails := fun (e : CmdError) (info : Word) => ∃ n d, FreshDraw s.nextDraw n d ∧
      exec .map s = .next { s.failed e info n with bitLen := 0, bits := Buffer.unspecified d }
    (s.params.symCap < s.symLen.toNat → fails .cap 1) ∧
    (s.symLen.toNat ≤ s.params.symCap →
      ((∀ x ∈ s.message, (s.code.entry x).valid = true) → total s.message ≤ s.params.bitCap →
        ∃ b : Buffer,
          bitsOf b.read (total s.message) = (s.message.map fun x => (s.code.entry x).key).flatten ∧
          (∀ j, total s.message ≤ j → j < 8 * bytesFor (total s.message) → bitAt b.read j = false) ∧
          (∀ k, bytesFor (total s.message) ≤ k → b.read k = s.bits.read k) ∧
          exec .map s = .next { s.succeeded with bits := b, bitLen := BitVec.ofNat 32 (total s.message) }) ∧
      ∀ (p r : List Symbol) (x : Symbol), s.message = p ++ x :: r → (∀ y ∈ p, (s.code.entry y).valid = true) →
        total p ≤ s.params.bitCap →
          ((s.code.entry x).valid = false → fails .noCode (BitVec.ofNat 32 p.length)) ∧
          ((s.code.entry x).valid = true → s.params.bitCap < total (p ++ [x]) → fails .cap 2))

/-- R161: PACK writes the pad length and then the bitstring followed by that many 0 bits, exactly those bytes, and sets
PKT_LEN and PAD; BIT_LEN > BIT_CAP is ERR_CAP(2). -/
def Obligations.PackWritesThePacket : Prop :=
  decode 0x0000_0013#32 = .ok .pack ∧
  ∀ s : State,
    let L := s.bitLen.toNat
    let pad := (8 - L % 8) % 8
    let nb := (L + pad) / 8
    (L ≤ s.params.bitCap → ∃ b : Buffer,
      (b.read 0).toNat = pad ∧
      bitsOf (fun k => b.read (1 + k)) (8 * nb) = s.bitstring ++ List.replicate pad false ∧
      (∀ k, 1 + nb ≤ k → b.read k = s.pkt.read k) ∧
      exec .pack s = .next { s.succeeded with
        pkt := b, pktLen := BitVec.ofNat 32 (1 + nb), pad := BitVec.ofNat 3 pad }) ∧
    (s.params.bitCap < L → ∃ n d, FreshDraw s.nextDraw n d ∧
      exec .pack s = .next { s.failed .cap 2 n with pktLen := 0, pad := 0, pkt := Buffer.unspecified d })

/-- R162: pad is in 0..7, "the least number of bits that makes the total a multiple of 8", and has the values of the
table. -/
def Obligations.PadArithmetic : Prop :=
  (∀ L, padOf L ≤ 7 ∧ (L + padOf L) % 8 = 0 ∧ ∀ p, (L + p) % 8 = 0 → padOf L ≤ p) ∧
  (List.range 8).map padOf = [0, 7, 6, 5, 4, 3, 2, 1]

/-- R163: ENC runs the bodies of HIST, BUILD, MAP and PACK on a message of 1 to SYM_CAP symbols and succeeds when the
bitstring fits; otherwise ERR_CAP(2), and before that ERR_CAP(1) or ERR_EMPTY(0), each with every output cleared. -/
def Obligations.EncCompressesTheMessage : Prop :=
  decode 0x0000_001F#32 = .ok .enc ∧
  ∀ s : State, s.params.wf = true →
    let f := countSymbols s.message
    let c := buildCodes f
    let b := s.message.flatMap c
    let fails := fun (e : CmdError) (info : Word) =>
      ∃ n d d', FreshDraw s.nextDraw n d ∧ FreshDraw s.nextDraw n d' ∧
        exec .enc s = .next { s.failed e info n with
          bitLen := 0, pktLen := 0, pad := 0, nsym := 0
          freq := Vector.replicate 256 0
          code := Vector.replicate 256 CodeEntry.zero
          ring := Vector.replicate 256 RingSlot.zero
          bits := Buffer.unspecified d, pkt := Buffer.unspecified d' }
    (s.params.symCap < s.symLen.toNat → fails .cap 1) ∧
    (s.symLen = 0 → fails .empty 0) ∧
    (0 < s.symLen.toNat → s.symLen.toNat ≤ s.params.symCap →
      (s.params.bitCap < b.length → fails .cap 2) ∧
      (b.length ≤ s.params.bitCap → ∃ bits pkt : Buffer,
        bits.Extended s.bits (bytesOf b) ∧ pkt.Extended s.pkt (BitVec.ofNat 8 (padOf b.length) :: bytesOf b) ∧
        exec .enc s = .next { s.succeeded with
          freq := f
          nsym := BitVec.ofNat 9 (allSymbols.filter fun x => decide (x ∈ s.message)).length
          code := Table.ofFn fun x => if x ∈ s.message then CodeEntry.ofCode (c x) else CodeEntry.zero
          ring := Table.ofFn fun x => if x ∈ s.message then { CodeEntry.ofCode (c x) with sym := x } else RingSlot.zero
          bits := bits, bitLen := BitVec.ofNat 32 b.length
          pkt := pkt, pktLen := BitVec.ofNat 32 (1 + bytesFor b.length), pad := BitVec.ofNat 3 (padOf b.length) }))

/-- The spec's inference of 42_map_and_pack.md section 3: ENC succeeds with a state exactly when HIST, BUILD, MAP and PACK
in sequence all succeed and leave that state. -/
def Obligations.EncEqualsTheFourCommands : Prop :=
  ∀ s t : State, (exec .enc s = .next t ∧ t.err = none) ↔
    ∃ t1 t2 t3, exec .hist s = .next t1 ∧ t1.err = none ∧ exec .build t1 = .next t2 ∧ t2.err = none ∧
      exec .map t2 = .next t3 ∧ t3.err = none ∧ exec .pack t3 = .next t ∧ t.err = none

/-- The spec's inference of the sizes after a successful ENC (42_map_and_pack.md section 3), and that the payload bytes are
the BITS bytes (30_encoding.md section 2). -/
def Obligations.EncSizes : Prop :=
  ∀ s t : State, s.params.wf = true → exec .enc s = .next t → t.err = none →
    t.bitLen.toNat = (allSymbols.map fun x => (t.freq.entry x).toNat * (t.code.entry x).len.toNat).sum ∧
    s.symLen.toNat ≤ t.bitLen.toNat ∧ t.pktLen.toNat = 1 + (t.bitLen.toNat + 7) / 8 ∧ 2 ≤ t.pktLen.toNat ∧
    (t.bitLen.toNat + t.pad.toNat) % 8 = 0 ∧ (t.pkt.read 0).toNat = t.pad.toNat ∧
    ∀ k, k < (t.bitLen.toNat + 7) / 8 → t.pkt.read (1 + k) = t.bits.read k

/-! ### UNPACK, WALK and DEC (43_unpack_and_walk.md) -/

/-- R190: UNPACK reads the pad length, drops that many bits unseen, and writes the others to BITS, the unused bits of the
last byte 0, and BIT_LEN and PAD; its errors in the order of R190. -/
def Obligations.UnpackDropsThePadBits : Prop :=
  decode 0x0000_0020#32 = .ok .unpack ∧
  ∀ s : State, s.params.wf = true →
    let m := s.pktLen.toNat
    let pad := (s.pkt.read 0).toNat
    let L := 8 * (m - 1) - pad
    let fails := fun (e : CmdError) (info : Word) => ∃ n d, FreshDraw s.nextDraw n d ∧
      exec .unpack s = .next { s.failed e info n with bitLen := 0, pad := 0, bits := Buffer.unspecified d }
    (s.params.pktCap < m → fails .cap 3) ∧
    (m = 0 → fails .pad 0xFFFF_FFFF) ∧
    (1 ≤ m → m ≤ s.params.pktCap →
      (7 < pad ∨ 8 * (m - 1) < pad → fails .pad ((s.pkt.read 0).zeroExtend 32)) ∧
      (pad ≤ 7 → pad ≤ 8 * (m - 1) → ∃ b : Buffer,
        (∀ j < L, bitAt b.read j = ((s.pkt.read (1 + j / 8)) >>> (7 - j % 8)).getLsbD 0) ∧
        (∀ j, L ≤ j → j < 8 * bytesFor L → bitAt b.read j = false) ∧
        (∀ k, bytesFor L ≤ k → b.read k = s.bits.read k) ∧
        exec .unpack s = .next { s.succeeded with
          bits := b, bitLen := BitVec.ofNat 32 L, pad := BitVec.ofNat 3 pad }))

/-- R192: `match(acc)` is the least valid slot whose key equals the accumulator; there is none when no slot holds it. -/
def Obligations.MatchIsTheLeastHolder : Prop :=
  ∀ (ring : Table RingSlot) (acc : BitString),
    (∀ k, matchSlot ring acc = some k ↔ (ring.entry k).valid = true ∧ (ring.entry k).len.toNat = acc.length ∧
      (∀ i (h : i < acc.length), bitAt (fun o => (ring.entry k).bits.toList.getD o 0) i = acc[i]) ∧
      ∀ j, j < k → ¬ ((ring.entry j).valid = true ∧ (ring.entry j).key = acc)) ∧
    (matchSlot ring acc = none ↔ NoHolder ring acc)

/-- R191: WALK decodes exactly the bitstrings that are sequences of whole codes, read greedily, and writes their symbols;
a bitstring that ends inside a code is ERR_DECODE at the index where that code began; a symbol too many is ERR_CAP(4),
BIT_LEN > BIT_CAP is ERR_CAP(2). -/
def Obligations.WalkDecodesWholeCodes : Prop :=
  decode 0x0000_0021#32 = .ok .walk ∧
  ∀ s : State,
    let fails := fun (e : CmdError) (info : Word) => ∃ n d, FreshDraw s.nextDraw n d ∧
      exec .walk s = .next { s.failed e info n with symLen := 0, sym := Buffer.unspecified d }
    (s.params.bitCap < s.bitLen.toNat → fails .cap 2) ∧
    (s.bitLen.toNat ≤ s.params.bitCap →
      (∀ xs, Parses s.ring s.bitstring xs → xs.length ≤ s.params.symCap → ∃ b : Buffer, b.Extended s.sym xs ∧
        exec .walk s = .next { s.succeeded with sym := b, symLen := BitVec.ofNat 32 xs.length }) ∧
      (∀ start xs, start < s.bitLen.toNat → Parses s.ring (s.bitstring.take start) xs → xs.length ≤ s.params.symCap →
        (∀ p, p <+: s.bitstring.drop start → p ≠ [] → NoHolder s.ring p) → fails .decode (BitVec.ofNat 32 start)) ∧
      (∀ start xs c k, Parses s.ring (s.bitstring.take start) xs → xs.length = s.params.symCap →
        c <+: s.bitstring.drop start → ShortestMatch s.ring c k → fails .cap 4) ∧
      ∀ t, exec .walk s = .next t → t.err = none → Parses s.ring s.bitstring t.message)

/-- R193: the 255-bit accumulator "gives the same result as the document's unbounded accumulator". -/
def Obligations.AccumulatorLimitChangesNothing : Prop :=
  ∀ (ring : Table RingSlot) (symCap : Nat) (b : BitString),
    walkLoop ring symCap [] 0 0 [] b = walkUnbounded ring symCap [] 0 0 [] b

/-- The spec's inference of 43_unpack_and_walk.md section 4: WALK is the walk of the trie of the ring's keys. -/
def Obligations.WalkIsTheTrieWalk : Prop :=
  ∀ (ring : Table RingSlot) (symCap : Nat) (b : BitString),
    walkLoop ring symCap [] 0 0 [] b = trieWalk (ringTrie ring) symCap (ringTrie ring) 0 0 0 [] b

/-- R194: DEC unpacks and then decodes; on success it writes BITS, BIT_LEN, PAD, SYM and SYM_LEN, on any error all
three registers are 0 and both buffers unspecified, even if the unpacking had succeeded. -/
def Obligations.DecDecompressesThePacket : Prop :=
  decode 0x0000_002F#32 = .ok .dec ∧
  ∀ s : State, s.params.wf = true →
    let m := s.pktLen.toNat
    let pad := (s.pkt.read 0).toNat
    let L := 8 * (m - 1) - pad
    let b := s.payloadBits L
    let fails := fun (e : CmdError) (info : Word) =>
      ∃ n d d', FreshDraw s.nextDraw n d ∧ FreshDraw s.nextDraw n d' ∧
        exec .dec s = .next { s.failed e info n with
          bitLen := 0, pad := 0, symLen := 0, bits := Buffer.unspecified d, sym := Buffer.unspecified d' }
    (s.params.pktCap < m → fails .cap 3) ∧
    (m = 0 → fails .pad 0xFFFF_FFFF) ∧
    (1 ≤ m → m ≤ s.params.pktCap → 7 < pad ∨ 8 * (m - 1) < pad → fails .pad ((s.pkt.read 0).zeroExtend 32)) ∧
    (1 ≤ m → m ≤ s.params.pktCap → pad ≤ 7 → pad ≤ 8 * (m - 1) →
      (∀ xs, Parses s.ring b xs → xs.length ≤ s.params.symCap → ∃ bits sym : Buffer,
        bits.Extended s.bits (bytesOf b) ∧ sym.Extended s.sym xs ∧
        exec .dec s = .next { s.succeeded with
          bits := bits, bitLen := BitVec.ofNat 32 L, pad := BitVec.ofNat 3 pad
          sym := sym, symLen := BitVec.ofNat 32 xs.length }) ∧
      (∀ start xs, start < L → Parses s.ring (b.take start) xs → xs.length ≤ s.params.symCap →
        (∀ p, p <+: b.drop start → p ≠ [] → NoHolder s.ring p) → fails .decode (BitVec.ofNat 32 start)) ∧
      ∀ start xs c k, Parses s.ring (b.take start) xs → xs.length = s.params.symCap →
        c <+: b.drop start → ShortestMatch s.ring c k → fails .cap 4)

/-- "When DEC succeeds its result equals `run UNPACK; run WALK`" (R194), and DEC fails with the error of whichever of the
two fails first. -/
def Obligations.DecEqualsUnpackThenWalk : Prop :=
  ∀ s t t1 t2 : State, s.params.wf = true → exec .dec s = .next t → exec .unpack s = .next t1 →
    exec .walk t1 = .next t2 →
      (t1.err ≠ none → t.err = t1.err ∧ t.errinfo = t1.errinfo) ∧
      (t1.err = none → t2.err ≠ none → t.err = t2.err ∧ t.errinfo = t2.errinfo) ∧
      (t1.err = none → t2.err = none → t = t2) ∧ (t.err = none → t1.err = none ∧ t2.err = none)

/-! ### Guaranteed properties (43_unpack_and_walk.md section 5, the spec's inferences) -/

/-- "Round-trip, no transform": if HIST, BUILD and MAP all succeed then WALK gives the message back. -/
def Obligations.RoundTripOfBits : Prop :=
  ∀ s t1 t2 t3 : State, s.params.wf = true → exec .hist s = .next t1 → t1.err = none → exec .build t1 = .next t2 →
    t2.err = none → exec .map t2 = .next t3 → t3.err = none →
      ∃ t, exec .walk t3 = .next t ∧ t.err = none ∧ t.symLen = s.symLen ∧ t.message = s.message

/-- `decompress(compress(message)) == message`: if ENC succeeds then DEC, from any state with that packet, ring and
parameters, gives back the message, BIT_LEN, PAD and the BITS extent. -/
def Obligations.RoundTripOfPackets : Prop :=
  ∀ s t u : State, s.params.wf = true → exec .enc s = .next t → t.err = none → u.params = t.params → u.ring = t.ring →
    u.pktLen = t.pktLen → (∀ k < t.pktLen.toNat, u.pkt.read k = t.pkt.read k) →
      ∃ v, exec .dec u = .next v ∧ v.err = none ∧ v.symLen = s.symLen ∧ v.message = s.message ∧
        v.bitLen = t.bitLen ∧ v.pad = t.pad ∧ ∀ k < bytesFor t.bitLen.toNat, v.bits.read k = t.bits.read k

/-- "Encoding a message of one repeated byte … yields a non-empty code for that byte and decodes back to the original
message": the code is "0", and the bitstring one 0 bit per symbol. -/
def Obligations.OneRepeatedByte : Prop :=
  ∀ (s : State) (x : Symbol), s.params.wf = true → 0 < s.symLen.toNat → s.symLen.toNat ≤ s.params.symCap →
    s.symLen.toNat ≤ s.params.bitCap → (∀ y ∈ s.message, y = x) →
      ∃ t v, exec .enc s = .next t ∧ t.err = none ∧ t.code.entry x = CodeEntry.ofCode [false] ∧
        t.bitstring = List.replicate s.symLen.toNat false ∧ t.bitLen = s.symLen ∧
        exec .dec t = .next v ∧ v.err = none ∧ v.message = s.message

/-! ### Host access (20_memory.md, 30_encoding.md) -/

/-- R60: the address map, every range. -/
def Obligations.AddressMapIsAsListed : Prop :=
  ∀ p : Params, p.wf = true →
    (locate p 0x00 = .register .cmd ∧ locate p 0x04 = .register .status ∧ locate p 0x08 = .register .errinfo ∧
      locate p 0x0C = .register .symLen ∧ locate p 0x10 = .register .bitLen ∧ locate p 0x14 = .register .pktLen ∧
      locate p 0x18 = .register .pad ∧ locate p 0x1C = .register .nsym) ∧
    (∀ r : RegName, locate p r.offset = .register r) ∧
    (∀ x : Symbol, locate p (0x0400 + 4 * x.toNat) = .freq x) ∧
    (∀ (x : Symbol) (o : Nat), o < 64 → locate p (0x4000 + 64 * x.toNat + o) = .code x o) ∧
    (∀ (k : Symbol) (o : Nat), o < 64 → locate p (0x8000 + 64 * k.toNat + o) = .ring k o) ∧
    (∀ i < p.symCap, locate p (0x100000 + i) = .sym i) ∧
    (∀ i < p.pktCap, locate p (0x200000 + i) = .pkt i) ∧
    (∀ i < p.bitCap / 8, locate p (0x400000 + i) = .bits i) ∧
    ∀ a, (0x20 ≤ a ∧ a ≤ 0x3FF) ∨ (0x800 ≤ a ∧ a ≤ 0x3FFF) ∨ (0xC000 ≤ a ∧ a ≤ 0xFFFFF) ∨
      (0x100000 + p.symCap ≤ a ∧ a ≤ 0x1FFFFF) ∨ (0x200000 + p.pktCap ≤ a ∧ a ≤ 0x3FFFFF) ∨
      (0x400000 + p.bitCap / 8 ≤ a ∧ a ≤ 0x7FFFFF) → locate p a = .reserved

/-- R66: a read, of any address, is free of side effects and idempotent: the host gets what stands at the address, and
reading the same address next gives the same value again. A CMD read and a read of a reserved range return 0 (R21, R61);
what the other locations hold is said by `HostReadReturnsTheContents`. -/
def Obligations.ReadsHaveNoSideEffect : Prop :=
  ∀ (s : State) (a : Addr) (n : Nat) (es : List Event), s.busy = false → ¬ Malformed a.toNat n →
    s.script = .access (.read a n) :: .access (.read a n) :: es →
      let v := s.locRead (locate s.params a.toNat)
      ∃ t, step s = .next t ∧ t = { s with script := .access (.read a n) :: es, reads := s.reads ++ [v] } ∧
        step t = .next { s with script := es, reads := s.reads ++ [v, v] } ∧
        (locate s.params a.toNat = .reserved ∨ a = 0 → v = 0)

/-- R66, R96: a write to a writable location is read back from it (a RING record's FLAGS byte keeps bit 0 only), and no
other location changes. A byte location takes the low byte of the data (notes/assumptions/12.md). -/
def Obligations.WriteIsReadBackAndNothingElseChanges : Prop :=
  ∀ (s : State) (v : Word),
    (∀ r ∈ [RegName.symLen, .bitLen, .pktLen], (s.locWrite v (.register r)).locRead (.register r) = v) ∧
    (∀ i, (s.locWrite v (.sym i)).locRead (.sym i) = v &&& 0xFF ∧ (s.locWrite v (.pkt i)).locRead (.pkt i) = v &&& 0xFF ∧
      (s.locWrite v (.bits i)).locRead (.bits i) = v &&& 0xFF) ∧
    (∀ k o, o = 0 ∨ o = 1 ∨ (4 ≤ o ∧ o ≤ 35) → (s.locWrite v (.ring k o)).locRead (.ring k o) = v &&& 0xFF) ∧
    (∀ k, (s.locWrite v (.ring k 2)).locRead (.ring k 2) = v &&& 1) ∧
    (∀ k o, o = 3 ∨ 36 ≤ o → (s.locWrite v (.ring k o)).locRead (.ring k o) = 0) ∧
    ∀ l l', l' ≠ l → (s.locWrite v l).locRead l' = s.locRead l'

/-- R66, R61: "A write to a read-only location (STATUS, ERRINFO, PAD, NSYM, FREQ, CODE) has no effect and raises no
error", and so for a reserved range and a reserved byte of a RING slot. -/
def Obligations.ReadOnlyLocationsIgnoreWrites : Prop :=
  ∀ (s : State) (a : Addr) (n : Nat) (v : Word) (es : List Event), s.busy = false → ¬ Malformed a.toNat n →
    s.script = .access (.write a n v) :: es →
    (∃ r ∈ [RegName.status, .errinfo, .pad, .nsym], locate s.params a.toNat = .register r) ∨
      (∃ x, locate s.params a.toNat = .freq x) ∨ (∃ x o, locate s.params a.toNat = .code x o) ∨
      locate s.params a.toNat = .reserved ∨ (∃ k o, (o = 3 ∨ 36 ≤ o) ∧ locate s.params a.toNat = .ring k o) →
    step s = .next { s with script := es }

/-- R63: a malformed access has no meaning and is refused: words only up to 0x7FF, bytes only above (R62, D25). -/
def Obligations.MalformedAccessIsRefused : Prop :=
  ∀ (s : State) (a : Addr) (n : Nat) (v : Word) (es : List Event), s.busy = false → Malformed a.toNat n →
    s.script = .access (.read a n) :: es ∨ s.script = .access (.write a n v) :: es →
      step s = .refused .malformedAccess

/-- R103: the transactions of `ring k, s, "c"` load slot k with the mapping c ↦ s and change no other slot, whatever the
slot held before. -/
def Obligations.RingLineLoadsASlot : Prop :=
  ∀ (s : State) (k x : Symbol) (c : BitString) (es : List Event), s.busy = false → c.length ≤ 255 →
    s.script = (ScriptLine.ring k x c).events ++ es →
      ∃ r : Table RingSlot,
        Sys2Proof.core.run (ScriptLine.ring k x c).events.length s = .next { s with script := es, ring := r } ∧
        (r.entry k).valid = true ∧ (r.entry k).key = c ∧ (r.entry k).sym = x ∧
        ∀ j, j ≠ k → r.entry j = s.ring.entry j

/-- R103: the transactions of `load SYM`, `load PKT` and `load BITS` leave the buffer holding the data and its length
register the length. -/
def Obligations.LoadLinesSetTheInputs : Prop :=
  (∀ (s : State) (bs : List Byte) (es : List Event), s.busy = false → s.params.wf = true →
    bs.length ≤ s.params.symCap → s.script = (ScriptLine.loadSym bs).events ++ es →
      ∃ b : Buffer, b.Extended s.sym bs ∧ Sys2Proof.core.run (ScriptLine.loadSym bs).events.length s =
        .next { s with script := es, sym := b, symLen := BitVec.ofNat 32 bs.length }) ∧
  (∀ (s : State) (bs : List Byte) (es : List Event), s.busy = false → s.params.wf = true →
    bs.length ≤ s.params.pktCap → s.script = (ScriptLine.loadPkt bs).events ++ es →
      ∃ b : Buffer, b.Extended s.pkt bs ∧ Sys2Proof.core.run (ScriptLine.loadPkt bs).events.length s =
        .next { s with script := es, pkt := b, pktLen := BitVec.ofNat 32 bs.length }) ∧
  ∀ (s : State) (c : BitString) (es : List Event), s.busy = false → s.params.wf = true →
    c.length ≤ s.params.bitCap → s.script = (ScriptLine.loadBits c).events ++ es →
      ∃ b : Buffer, b.Extended s.bits (bytesOf c) ∧ Sys2Proof.core.run (ScriptLine.loadBits c).events.length s =
        .next { s with script := es, bits := b, bitLen := BitVec.ofNat 32 c.length }

/-- What each read of an idle block returns, address by address: the registers (10_state.md R21 to R28), the FREQ words
(R99), the 64 bytes of a CODE entry and of a RING slot (R96), the buffers' bytes, and 0 in a reserved range (R61). A read
adds the value to what the host has read and changes nothing else (R66). -/
def Obligations.HostReadReturnsTheContents : Prop :=
  ∀ (s : State) (es : List Event), s.busy = false → s.params.wf = true →
    let reads := fun (a n : Nat) (v : Word) => s.script = .access (.read (BitVec.ofNat 23 a) n) :: es →
      step s = .next { s with script := es, reads := s.reads ++ [v] }
    let record := fun (E : Nat) (e : CodeEntry) (x : Byte) =>
      reads E 1 (e.len.zeroExtend 32) ∧ reads (E + 1) 1 (x.zeroExtend 32) ∧
      reads (E + 2) 1 (if e.valid then 1 else 0) ∧ reads (E + 3) 1 0 ∧
      (∀ i : Fin 32, reads (E + 4 + i.val) 1 (e.bits[i].zeroExtend 32)) ∧ ∀ o, 36 ≤ o → o < 64 → reads (E + o) 1 0
    reads 0x00 4 0 ∧
    (∀ v : Word, v.toNat = 2 * s.done.toNat + 16 * errNumber s.err → reads 0x04 4 v) ∧
    reads 0x08 4 s.errinfo ∧ reads 0x0C 4 s.symLen ∧ reads 0x10 4 s.bitLen ∧ reads 0x14 4 s.pktLen ∧
    reads 0x18 4 (s.pad.zeroExtend 32) ∧ reads 0x1C 4 (s.nsym.zeroExtend 32) ∧
    (∀ x : Symbol, reads (0x0400 + 4 * x.toNat) 4 (s.freq.entry x)) ∧
    (∀ x : Symbol, record (0x4000 + 64 * x.toNat) (s.code.entry x) 0) ∧
    (∀ k : Symbol, record (0x8000 + 64 * k.toNat) (s.ring.entry k).toCodeEntry (s.ring.entry k).sym) ∧
    (∀ i < s.params.symCap, reads (0x100000 + i) 1 ((s.sym.read i).zeroExtend 32)) ∧
    (∀ i < s.params.pktCap, reads (0x200000 + i) 1 ((s.pkt.read i).zeroExtend 32)) ∧
    (∀ i < s.params.bitCap / 8, reads (0x400000 + i) 1 ((s.bits.read i).zeroExtend 32)) ∧
    ∀ a n, a < 0x800000 → ¬ Malformed a n → locate s.params a = .reserved → reads a n 0

/-- A well-shaped write to an idle block, not to CMD, is one step that stores its data and does nothing else (R66): the
step is the `locWrite` of `WriteIsReadBackAndNothingElseChanges` at the location of the address, and what a write to each
writable register, buffer byte and RING byte leaves is written out. A byte location takes the low byte of the data (notes/assumptions/12.md). -/
def Obligations.HostWriteStoresItsData : Prop :=
  ∀ (s : State) (a : Addr) (n : Nat) (v : Word) (es : List Event), s.busy = false → s.params.wf = true →
    ¬ Malformed a.toNat n → a ≠ 0 → s.script = .access (.write a n v) :: es →
      step s = .next (({ s with script := es } : State).locWrite v (locate s.params a.toNat)) ∧
      (a = 0x0C → step s = .next { s with script := es, symLen := v }) ∧
      (a = 0x10 → step s = .next { s with script := es, bitLen := v }) ∧
      (a = 0x14 → step s = .next { s with script := es, pktLen := v }) ∧
      (∀ i < s.params.symCap, a.toNat = 0x100000 + i → ∃ b : Buffer, b.read i = v.setWidth 8 ∧
        (∀ k, k ≠ i → b.read k = s.sym.read k) ∧ step s = .next { s with script := es, sym := b }) ∧
      (∀ i < s.params.pktCap, a.toNat = 0x200000 + i → ∃ b : Buffer, b.read i = v.setWidth 8 ∧
        (∀ k, k ≠ i → b.read k = s.pkt.read k) ∧ step s = .next { s with script := es, pkt := b }) ∧
      (∀ i < s.params.bitCap / 8, a.toNat = 0x400000 + i → ∃ b : Buffer, b.read i = v.setWidth 8 ∧
        (∀ k, k ≠ i → b.read k = s.bits.read k) ∧ step s = .next { s with script := es, bits := b }) ∧
      ∀ (k : Symbol) (o : Nat), o < 64 → a.toNat = 0x8000 + 64 * k.toNat + o → ∃ r : Table RingSlot,
        (∀ j, j ≠ k → r.entry j = s.ring.entry j) ∧ step s = .next { s with script := es, ring := r } ∧
        (r.entry k).len = (if o = 0 then v.setWidth 8 else (s.ring.entry k).len) ∧
        (r.entry k).sym = (if o = 1 then v.setWidth 8 else (s.ring.entry k).sym) ∧
        (r.entry k).valid = (if o = 2 then v.getLsbD 0 else (s.ring.entry k).valid) ∧
        ∀ i : Fin 32, (r.entry k).bits[i] = if o = 4 + i.val then v.setWidth 8 else (s.ring.entry k).bits[i]
end

