-- ==== Sys2Proof/Laws/Memory.lean ====
section
/-! SUPPORT. The laws of memory and buffers: a read after a write, what a write leaves alone, the canonical form. -/

namespace Sys2Proof.Machine

/-! ### Memory -/

@[simp] theorem Memory.read?_nil (a : Nat) : Memory.read? [] a = none := rfl

theorem Memory.read?_cons (k : Nat) (v : Byte) (m : Memory) (a : Nat) :
    Memory.read? ((k, v) :: m) a = if k = a then some v else Memory.read? m a := rfl

/-- The value just written is read back. -/
@[simp] theorem Memory.read?_write_self (m : Memory) (a : Nat) (b : Byte) : Memory.read? (Memory.write m a b) a = some b := by
  induction m with
  | nil => simp [Memory.write, Memory.read?]
  | cons x m ih =>
    obtain ⟨k, v⟩ := x
    simp only [Memory.write]
    split
    · simp [Memory.read?]
    · split
      · simp [Memory.read?]
      · rw [Memory.read?_cons, if_neg (by omega), ih]

/-- A write leaves every other address alone. -/
theorem Memory.read?_write_other (m : Memory) {a a' : Nat} (b : Byte) (h : a' ≠ a) :
    Memory.read? (Memory.write m a b) a' = Memory.read? m a' := by
  induction m with
  | nil => simp [Memory.write, Memory.read?, h.symm]
  | cons x m ih =>
    obtain ⟨k, v⟩ := x
    simp only [Memory.write]
    split
    · rw [Memory.read?_cons, if_neg (by omega)]
    · split
      · rw [Memory.read?_cons, Memory.read?_cons, if_neg (by omega), if_neg (by omega)]
      · rw [Memory.read?_cons, Memory.read?_cons, ih]

/-- A written memory lists the address written and the addresses it listed before. -/
theorem Memory.mem_write (m : Memory) (a : Nat) (b : Byte) {x : Host.Cell} (h : x ∈ Memory.write m a b) :
    x.1 = a ∨ x ∈ m := by
  induction m with
  | nil => simp_all [Memory.write]
  | cons y m ih =>
    obtain ⟨k, v⟩ := y
    simp only [Memory.write] at h
    split at h
    · rcases List.mem_cons.1 h with rfl | h
      · exact .inl rfl
      · exact .inr h
    · split at h
      · rcases List.mem_cons.1 h with rfl | h
        · exact .inl rfl
        · exact .inr (List.mem_cons_of_mem _ h)
      · rcases List.mem_cons.1 h with rfl | h
        · exact .inr List.mem_cons_self
        · exact (ih h).imp_right (List.mem_cons_of_mem _)

/-- A write keeps the canonical form. -/
theorem Memory.wf_write (m : Memory) (a : Nat) (b : Byte) (h : Memory.wf m) : Memory.wf (Memory.write m a b) := by
  induction m with
  | nil => simp [Memory.write, Memory.wf]
  | cons y m ih =>
    obtain ⟨k, v⟩ := y
    obtain ⟨hk, hm⟩ := List.pairwise_cons.1 h
    simp only [Memory.write]
    split
    · refine List.pairwise_cons.2 ⟨fun x hx => ?_, h⟩
      rcases List.mem_cons.1 hx with rfl | hx
      · assumption
      · exact lt_trans ‹a < k› (hk x hx)
    · split
      · subst_vars
        exact List.pairwise_cons.2 ⟨hk, hm⟩
      · refine List.pairwise_cons.2 ⟨fun x hx => ?_, ih hm⟩
        rcases Memory.mem_write m a b hx with h1 | h1
        · simp only [h1]; omega
        · exact hk x h1

/-- An address below all listed ones has no value. -/
theorem Memory.read?_eq_none_of_lt (m : Memory) (a : Nat) (h : ∀ x ∈ m, a < x.1) : Memory.read? m a = none := by
  induction m with
  | nil => rfl
  | cons y m ih =>
    obtain ⟨k, v⟩ := y
    have hk : a < k := h (k, v) List.mem_cons_self
    rw [Memory.read?_cons, if_neg (by omega)]
    exact ih fun x hx => h x (List.mem_cons_of_mem _ hx)

/-- Equal memories are equal data: canonical memories with the same written bytes are the same list. -/
theorem Memory.ext_of_wf {m m' : Memory} (h : Memory.wf m) (h' : Memory.wf m')
    (heq : ∀ a, Memory.read? m a = Memory.read? m' a) : m = m' := by
  induction m generalizing m' with
  | nil =>
    cases m' with
    | nil => rfl
    | cons y _ => simpa [Memory.read?] using heq y.1
  | cons x m ih =>
    obtain ⟨k, v⟩ := x
    obtain ⟨hk, hm⟩ := List.pairwise_cons.1 h
    cases m' with
    | nil => simpa [Memory.read?] using heq k
    | cons y m' =>
      obtain ⟨k', v'⟩ := y
      obtain ⟨hk', hm'⟩ := List.pairwise_cons.1 h'
      have e1 := heq k
      have e2 := heq k'
      simp only [Memory.read?_cons, if_pos] at e1 e2
      have hkk : k = k' := by
        rcases lt_trichotomy k k' with hlt | he | hlt
        · rw [if_neg (by omega), Memory.read?_eq_none_of_lt m' k fun x hx => lt_trans hlt (hk' x hx)] at e1
          cases e1
        · exact he
        · rw [if_neg (by omega), Memory.read?_eq_none_of_lt m k' fun x hx => lt_trans hlt (hk x hx)] at e2
          cases e2
      subst hkk
      rw [if_pos rfl] at e1
      obtain rfl := Option.some.inj e1
      rw [ih hm hm' fun a => ?_]
      have ea := heq a
      simp only [Memory.read?_cons] at ea
      split at ea
      · subst_vars
        rw [Memory.read?_eq_none_of_lt m _ hk, Memory.read?_eq_none_of_lt m' _ hk']
      · exact ea

/-! ### Buffers -/

@[simp] theorem Buffer.write_draw (b : Buffer) (i : Nat) (v : Byte) : (b.write i v).draw = b.draw := rfl

@[simp] theorem Buffer.write_cells (b : Buffer) (i : Nat) (v : Byte) :
    (b.write i v).cells = Memory.write b.cells i v := rfl

@[simp] theorem Buffer.unspecified_draw (d : Nat) : (Buffer.unspecified d).draw = d := rfl

@[simp] theorem Buffer.unspecified_cells (d : Nat) : (Buffer.unspecified d).cells = [] := rfl

/-- Every byte of a buffer whose contents are unspecified is a free value. -/
@[simp] theorem Buffer.read_unspecified (d i : Nat) : (Buffer.unspecified d).read i = Config.freeByte d i := rfl

@[simp] theorem Buffer.read_write_self (b : Buffer) (i : Nat) (v : Byte) : (b.write i v).read i = v := by
  simp [Buffer.read]

theorem Buffer.read_write_other (b : Buffer) {i j : Nat} (v : Byte) (h : j ≠ i) : (b.write i v).read j = b.read j := by
  simp [Buffer.read, Memory.read?_write_other _ _ h]

@[simp] theorem Buffer.writeFrom_nil (b : Buffer) (i : Nat) : b.writeFrom i [] = b := rfl

@[simp] theorem Buffer.writeFrom_cons (b : Buffer) (i : Nat) (v : Byte) (vs : List Byte) :
    b.writeFrom i (v :: vs) = (b.write i v).writeFrom (i + 1) vs := rfl

@[simp] theorem Buffer.writeFrom_draw (b : Buffer) (i : Nat) (vs : List Byte) : (b.writeFrom i vs).draw = b.draw := by
  induction vs generalizing b i with
  | nil => rfl
  | cons v vs ih => simp [ih]

/-- Everything below the extent is as before. -/
theorem Buffer.read_writeFrom_below (b : Buffer) (vs : List Byte) {i j : Nat} (h : j < i) :
    (b.writeFrom i vs).read j = b.read j := by
  induction vs generalizing b i with
  | nil => rfl
  | cons v vs ih => rw [Buffer.writeFrom_cons, ih _ (by omega), Buffer.read_write_other _ _ (by omega)]

/-- Everything above the extent is as before. -/
theorem Buffer.read_writeFrom_above (b : Buffer) (vs : List Byte) {i j : Nat} (h : i + vs.length ≤ j) :
    (b.writeFrom i vs).read j = b.read j := by
  induction vs generalizing b i with
  | nil => rfl
  | cons v vs ih =>
    simp only [List.length_cons] at h
    rw [Buffer.writeFrom_cons, ih _ (by omega), Buffer.read_write_other _ _ (by omega)]

/-- The extent holds the bytes written. -/
theorem Buffer.read_writeFrom (b : Buffer) (vs : List Byte) (i k : Nat) (h : k < vs.length) :
    (b.writeFrom i vs).read (i + k) = vs[k] := by
  induction vs generalizing b i k with
  | nil => cases h
  | cons v vs ih =>
    rw [Buffer.writeFrom_cons]
    cases k with
    | zero => simpa using (Buffer.read_writeFrom_below (b.write i v) vs (Nat.lt_succ_self i))
    | succ k =>
      have := ih (b.write i v) (i + 1) k (by simpa using h)
      rw [show i + (k + 1) = i + 1 + k by omega, this]; rfl

/-- Writing from index 0 is an extension of the old contents: the extent rule of 20_memory.md R68. -/
theorem Buffer.extended_writeFrom (b : Buffer) (vs : List Byte) : (b.writeFrom 0 vs).Extended b vs :=
  ⟨fun k h => by simpa using b.read_writeFrom vs 0 k h, fun k h => b.read_writeFrom_above vs (by omega)⟩

/-! ### Canonical form and range -/

theorem Buffer.Fits.unspecified (d cap : Nat) : (Buffer.unspecified d).Fits cap := by
  simp [Buffer.Fits, Memory.wf]

theorem Buffer.Fits.write {b : Buffer} {cap i : Nat} (h : b.Fits cap) (v : Byte) (hi : i < cap) :
    (b.write i v).Fits cap := by
  refine ⟨Memory.wf_write _ _ _ h.1, fun x hx => ?_⟩
  rcases Memory.mem_write _ _ _ hx with h1 | h1
  · omega
  · exact h.2 x h1

theorem Buffer.Fits.writeFrom {b : Buffer} {cap i : Nat} (h : b.Fits cap) (vs : List Byte) (hi : i + vs.length ≤ cap) :
    (b.writeFrom i vs).Fits cap := by
  induction vs generalizing b i with
  | nil => exact h
  | cons v vs ih =>
    simp only [List.length_cons] at hi
    exact ih (h.write v (by omega)) (by omega)

end Sys2Proof.Machine
end

