-- ==== Sys2Proof/Laws/Bits.lean ====
section
/-! SUPPORT. The laws of bit strings in bytes (20_memory.md R64): what a packed byte and a packed extent hold. -/

namespace Sys2Proof.Machine

/-- The byte whose bits, from the most significant down, are the eight given ones. -/
theorem getLsbD_ofNat_eight_bits : ∀ b0 b1 b2 b3 b4 b5 b6 b7 : Bool, ∀ r < 8,
    (BitVec.ofNat 8 (b0.toNat * 128 + b1.toNat * 64 + b2.toNat * 32 + b3.toNat * 16 + b4.toNat * 8 + b5.toNat * 4 +
      b6.toNat * 2 + b7.toNat)).getLsbD (7 - r) = [b0, b1, b2, b3, b4, b5, b6, b7].getD r false := by
  decide +kernel

/-- Register bit 7 − r of a packed byte is stream bit r. -/
theorem getLsbD_byteOfBits (f : Nat → Bool) {r : Nat} (h : r < 8) : (byteOfBits f).getLsbD (7 - r) = f r := by
  have add : ∀ (v w : Nat) (b : Bool), (if b then v + w else v) = v + b.toNat * w := by
    intro v w b; cases b <;> simp
  have hb : byteOfBits f = BitVec.ofNat 8 ((f 0).toNat * 128 + (f 1).toNat * 64 + (f 2).toNat * 32 +
      (f 3).toNat * 16 + (f 4).toNat * 8 + (f 5).toNat * 4 + (f 6).toNat * 2 + (f 7).toNat) := by
    simp [byteOfBits, show List.range 8 = [0, 1, 2, 3, 4, 5, 6, 7] from rfl, add]
  rw [hb, getLsbD_ofNat_eight_bits _ _ _ _ _ _ _ _ r h]
  interval_cases r <;> rfl

@[simp] theorem length_packBytes (n : Nat) (f : Nat → Bool) : (packBytes n f).length = n := by simp [packBytes]

theorem getElem_packBytes (n : Nat) (f : Nat → Bool) (k : Nat) (h : k < (packBytes n f).length) :
    (packBytes n f)[k] = byteOfBits fun r => f (8 * k + r) := by simp [packBytes]

/-- Bit j of bytes that hold a packed stream is the stream's bit j. -/
theorem bitAt_of_packBytes {A : Nat → Byte} {n : Nat} {f : Nat → Bool}
    (hA : ∀ k (h : k < (packBytes n f).length), A k = (packBytes n f)[k]) {j : Nat} (hj : j < 8 * n) :
    bitAt A j = f j := by
  have hk : j / 8 < (packBytes n f).length := by simp; omega
  rw [bitAt, hA _ hk, getElem_packBytes, getLsbD_byteOfBits _ (Nat.mod_lt _ (by omega))]
  congr 1
  omega

/-- Two bytes with the same stream bits are equal. -/
theorem byte_ext {a b : Byte} (h : ∀ r < 8, a.getLsbD (7 - r) = b.getLsbD (7 - r)) : a = b := by
  apply BitVec.eq_of_getLsbD_eq
  intro i hi
  have := h (7 - i) (by omega)
  rwa [show 7 - (7 - i) = i by omega] at this

@[simp] theorem length_bitsOf (A : Nat → Byte) (n : Nat) : (bitsOf A n).length = n := by simp [bitsOf]

theorem getElem_bitsOf (A : Nat → Byte) (n j : Nat) (h : j < (bitsOf A n).length) : (bitsOf A n)[j] = bitAt A j := by
  simp [bitsOf]

/-- The bits of a stream are the first bits that its bytes hold. -/
theorem bitsOf_eq_iff {A : Nat → Byte} {b : BitString} {n : Nat} (h : b.length = n) :
    bitsOf A n = b ↔ ∀ j (hj : j < b.length), bitAt A j = b[j] := by
  constructor
  · rintro rfl j hj
    exact (getElem_bitsOf A n j hj).symm
  · intro hb
    exact List.ext_getElem (by simp [h]) fun j h1 h2 => by rw [getElem_bitsOf, hb j h2]

/-- Only the bytes that the bits lie in matter. -/
theorem bitsOf_congr {A A' : Nat → Byte} {n : Nat} (h : ∀ k < bytesFor n, A k = A' k) : bitsOf A n = bitsOf A' n := by
  refine List.map_congr_left fun j hj => ?_
  rw [List.mem_range] at hj
  rw [bitAt, bitAt, h]
  simp only [bytesFor]; omega

@[simp] theorem length_bytesOf (b : BitString) : (bytesOf b).length = bytesFor b.length := by simp [bytesOf]

/-- Writing a bit string's bytes and reading as many bits gives it back. -/
theorem bitsOf_of_bytesOf {A : Nat → Byte} {b : BitString}
    (hA : ∀ k (h : k < (bytesOf b).length), A k = (bytesOf b)[k]) : bitsOf A b.length = b := by
  refine (bitsOf_eq_iff rfl).2 fun j hj => ?_
  rw [bitAt_of_packBytes (f := fun j => b.getD j false) hA (by simp only [bytesFor]; omega)]
  simp [hj]

/-- The unused low-order bits of the last byte are 0 (20_memory.md R68). -/
theorem bitAt_unused_of_bytesOf {A : Nat → Byte} {b : BitString}
    (hA : ∀ k (h : k < (bytesOf b).length), A k = (bytesOf b)[k]) {j : Nat} (h1 : b.length ≤ j)
    (h2 : j < 8 * bytesFor b.length) : bitAt A j = false := by
  rw [bitAt_of_packBytes (f := fun j => b.getD j false) hA h2]
  simp [List.getElem?_eq_none h1]

/-! ### The BITS field of a record (30_encoding.md R96) -/

theorem bitAt_bitsField (c : BitString) {j : Nat} (h : j < 256) :
    bitAt (fun k => (bitsField c).toList.getD k 0) j = c.getD j false := by
  refine bitAt_of_packBytes (n := 32) (f := fun j => c.getD j false) (fun k hk => ?_) (by omega)
  change (packBytes 32 fun j => c.getD j false).getD k 0 = _
  rw [List.getD_eq_getElem?_getD, List.getElem?_eq_getElem hk, Option.getD_some]

/-- The key of an entry written by the engine is the code, up to the 255 bits that LEN can count. -/
theorem CodeEntry.key_ofCode {c : BitString} (h : c.length ≤ 255) : (CodeEntry.ofCode c).key = c := by
  have hl : (CodeEntry.ofCode c).len.toNat = c.length := by
    simp only [CodeEntry.ofCode, BitVec.toNat_ofNat]; omega
  rw [CodeEntry.key, hl]
  refine (bitsOf_eq_iff rfl).2 fun j hj => ?_
  rw [show (CodeEntry.ofCode c).bits = bitsField c from rfl, bitAt_bitsField c (by omega)]
  simp [hj]

@[simp] theorem CodeEntry.length_key (e : CodeEntry) : e.key.length = e.len.toNat := by simp [CodeEntry.key]

@[simp] theorem CodeEntry.valid_zero : CodeEntry.zero.valid = false := rfl

@[simp] theorem CodeEntry.valid_ofCode (c : BitString) : (CodeEntry.ofCode c).valid = true := rfl

@[simp] theorem RingSlot.valid_zero : RingSlot.zero.valid = false := rfl

end Sys2Proof.Machine
end

