-- ==== Sys2Proof/Laws/State.lean ====
section
/-! SUPPORT. What each update of the state does to each field, so that no proof unfolds a record update. -/

namespace Sys2Proof.Machine

variable (s : State)

/-! ### `State.ended` -/

@[simp] theorem State.ended_params (e : Option CmdError) (i : Word) : (s.ended e i).params = s.params := rfl
@[simp] theorem State.ended_inFlight (e : Option CmdError) (i : Word) : (s.ended e i).inFlight = none := rfl
@[simp] theorem State.ended_done (e : Option CmdError) (i : Word) : (s.ended e i).done = true := rfl
@[simp] theorem State.ended_err (e : Option CmdError) (i : Word) : (s.ended e i).err = e := rfl
@[simp] theorem State.ended_errinfo (e : Option CmdError) (i : Word) : (s.ended e i).errinfo = i := rfl
@[simp] theorem State.ended_symLen (e : Option CmdError) (i : Word) : (s.ended e i).symLen = s.symLen := rfl
@[simp] theorem State.ended_bitLen (e : Option CmdError) (i : Word) : (s.ended e i).bitLen = s.bitLen := rfl
@[simp] theorem State.ended_pktLen (e : Option CmdError) (i : Word) : (s.ended e i).pktLen = s.pktLen := rfl
@[simp] theorem State.ended_pad (e : Option CmdError) (i : Word) : (s.ended e i).pad = s.pad := rfl
@[simp] theorem State.ended_nsym (e : Option CmdError) (i : Word) : (s.ended e i).nsym = s.nsym := rfl
@[simp] theorem State.ended_freq (e : Option CmdError) (i : Word) : (s.ended e i).freq = s.freq := rfl
@[simp] theorem State.ended_code (e : Option CmdError) (i : Word) : (s.ended e i).code = s.code := rfl
@[simp] theorem State.ended_ring (e : Option CmdError) (i : Word) : (s.ended e i).ring = s.ring := rfl
@[simp] theorem State.ended_sym (e : Option CmdError) (i : Word) : (s.ended e i).sym = s.sym := rfl
@[simp] theorem State.ended_bits (e : Option CmdError) (i : Word) : (s.ended e i).bits = s.bits := rfl
@[simp] theorem State.ended_pkt (e : Option CmdError) (i : Word) : (s.ended e i).pkt = s.pkt := rfl
@[simp] theorem State.ended_nextDraw (e : Option CmdError) (i : Word) : (s.ended e i).nextDraw = s.nextDraw := rfl
@[simp] theorem State.ended_script (e : Option CmdError) (i : Word) : (s.ended e i).script = s.script := rfl
@[simp] theorem State.ended_reads (e : Option CmdError) (i : Word) : (s.ended e i).reads = s.reads := rfl

/-! ### `State.succeeded` -/

@[simp] theorem State.succeeded_params : (s.succeeded).params = s.params := rfl
@[simp] theorem State.succeeded_inFlight : (s.succeeded).inFlight = none := rfl
@[simp] theorem State.succeeded_done : (s.succeeded).done = true := rfl
@[simp] theorem State.succeeded_err : (s.succeeded).err = none := rfl
@[simp] theorem State.succeeded_errinfo : (s.succeeded).errinfo = 0 := rfl
@[simp] theorem State.succeeded_symLen : (s.succeeded).symLen = s.symLen := rfl
@[simp] theorem State.succeeded_bitLen : (s.succeeded).bitLen = s.bitLen := rfl
@[simp] theorem State.succeeded_pktLen : (s.succeeded).pktLen = s.pktLen := rfl
@[simp] theorem State.succeeded_pad : (s.succeeded).pad = s.pad := rfl
@[simp] theorem State.succeeded_nsym : (s.succeeded).nsym = s.nsym := rfl
@[simp] theorem State.succeeded_freq : (s.succeeded).freq = s.freq := rfl
@[simp] theorem State.succeeded_code : (s.succeeded).code = s.code := rfl
@[simp] theorem State.succeeded_ring : (s.succeeded).ring = s.ring := rfl
@[simp] theorem State.succeeded_sym : (s.succeeded).sym = s.sym := rfl
@[simp] theorem State.succeeded_bits : (s.succeeded).bits = s.bits := rfl
@[simp] theorem State.succeeded_pkt : (s.succeeded).pkt = s.pkt := rfl
@[simp] theorem State.succeeded_nextDraw : (s.succeeded).nextDraw = s.nextDraw := rfl
@[simp] theorem State.succeeded_script : (s.succeeded).script = s.script := rfl
@[simp] theorem State.succeeded_reads : (s.succeeded).reads = s.reads := rfl

/-! ### `State.started` -/

@[simp] theorem State.started_params (w : Word) : (s.started w).params = s.params := rfl
@[simp] theorem State.started_inFlight (w : Word) : (s.started w).inFlight = some w := rfl
@[simp] theorem State.started_done (w : Word) : (s.started w).done = false := rfl
@[simp] theorem State.started_err (w : Word) : (s.started w).err = none := rfl
@[simp] theorem State.started_errinfo (w : Word) : (s.started w).errinfo = 0 := rfl
@[simp] theorem State.started_symLen (w : Word) : (s.started w).symLen = s.symLen := rfl
@[simp] theorem State.started_bitLen (w : Word) : (s.started w).bitLen = s.bitLen := rfl
@[simp] theorem State.started_pktLen (w : Word) : (s.started w).pktLen = s.pktLen := rfl
@[simp] theorem State.started_pad (w : Word) : (s.started w).pad = s.pad := rfl
@[simp] theorem State.started_nsym (w : Word) : (s.started w).nsym = s.nsym := rfl
@[simp] theorem State.started_freq (w : Word) : (s.started w).freq = s.freq := rfl
@[simp] theorem State.started_code (w : Word) : (s.started w).code = s.code := rfl
@[simp] theorem State.started_ring (w : Word) : (s.started w).ring = s.ring := rfl
@[simp] theorem State.started_sym (w : Word) : (s.started w).sym = s.sym := rfl
@[simp] theorem State.started_bits (w : Word) : (s.started w).bits = s.bits := rfl
@[simp] theorem State.started_pkt (w : Word) : (s.started w).pkt = s.pkt := rfl
@[simp] theorem State.started_nextDraw (w : Word) : (s.started w).nextDraw = s.nextDraw := rfl
@[simp] theorem State.started_script (w : Word) : (s.started w).script = s.script := rfl
@[simp] theorem State.started_reads (w : Word) : (s.started w).reads = s.reads := rfl

/-! ### `State.illegal` -/

@[simp] theorem State.illegal_params (w : Word) : (s.illegal w).params = s.params := rfl
@[simp] theorem State.illegal_inFlight (w : Word) : (s.illegal w).inFlight = none := rfl
@[simp] theorem State.illegal_done (w : Word) : (s.illegal w).done = true := rfl
@[simp] theorem State.illegal_err (w : Word) : (s.illegal w).err = some .illCmd := rfl
@[simp] theorem State.illegal_errinfo (w : Word) : (s.illegal w).errinfo = w := rfl
@[simp] theorem State.illegal_symLen (w : Word) : (s.illegal w).symLen = s.symLen := rfl
@[simp] theorem State.illegal_bitLen (w : Word) : (s.illegal w).bitLen = s.bitLen := rfl
@[simp] theorem State.illegal_pktLen (w : Word) : (s.illegal w).pktLen = s.pktLen := rfl
@[simp] theorem State.illegal_pad (w : Word) : (s.illegal w).pad = s.pad := rfl
@[simp] theorem State.illegal_nsym (w : Word) : (s.illegal w).nsym = s.nsym := rfl
@[simp] theorem State.illegal_freq (w : Word) : (s.illegal w).freq = s.freq := rfl
@[simp] theorem State.illegal_code (w : Word) : (s.illegal w).code = s.code := rfl
@[simp] theorem State.illegal_ring (w : Word) : (s.illegal w).ring = s.ring := rfl
@[simp] theorem State.illegal_sym (w : Word) : (s.illegal w).sym = s.sym := rfl
@[simp] theorem State.illegal_bits (w : Word) : (s.illegal w).bits = s.bits := rfl
@[simp] theorem State.illegal_pkt (w : Word) : (s.illegal w).pkt = s.pkt := rfl
@[simp] theorem State.illegal_nextDraw (w : Word) : (s.illegal w).nextDraw = s.nextDraw := rfl
@[simp] theorem State.illegal_script (w : Word) : (s.illegal w).script = s.script := rfl
@[simp] theorem State.illegal_reads (w : Word) : (s.illegal w).reads = s.reads := rfl

/-! ### `State.cleared` -/

@[simp] theorem State.cleared_params (o : Items) : (s.cleared o).params = s.params := rfl
@[simp] theorem State.cleared_inFlight (o : Items) : (s.cleared o).inFlight = s.inFlight := rfl
@[simp] theorem State.cleared_done (o : Items) : (s.cleared o).done = s.done := rfl
@[simp] theorem State.cleared_err (o : Items) : (s.cleared o).err = s.err := rfl
@[simp] theorem State.cleared_errinfo (o : Items) : (s.cleared o).errinfo = s.errinfo := rfl
@[simp] theorem State.cleared_symLen (o : Items) :
    (s.cleared o).symLen = if Reg.symLen ∈ o.regs then 0 else s.symLen := rfl
@[simp] theorem State.cleared_bitLen (o : Items) :
    (s.cleared o).bitLen = if Reg.bitLen ∈ o.regs then 0 else s.bitLen := rfl
@[simp] theorem State.cleared_pktLen (o : Items) :
    (s.cleared o).pktLen = if Reg.pktLen ∈ o.regs then 0 else s.pktLen := rfl
@[simp] theorem State.cleared_pad (o : Items) :
    (s.cleared o).pad = if Reg.pad ∈ o.regs then 0 else s.pad := rfl
@[simp] theorem State.cleared_nsym (o : Items) :
    (s.cleared o).nsym = if Reg.nsym ∈ o.regs then 0 else s.nsym := rfl
@[simp] theorem State.cleared_freq (o : Items) :
    (s.cleared o).freq = if Tab.freq ∈ o.tabs then Vector.replicate 256 0 else s.freq := rfl
@[simp] theorem State.cleared_code (o : Items) :
    (s.cleared o).code = if Tab.code ∈ o.tabs then Vector.replicate 256 CodeEntry.zero else s.code := rfl
@[simp] theorem State.cleared_ring (o : Items) :
    (s.cleared o).ring = if Tab.ring ∈ o.tabs then Vector.replicate 256 RingSlot.zero else s.ring := rfl
@[simp] theorem State.cleared_sym (o : Items) : (s.cleared o).sym = s.sym := rfl
@[simp] theorem State.cleared_bits (o : Items) : (s.cleared o).bits = s.bits := rfl
@[simp] theorem State.cleared_pkt (o : Items) : (s.cleared o).pkt = s.pkt := rfl
@[simp] theorem State.cleared_nextDraw (o : Items) : (s.cleared o).nextDraw = s.nextDraw := rfl
@[simp] theorem State.cleared_script (o : Items) : (s.cleared o).script = s.script := rfl
@[simp] theorem State.cleared_reads (o : Items) : (s.cleared o).reads = s.reads := rfl

/-! ### `State.forgotten` -/

@[simp] theorem State.forgotten_params (o : Items) : (s.forgotten o).params = s.params := rfl
@[simp] theorem State.forgotten_inFlight (o : Items) : (s.forgotten o).inFlight = s.inFlight := rfl
@[simp] theorem State.forgotten_done (o : Items) : (s.forgotten o).done = s.done := rfl
@[simp] theorem State.forgotten_err (o : Items) : (s.forgotten o).err = s.err := rfl
@[simp] theorem State.forgotten_errinfo (o : Items) : (s.forgotten o).errinfo = s.errinfo := rfl
@[simp] theorem State.forgotten_symLen (o : Items) : (s.forgotten o).symLen = s.symLen := rfl
@[simp] theorem State.forgotten_bitLen (o : Items) : (s.forgotten o).bitLen = s.bitLen := rfl
@[simp] theorem State.forgotten_pktLen (o : Items) : (s.forgotten o).pktLen = s.pktLen := rfl
@[simp] theorem State.forgotten_pad (o : Items) : (s.forgotten o).pad = s.pad := rfl
@[simp] theorem State.forgotten_nsym (o : Items) : (s.forgotten o).nsym = s.nsym := rfl
@[simp] theorem State.forgotten_freq (o : Items) : (s.forgotten o).freq = s.freq := rfl
@[simp] theorem State.forgotten_code (o : Items) : (s.forgotten o).code = s.code := rfl
@[simp] theorem State.forgotten_ring (o : Items) : (s.forgotten o).ring = s.ring := rfl
@[simp] theorem State.forgotten_sym (o : Items) :
    (s.forgotten o).sym = if Buf.sym ∈ o.bufs then Buffer.unspecified s.nextDraw else s.sym := rfl
@[simp] theorem State.forgotten_bits (o : Items) :
    (s.forgotten o).bits = if Buf.bits ∈ o.bufs then Buffer.unspecified (s.nextDraw + 1) else s.bits := rfl
@[simp] theorem State.forgotten_pkt (o : Items) :
    (s.forgotten o).pkt = if Buf.pkt ∈ o.bufs then Buffer.unspecified (s.nextDraw + 2) else s.pkt := rfl
@[simp] theorem State.forgotten_nextDraw (o : Items) : (s.forgotten o).nextDraw = s.nextDraw + 3 := rfl
@[simp] theorem State.forgotten_script (o : Items) : (s.forgotten o).script = s.script := rfl
@[simp] theorem State.forgotten_reads (o : Items) : (s.forgotten o).reads = s.reads := rfl

/-! ### `State.errorTaken` -/

@[simp] theorem State.errorTaken_params (o : Items) (r : Raised) : (s.errorTaken o r).params = s.params := rfl
@[simp] theorem State.errorTaken_inFlight (o : Items) (r : Raised) : (s.errorTaken o r).inFlight = none := rfl
@[simp] theorem State.errorTaken_done (o : Items) (r : Raised) : (s.errorTaken o r).done = true := rfl
@[simp] theorem State.errorTaken_err (o : Items) (r : Raised) : (s.errorTaken o r).err = some r.err := rfl
@[simp] theorem State.errorTaken_errinfo (o : Items) (r : Raised) : (s.errorTaken o r).errinfo = r.info := rfl
@[simp] theorem State.errorTaken_symLen (o : Items) (r : Raised) :
    (s.errorTaken o r).symLen = if Reg.symLen ∈ o.regs then 0 else s.symLen := rfl
@[simp] theorem State.errorTaken_bitLen (o : Items) (r : Raised) :
    (s.errorTaken o r).bitLen = if Reg.bitLen ∈ o.regs then 0 else s.bitLen := rfl
@[simp] theorem State.errorTaken_pktLen (o : Items) (r : Raised) :
    (s.errorTaken o r).pktLen = if Reg.pktLen ∈ o.regs then 0 else s.pktLen := rfl
@[simp] theorem State.errorTaken_pad (o : Items) (r : Raised) :
    (s.errorTaken o r).pad = if Reg.pad ∈ o.regs then 0 else s.pad := rfl
@[simp] theorem State.errorTaken_nsym (o : Items) (r : Raised) :
    (s.errorTaken o r).nsym = if Reg.nsym ∈ o.regs then 0 else s.nsym := rfl
@[simp] theorem State.errorTaken_freq (o : Items) (r : Raised) :
    (s.errorTaken o r).freq = if Tab.freq ∈ o.tabs then Vector.replicate 256 0 else s.freq := rfl
@[simp] theorem State.errorTaken_code (o : Items) (r : Raised) :
    (s.errorTaken o r).code = if Tab.code ∈ o.tabs then Vector.replicate 256 CodeEntry.zero else s.code := rfl
@[simp] theorem State.errorTaken_ring (o : Items) (r : Raised) :
    (s.errorTaken o r).ring = if Tab.ring ∈ o.tabs then Vector.replicate 256 RingSlot.zero else s.ring := rfl
@[simp] theorem State.errorTaken_sym (o : Items) (r : Raised) :
    (s.errorTaken o r).sym = if Buf.sym ∈ o.bufs then Buffer.unspecified s.nextDraw else s.sym := rfl
@[simp] theorem State.errorTaken_bits (o : Items) (r : Raised) :
    (s.errorTaken o r).bits = if Buf.bits ∈ o.bufs then Buffer.unspecified (s.nextDraw + 1) else s.bits := rfl
@[simp] theorem State.errorTaken_pkt (o : Items) (r : Raised) :
    (s.errorTaken o r).pkt = if Buf.pkt ∈ o.bufs then Buffer.unspecified (s.nextDraw + 2) else s.pkt := rfl
@[simp] theorem State.errorTaken_nextDraw (o : Items) (r : Raised) : (s.errorTaken o r).nextDraw = s.nextDraw + 3 := rfl
@[simp] theorem State.errorTaken_script (o : Items) (r : Raised) : (s.errorTaken o r).script = s.script := rfl
@[simp] theorem State.errorTaken_reads (o : Items) (r : Raised) : (s.errorTaken o r).reads = s.reads := rfl

/-! ### `State.putBitstring` -/

@[simp] theorem State.putBitstring_params (b : BitString) : (s.putBitstring b).params = s.params := rfl
@[simp] theorem State.putBitstring_inFlight (b : BitString) : (s.putBitstring b).inFlight = s.inFlight := rfl
@[simp] theorem State.putBitstring_done (b : BitString) : (s.putBitstring b).done = s.done := rfl
@[simp] theorem State.putBitstring_err (b : BitString) : (s.putBitstring b).err = s.err := rfl
@[simp] theorem State.putBitstring_errinfo (b : BitString) : (s.putBitstring b).errinfo = s.errinfo := rfl
@[simp] theorem State.putBitstring_symLen (b : BitString) : (s.putBitstring b).symLen = s.symLen := rfl
@[simp] theorem State.putBitstring_bitLen (b : BitString) : (s.putBitstring b).bitLen = BitVec.ofNat 32 b.length := rfl
@[simp] theorem State.putBitstring_pktLen (b : BitString) : (s.putBitstring b).pktLen = s.pktLen := rfl
@[simp] theorem State.putBitstring_pad (b : BitString) : (s.putBitstring b).pad = s.pad := rfl
@[simp] theorem State.putBitstring_nsym (b : BitString) : (s.putBitstring b).nsym = s.nsym := rfl
@[simp] theorem State.putBitstring_freq (b : BitString) : (s.putBitstring b).freq = s.freq := rfl
@[simp] theorem State.putBitstring_code (b : BitString) : (s.putBitstring b).code = s.code := rfl
@[simp] theorem State.putBitstring_ring (b : BitString) : (s.putBitstring b).ring = s.ring := rfl
@[simp] theorem State.putBitstring_sym (b : BitString) : (s.putBitstring b).sym = s.sym := rfl
@[simp] theorem State.putBitstring_bits (b : BitString) : (s.putBitstring b).bits = s.bits.writeFrom 0 (bytesOf b) := rfl
@[simp] theorem State.putBitstring_pkt (b : BitString) : (s.putBitstring b).pkt = s.pkt := rfl
@[simp] theorem State.putBitstring_nextDraw (b : BitString) : (s.putBitstring b).nextDraw = s.nextDraw := rfl
@[simp] theorem State.putBitstring_script (b : BitString) : (s.putBitstring b).script = s.script := rfl
@[simp] theorem State.putBitstring_reads (b : BitString) : (s.putBitstring b).reads = s.reads := rfl

/-! ### `State.hostRead` -/

@[simp] theorem State.hostRead_params (a : Nat) : (s.hostRead a).params = s.params := rfl
@[simp] theorem State.hostRead_inFlight (a : Nat) : (s.hostRead a).inFlight = s.inFlight := rfl
@[simp] theorem State.hostRead_done (a : Nat) : (s.hostRead a).done = s.done := rfl
@[simp] theorem State.hostRead_err (a : Nat) : (s.hostRead a).err = s.err := rfl
@[simp] theorem State.hostRead_errinfo (a : Nat) : (s.hostRead a).errinfo = s.errinfo := rfl
@[simp] theorem State.hostRead_symLen (a : Nat) : (s.hostRead a).symLen = s.symLen := rfl
@[simp] theorem State.hostRead_bitLen (a : Nat) : (s.hostRead a).bitLen = s.bitLen := rfl
@[simp] theorem State.hostRead_pktLen (a : Nat) : (s.hostRead a).pktLen = s.pktLen := rfl
@[simp] theorem State.hostRead_pad (a : Nat) : (s.hostRead a).pad = s.pad := rfl
@[simp] theorem State.hostRead_nsym (a : Nat) : (s.hostRead a).nsym = s.nsym := rfl
@[simp] theorem State.hostRead_freq (a : Nat) : (s.hostRead a).freq = s.freq := rfl
@[simp] theorem State.hostRead_code (a : Nat) : (s.hostRead a).code = s.code := rfl
@[simp] theorem State.hostRead_ring (a : Nat) : (s.hostRead a).ring = s.ring := rfl
@[simp] theorem State.hostRead_sym (a : Nat) : (s.hostRead a).sym = s.sym := rfl
@[simp] theorem State.hostRead_bits (a : Nat) : (s.hostRead a).bits = s.bits := rfl
@[simp] theorem State.hostRead_pkt (a : Nat) : (s.hostRead a).pkt = s.pkt := rfl
@[simp] theorem State.hostRead_nextDraw (a : Nat) : (s.hostRead a).nextDraw = s.nextDraw := rfl
@[simp] theorem State.hostRead_script (a : Nat) : (s.hostRead a).script = s.script := rfl
@[simp] theorem State.hostRead_reads (a : Nat) : (s.hostRead a).reads = s.reads ++ [s.locRead (locate s.params a)] := rfl

/-! ### `State.resetBlock` -/

@[simp] theorem State.resetBlock_params : (s.resetBlock).params = s.params := rfl
@[simp] theorem State.resetBlock_inFlight : (s.resetBlock).inFlight = none := rfl
@[simp] theorem State.resetBlock_done : (s.resetBlock).done = false := rfl
@[simp] theorem State.resetBlock_err : (s.resetBlock).err = none := rfl
@[simp] theorem State.resetBlock_errinfo : (s.resetBlock).errinfo = 0 := rfl
@[simp] theorem State.resetBlock_symLen : (s.resetBlock).symLen = 0 := rfl
@[simp] theorem State.resetBlock_bitLen : (s.resetBlock).bitLen = 0 := rfl
@[simp] theorem State.resetBlock_pktLen : (s.resetBlock).pktLen = 0 := rfl
@[simp] theorem State.resetBlock_pad : (s.resetBlock).pad = 0 := rfl
@[simp] theorem State.resetBlock_nsym : (s.resetBlock).nsym = 0 := rfl
@[simp] theorem State.resetBlock_freq : (s.resetBlock).freq = Vector.replicate 256 0 := rfl
@[simp] theorem State.resetBlock_code : (s.resetBlock).code = Vector.replicate 256 CodeEntry.zero := rfl
@[simp] theorem State.resetBlock_ring : (s.resetBlock).ring = Vector.replicate 256 RingSlot.zero := rfl
@[simp] theorem State.resetBlock_sym : (s.resetBlock).sym = Buffer.unspecified s.nextDraw := rfl
@[simp] theorem State.resetBlock_bits : (s.resetBlock).bits = Buffer.unspecified (s.nextDraw + 1) := rfl
@[simp] theorem State.resetBlock_pkt : (s.resetBlock).pkt = Buffer.unspecified (s.nextDraw + 2) := rfl
@[simp] theorem State.resetBlock_nextDraw : (s.resetBlock).nextDraw = s.nextDraw + 3 := rfl
@[simp] theorem State.resetBlock_script : (s.resetBlock).script = s.script := rfl
@[simp] theorem State.resetBlock_reads : (s.resetBlock).reads = s.reads := rfl

/-! ### `State.withFetchWord` -/

@[simp] theorem State.withFetchWord_params (n w : Nat) : (s.withFetchWord n w).params = s.params := rfl
@[simp] theorem State.withFetchWord_inFlight (n w : Nat) : (s.withFetchWord n w).inFlight = none := rfl
@[simp] theorem State.withFetchWord_done (n w : Nat) : (s.withFetchWord n w).done = s.done := rfl
@[simp] theorem State.withFetchWord_err (n w : Nat) : (s.withFetchWord n w).err = s.err := rfl
@[simp] theorem State.withFetchWord_errinfo (n w : Nat) : (s.withFetchWord n w).errinfo = s.errinfo := rfl
@[simp] theorem State.withFetchWord_symLen (n w : Nat) : (s.withFetchWord n w).symLen = s.symLen := rfl
@[simp] theorem State.withFetchWord_bitLen (n w : Nat) : (s.withFetchWord n w).bitLen = s.bitLen := rfl
@[simp] theorem State.withFetchWord_pktLen (n w : Nat) : (s.withFetchWord n w).pktLen = s.pktLen := rfl
@[simp] theorem State.withFetchWord_pad (n w : Nat) : (s.withFetchWord n w).pad = s.pad := rfl
@[simp] theorem State.withFetchWord_nsym (n w : Nat) : (s.withFetchWord n w).nsym = s.nsym := rfl
@[simp] theorem State.withFetchWord_freq (n w : Nat) : (s.withFetchWord n w).freq = s.freq := rfl
@[simp] theorem State.withFetchWord_code (n w : Nat) : (s.withFetchWord n w).code = s.code := rfl
@[simp] theorem State.withFetchWord_ring (n w : Nat) : (s.withFetchWord n w).ring = s.ring := rfl
@[simp] theorem State.withFetchWord_sym (n w : Nat) : (s.withFetchWord n w).sym = s.sym := rfl
@[simp] theorem State.withFetchWord_bits (n w : Nat) : (s.withFetchWord n w).bits = s.bits := rfl
@[simp] theorem State.withFetchWord_pkt (n w : Nat) : (s.withFetchWord n w).pkt = s.pkt := rfl
@[simp] theorem State.withFetchWord_nextDraw (n w : Nat) : (s.withFetchWord n w).nextDraw = s.nextDraw := rfl
@[simp] theorem State.withFetchWord_script (n w : Nat) : (s.withFetchWord n w).script =
    .access (.write 0 4 (BitVec.ofNat 32 (w % 2 ^ n))) :: s.script := rfl
@[simp] theorem State.withFetchWord_reads (n w : Nat) : (s.withFetchWord n w).reads = s.reads := rfl

/-! ### The flags computed from the fields -/

theorem State.busy_eq : s.busy = s.inFlight.isSome := rfl

@[simp] theorem State.busy_ended (e : Option CmdError) (i : Word) : (s.ended e i).busy = false := rfl

@[simp] theorem State.busy_started (w : Word) : (s.started w).busy = true := rfl

@[simp] theorem State.busy_resetBlock : s.resetBlock.busy = false := rfl

/-- "After any completed command STATUS is `0x02 | (ERR << 4)`" (10_state.md R22). -/
theorem State.statusWord_ended (e : Option CmdError) (i : Word) :
    (s.ended e i).statusWord = 2 ||| (BitVec.ofNat 32 (errNumber e) <<< 4) := by
  simp [State.statusWord]

theorem State.ended_none : s.ended none 0 = s.succeeded := rfl

/-- An end overwrites every flag, so it does not matter what they were. -/
@[simp] theorem State.started_ended (w : Word) (e : Option CmdError) (i : Word) : (s.started w).ended e i = s.ended e i :=
  rfl

@[simp] theorem State.ended_ended (e e' : Option CmdError) (i i' : Word) : (s.ended e i).ended e' i' = s.ended e' i' := rfl

end Sys2Proof.Machine
end

