-- ==== Sys2Proof/Laws/Ops.lean ====
section
/-! SUPPORT. What the shared start and end of a command can do (40_control.md R120): said once, cited everywhere. -/

namespace Sys2Proof.Machine

/-- The two ends of a command: its rule's result, or its first error taken. -/
theorem command_eq_next_iff {o : Items} {rule : State → Except Raised State} {s t : State} :
    command o rule s = .next t ↔
      (∃ u, rule (s.cleared o) = .ok u ∧ t = u.ended none 0) ∨
      (∃ r, rule (s.cleared o) = .error r ∧ t = s.errorTaken o r) := by
  unfold command
  cases rule (s.cleared o) with
  | ok u => simp [eq_comm]
  | error r => simp [eq_comm]

/-- A command always ends in a next state. -/
theorem exists_command_eq_next (o : Items) (rule : State → Except Raised State) (s : State) :
    ∃ t, command o rule s = .next t := by
  unfold command
  split <;> exact ⟨_, rfl⟩

theorem command_of_ok {o : Items} {rule : State → Except Raised State} {s u : State} (h : rule (s.cleared o) = .ok u) :
    command o rule s = .next (u.ended none 0) := by
  simp [command, h]

theorem command_of_error {o : Items} {rule : State → Except Raised State} {s : State} {r : Raised}
    (h : rule (s.cleared o) = .error r) : command o rule s = .next (s.errorTaken o r) := by
  simp [command, h]

/-- A command that ended without error ended with its rule's result. -/
theorem command_success {o : Items} {rule : State → Except Raised State} {s t : State} (h : command o rule s = .next t)
    (he : t.err = none) : ∃ u, rule (s.cleared o) = .ok u ∧ t = u.ended none 0 := by
  rcases command_eq_next_iff.1 h with h | ⟨r, -, rfl⟩
  · exact h
  · simp at he

/-- A command that ended with an error had it taken: nothing but its outputs and the flags changed. -/
theorem command_failure {o : Items} {rule : State → Except Raised State} {s t : State} (h : command o rule s = .next t)
    (he : t.err ≠ none) : ∃ r, rule (s.cleared o) = .error r ∧ t = s.errorTaken o r := by
  rcases command_eq_next_iff.1 h with ⟨u, -, rfl⟩ | h
  · simp at he
  · exact h

/-- Every command is `command` of its row of R120's table and its rule. -/
def ruleOf : Instr → State → Except Raised State
  | .nop => fun s => .ok s
  | .clr => clrRule
  | .hist => histRule
  | .build => buildRule
  | .map => mapRule
  | .pack => packRule
  | .enc => encRule
  | .unpack => unpackRule
  | .walk => walkRule
  | .dec => decRule

theorem exec_eq_command (i : Instr) (s : State) : exec i s = command (outputsOf i) (ruleOf i) s := by
  cases i <;> rfl

/-- Clearing touches no input of the command (40_control.md R120: "the clearing step never destroys an operand"). -/
theorem cleared_buf (o : Items) (s : State) (b : Buf) : (s.cleared o).buf b = s.buf b := by cases b <;> rfl

end Sys2Proof.Machine
end

