-- ==== Sys2Proof/Laws/Operands.lean ====
section
/-! SUPPORT. What the operand checks answer (60_exceptions.md R226), and what writing a bitstring leaves. -/

namespace Sys2Proof.Machine

theorem messageOperand_ok {s : State} (h : s.symLen.toNat ≤ s.params.symCap) : s.messageOperand = .ok s.message := by
  simp [State.messageOperand, Nat.not_lt.2 h]

theorem messageOperand_error {s : State} (h : s.params.symCap < s.symLen.toNat) :
    s.messageOperand = .error { err := .cap, info := 1 } := by
  simp [State.messageOperand, h]

theorem bitstringOperand_ok {s : State} (h : s.bitLen.toNat ≤ s.params.bitCap) :
    s.bitstringOperand = .ok s.bitstring := by
  simp [State.bitstringOperand, Nat.not_lt.2 h]

theorem bitstringOperand_error {s : State} (h : s.params.bitCap < s.bitLen.toNat) :
    s.bitstringOperand = .error { err := .cap, info := 2 } := by
  simp [State.bitstringOperand, h]

/-- The buffer is in good order: within capacity, not empty, a pad length of 0 to 7 that the payload can hold. -/
theorem packetOperand_ok {s : State} (h1 : s.pktLen.toNat ≤ s.params.pktCap) (h2 : s.pktLen.toNat ≠ 0)
    (h3 : (s.pkt.read 0).toNat ≤ 7) (h4 : (s.pkt.read 0).toNat ≤ 8 * (s.pktLen.toNat - 1)) :
    s.packetOperand = .ok ((s.pkt.read 0).toNat, 8 * (s.pktLen.toNat - 1) - (s.pkt.read 0).toNat) := by
  simp [State.packetOperand, Nat.not_lt.2 h1, h2, Nat.not_lt.2 h3, Nat.not_lt.2 h4]

@[simp] theorem length_message (s : State) : s.message.length = s.symLen.toNat := by simp [State.message]

@[simp] theorem length_bitstring (s : State) : s.bitstring.length = s.bitLen.toNat := by simp [State.bitstring]

@[simp] theorem length_payloadBits (s : State) (n : Nat) : (s.payloadBits n).length = n := by simp [State.payloadBits]

@[simp] theorem message_cleared {s : State} {o : Items} (h : Reg.symLen ∉ o.regs) : (s.cleared o).message = s.message := by
  simp [State.message, h]

@[simp] theorem bitstring_cleared {s : State} {o : Items} (h : Reg.bitLen ∉ o.regs) :
    (s.cleared o).bitstring = s.bitstring := by
  simp [State.bitstring, h]

/-- BITS and BIT_LEN hold the bitstring just put there. -/
theorem bitstring_putBitstring {s : State} {b : BitString} (h : b.length < 2 ^ 32) : (s.putBitstring b).bitstring = b := by
  have hl : (BitVec.ofNat 32 b.length).toNat = b.length := by rw [BitVec.toNat_ofNat]; omega
  simp only [State.bitstring, State.putBitstring_bits, State.putBitstring_bitLen, hl]
  exact bitsOf_of_bytesOf (s.bits.extended_writeFrom (bytesOf b)).1

end Sys2Proof.Machine
end

