-- ==== Sys2Proof/Laws/PerInstr.lean ====
section
/-! SUPPORT. Facts about every command as syntax, one lemma per constructor: its word decodes to it. -/

namespace Sys2Proof.Laws.RoundTrip

/-- The word of the command decodes to the command (30_encoding.md R92). -/
def Statement (i : Instr) : Prop := i.wf = true → decode (encode i) = .ok i

theorem nop : Statement .nop := fun _ => rfl
theorem clr : Statement .clr := fun _ => rfl
theorem hist : Statement .hist := fun _ => rfl
theorem build : Statement .build := fun _ => rfl
theorem map : Statement .map := fun _ => rfl
theorem pack : Statement .pack := fun _ => rfl
theorem enc : Statement .enc := fun _ => rfl
theorem unpack : Statement .unpack := fun _ => rfl
theorem walk : Statement .walk := fun _ => rfl
theorem dec : Statement .dec := fun _ => rfl

end Sys2Proof.Laws.RoundTrip
end

