-- ==== Sys2Proof/Laws/Step.lean ====
section
/-! SUPPORT. What one step can do (70_reset_and_hazards.md R253, R254; 20_memory.md R62 to R66): one lemma for each kind of
event, and the one list of ways a step can stop. -/

namespace Sys2Proof.Machine

theorem step_nil {s : State} (h : s.script = []) : step s = engineStep s := by simp [step, h]

theorem step_cons {s : State} {e : Event} {es : List Event} (h : s.script = e :: es) :
    step s = runEvent e { s with script := es } := by simp [step, h]

/-- A legal CMD word runs its command. -/
theorem runWord_of_decode {w : Word} {i : Instr} (h : decode w = .ok i) (s : State) : runWord w s = exec i s := by
  simp [runWord, h]

/-- An illegal word ends with ERR_ILLCMD. -/
theorem runWord_of_error {w : Word} {e : DecodeError} (h : decode w = .error e) (s : State) :
    runWord w s = .next (s.illegal w) := by
  simp [runWord, h]

theorem exists_exec_eq_next (i : Instr) (s : State) : ∃ t, exec i s = .next t := by
  rw [exec_eq_command]; exact exists_command_eq_next _ _ _

theorem exists_runWord_eq_next (w : Word) (s : State) : ∃ t, runWord w s = .next t := by
  unfold runWord
  split
  · exact exists_exec_eq_next _ _
  · exact ⟨_, rfl⟩

theorem exists_engineStep_eq_next (s : State) : ∃ t, engineStep s = .next t := by
  unfold engineStep
  split
  · exact exists_runWord_eq_next _ _
  · exact ⟨_, rfl⟩

/-- The shapes that are accepted are those that are not malformed. -/
theorem shapeOk_eq_true_iff (a n : Nat) : shapeOk a n = true ↔ ¬ Malformed a n := by
  simp only [shapeOk, Malformed, Bool.or_eq_true, Bool.and_eq_true, decide_eq_true_eq]
  omega

/-- A well-shaped read while the block is idle returns the location's value and changes nothing else. -/
theorem hostAccess_read {s : State} {a : Addr} {n : Nat} (hb : s.busy = false) (hs : shapeOk a.toNat n = true) :
    hostAccess (.read a n) s = .next (s.hostRead a.toNat) := by
  simp [hostAccess, hb, hs]

/-- A well-shaped write, not to CMD, while the block is idle stores. -/
theorem hostAccess_write {s : State} {a : Addr} {n : Nat} {v : Word} (hb : s.busy = false)
    (hs : shapeOk a.toNat n = true) (hc : a.toNat ≠ RegName.cmd.offset) :
    hostAccess (.write a n v) s = .next (s.hostWrite a.toNat v) := by
  simp [hostAccess, hb, hs, hc]

/-- A word write to CMD while the block is idle runs the word. -/
theorem hostAccess_cmd {s : State} (hb : s.busy = false) (v : Word) : hostAccess (.write 0 4 v) s = runWord v s := by
  simp [hostAccess, hb, shapeOk, RegName.offset]

theorem hostAccess_malformed {s : State} (hb : s.busy = false) {a : Addr} {n : Nat} (hs : shapeOk a.toNat n = false) :
    hostAccess (.read a n) s = .refused .malformedAccess ∧
      ∀ v, hostAccess (.write a n v) s = .refused .malformedAccess := by
  simp [hostAccess, hb, hs]

/-- While a command is in progress every write is refused. -/
theorem hostAccess_write_busy {s : State} (hb : s.busy = true) (a : Addr) (n : Nat) (v : Word) :
    hostAccess (.write a n v) s = .refused .accessWhileBusy := by
  simp [hostAccess, hb]

/-- While a command is in progress only STATUS can be read. -/
theorem hostAccess_read_busy {s : State} (hb : s.busy = true) (a : Addr) (n : Nat) :
    hostAccess (.read a n) s =
      if a.toNat = RegName.status.offset ∧ n = 4 then .next (s.hostRead a.toNat) else .refused .accessWhileBusy := by
  by_cases h : a.toNat = RegName.status.offset ∧ n = 4
  · simp [hostAccess, hb, h.1, h.2, shapeOk, RegName.offset]
  · rcases not_and_or.1 h with h1 | h1 <;> simp [hostAccess, hb, h1]

/-- Placing a command word makes it the next thing that runs. -/
theorem step_withFetchWord (s : State) (nbits w : Nat) :
    step (s.withFetchWord nbits w) = runWord (BitVec.ofNat 32 (w % 2 ^ nbits)) { s with inFlight := none } := by
  rw [step_cons (State.withFetchWord_script s nbits w)]
  exact hostAccess_cmd (s := { s with inFlight := none }) rfl _

end Sys2Proof.Machine
end

