-- ==== Sys2Proof/Laws/Tables.lean ====
section
/-! SUPPORT. The laws of tables: the 256 symbols, reading an entry after building or replacing one. -/

namespace Sys2Proof.Machine

/-! ### The symbols -/

@[simp] theorem mem_allSymbols (x : Symbol) : x ∈ allSymbols := by
  simp only [allSymbols, List.mem_map, List.mem_range]
  exact ⟨x.toNat, x.isLt, by simp⟩

@[simp] theorem length_allSymbols : allSymbols.length = 256 := by simp [allSymbols]

theorem getElem_allSymbols (k : Nat) (h : k < allSymbols.length) : allSymbols[k] = BitVec.ofNat 8 k := by
  simp [allSymbols]

/-- The symbols stand in rising order, so the first one found is the least. -/
theorem pairwise_lt_allSymbols : allSymbols.Pairwise (· < ·) := by
  refine List.pairwise_iff_getElem.2 fun i j hi hj hij => ?_
  rw [length_allSymbols] at hi hj
  simp only [getElem_allSymbols, BitVec.lt_def, BitVec.toNat_ofNat]
  omega

theorem nodup_allSymbols : allSymbols.Nodup :=
  pairwise_lt_allSymbols.imp fun h e => by simp [e] at h

/-! ### Entries -/

@[simp] theorem Table.entry_ofFn {α : Type} (f : Symbol → α) (x : Symbol) : (Table.ofFn f).entry x = f x := by
  simp [Table.entry, Table.ofFn, getElem_allSymbols]

@[simp] theorem Table.entry_replicate {α : Type} (v : α) (x : Symbol) :
    Table.entry (Vector.replicate 256 v) x = v := by
  simp [Table.entry]

@[simp] theorem Table.entry_put_self {α : Type} (t : Table α) (x : Symbol) (v : α) : (t.put x v).entry x = v := by
  simp [Table.entry, Table.put]

theorem Table.entry_put_other {α : Type} (t : Table α) {x y : Symbol} (v : α) (h : y ≠ x) :
    (t.put x v).entry y = t.entry y := by
  have : x.toNat ≠ y.toNat := fun e => h (BitVec.eq_of_toNat_eq e.symm)
  simp only [Table.entry, Table.put]
  exact Vector.getElem_set_ne _ _ this

theorem Table.entry_put {α : Type} (t : Table α) (x y : Symbol) (v : α) :
    (t.put x v).entry y = if y = x then v else t.entry y := by
  split
  · subst_vars; exact t.entry_put_self _ v
  · exact t.entry_put_other v ‹_›

/-- Tables with equal entries are equal. -/
theorem Table.ext_entry {α : Type} {t t' : Table α} (h : ∀ x, t.entry x = t'.entry x) : t = t' := by
  apply Vector.ext
  intro i hi
  have := h (BitVec.ofNat 8 i)
  simpa [Table.entry, Nat.mod_eq_of_lt hi] using this

end Sys2Proof.Machine
end

