-- ==== Sys2Proof/Tests/Slice0.lean ====
section
/-! SUPPORT. Tests against the spec's own vectors (95_test_vectors.md), smoke tests of the well-formedness checks, and a
witness for the hypotheses of each statement. Expected values are the spec's, or hand-made from its rules. -/

set_option Elab.async false

namespace Sys2Proof.Tests

open Sys2Proof Sys2Proof.Machine

/-! ### Small states -/

/-- A buffer holding the given bytes from index 0. -/
def holding (d : Nat) (bs : List Byte) : Buffer := (Buffer.unspecified d).writeFrom 0 bs

/-- Capacities small enough to run into: SYM_CAP = 8, BIT_CAP = 8 (V-MAP-7, V-ENC-16). -/
def small : Params := { symCap := 8, bitCap := 8 }

/-- After `load SYM`. -/
def withSym (p : Params) (bs : List Byte) : State :=
  { State.reset with params := p, sym := holding 0 bs, symLen := BitVec.ofNat 32 bs.length }

/-- After `load BITS`, given as bytes and a length. -/
def withBits (s : State) (bs : List Byte) (n : Nat) : State :=
  { s with bits := holding 1 bs, bitLen := BitVec.ofNat 32 n }

/-- After `load PKT`. -/
def withPkt (s : State) (bs : List Byte) : State :=
  { s with pkt := holding 2 bs, pktLen := BitVec.ofNat 32 bs.length }

/-- After `ring k, x, "c"`. -/
def withKey (s : State) (k x : Symbol) (c : BitString) : State :=
  { s with ring := s.ring.put k { CodeEntry.ofCode c with sym := x } }

/-- Entry x of CODE holding the code c. -/
def withCode (s : State) (x : Symbol) (c : BitString) : State := { s with code := s.code.put x (CodeEntry.ofCode c) }

/-- "banana" in SYM. -/
def banana : State := withSym Params.thisHardware [0x62, 0x61, 0x6E, 0x61, 0x6E, 0x61]

/-- Ring B of section 2.7, in slots 0, 1, 2 as program P2 loads it. -/
def ringB (s : State) : State :=
  withKey (withKey (withKey s 0 0x61 [false]) 1 0x62 [true, false]) 2 0x6E [true, true]

/-- What a property says of the next state. -/
def nextSat (o : Host.Outcome State Fault Refusal) (P : State → Bool) : Bool :=
  match o with
  | .next t => P t
  | _ => false

theorem exists_of_nextSat {o : Host.Outcome State Fault Refusal} {P : State → Bool} (h : nextSat o P = true) :
    ∃ t, o = .next t ∧ P t = true := by
  cases o with
  | next t => exact ⟨t, rfl, h⟩
  | fault r => cases r
  | refused r => cases h

/-- The codes of some symbols in a state. -/
def codesAt (t : State) (xs : List Symbol) : List BitString := xs.map fun x => (t.code.entry x).key

/-! ### Decoding: words written out from R90 and R92 -/

theorem test_decode_nop : decode 0b00000000000000000000000000000000#32 = .ok .nop := by decide
theorem test_decode_clr : decode 0b00000000000000000000000000000001#32 = .ok .clr := by decide
theorem test_decode_hist : decode 0b00000000000000000000000000010000#32 = .ok .hist := by decide
theorem test_decode_build : decode 0b00000000000000000000000000010001#32 = .ok .build := by decide
theorem test_decode_map : decode 0b00000000000000000000000000010010#32 = .ok .map := by decide
theorem test_decode_pack : decode 0b00000000000000000000000000010011#32 = .ok .pack := by decide
theorem test_decode_enc : decode 0b00000000000000000000000000011111#32 = .ok .enc := by decide
theorem test_decode_unpack : decode 0b00000000000000000000000000100000#32 = .ok .unpack := by decide
theorem test_decode_walk : decode 0b00000000000000000000000000100001#32 = .ok .walk := by decide
theorem test_decode_dec : decode 0b00000000000000000000000000101111#32 = .ok .dec := by decide
/-- V-CTL-6. -/
theorem test_decode_zero_field : decode 0x0000_011F#32 = .error .zeroFieldNotZero := by decide
/-- V-CTL-8. -/
theorem test_decode_unknown : decode 0x0000_0014#32 = .error (.unknownOpcode 0x14) := by decide
theorem test_decodeTableWord : decodeTableWord 32 0x2F = some .dec := by decide

/-! ### Well-formedness: an ill-formed term for each check (R5) -/

theorem smoke_params_ok : Params.thisHardware.wf = true ∧ small.wf = true := by decide
theorem smoke_symCap_zero : (Params.mk 0 8).wf = false := by decide
theorem smoke_symCap_large : (Params.mk (2 ^ 20 + 1) 8).wf = false := by decide
theorem smoke_bitCap_multiple : (Params.mk 1 12).wf = false := by decide
theorem smoke_bitCap_zero : (Params.mk 1 0).wf = false := by decide
theorem smoke_bitCap_large : (Params.mk 1 (2 ^ 23 + 8)).wf = false := by decide
theorem smoke_instr : Instr.wf .enc = true := by decide

/-! ### One step of each command, from the spec's vectors -/

/-- V-CTL-3: NOP clears an earlier error. -/
theorem test_nop : nextSat (exec .nop { banana with err := some .decode, errinfo := 8, done := true })
    (fun t => decide (t.statusWord = 0x02 ∧ t.errinfo = 0 ∧ t.symLen = 6)) = true := by decide +kernel

/-- V-CTL-4: CLR zeroes the length register and keeps the buffer. -/
theorem test_clr : nextSat (exec .clr banana)
    (fun t => decide (t.statusWord = 0x02 ∧ t.symLen = 0 ∧ t.sym = banana.sym)) = true := by decide +kernel

/-- V-HIST-1. -/
theorem test_hist : nextSat (exec .hist banana) (fun t => decide (t.statusWord = 0x02 ∧
    [0x61, 0x62, 0x6E, 0x60].map t.freq.entry = [3, 1, 2, 0])) = true := by decide +kernel

/-- V-HIST-6: FREQ is zero even if an earlier HIST had filled it. -/
theorem test_hist_cap : nextSat (exec .hist { banana with symLen := 65537, freq := Vector.replicate 256 7 })
    (fun t => decide (t.statusWord = 0x52 ∧ t.errinfo = 1 ∧ t.freq.entry 0x61 = 0)) = true := by decide +kernel

/-- V-BUILD-5: the order of concatenation decides. -/
theorem test_build_order :
    nextSat (exec .build { State.reset with freq := countSymbols [0, 1, 1, 2] })
      (fun t => decide (t.nsym = 3 ∧ codesAt t [0, 1, 2] = [[false, false], [true], [false, true]] ∧
        (t.ring.entry 2).sym = 2)) = true := by decide +kernel

/-- V-BUILD-7: a merged group (65, 61, 62). -/
theorem test_build_groups :
    nextSat (exec .build { State.reset with freq := countSymbols [0x61, 0x62, 0x63, 0x64, 0x65] })
      (fun t => decide (codesAt t [0x61, 0x62, 0x63, 0x64, 0x65] =
        [[true, true, false], [true, true, true], [false, false], [false, true], [true, false]])) = true := by
  decide +kernel

/-- CODE as V-BUILD-1 leaves it. -/
def bananaCode : State := withCode (withCode (withCode banana 0x61 [false]) 0x62 [true, false]) 0x6E [true, true]

/-- V-MAP-1. -/
theorem test_map : nextSat (exec .map bananaCode)
    (fun t => decide (t.bitLen = 9 ∧ t.bits.read 0 = 0x9B ∧ t.bits.read 1 = 0x00)) = true := by decide +kernel

/-- V-MAP-3: SYM[6] = 0x21 has no code. -/
theorem test_map_nocode : nextSat (exec .map { bananaCode with sym := bananaCode.sym.write 6 0x21, symLen := 7 })
    (fun t => decide (t.statusWord = 0x42 ∧ t.errinfo = 6 ∧ t.bitLen = 0)) = true := by decide +kernel

/-- V-PACK-2: the unused bits of the last BITS byte are junk and do not reach PKT. -/
theorem test_pack : nextSat (exec .pack (withBits State.reset [0x9B, 0xFF] 9))
    (fun t => decide (t.pad = 7 ∧ t.pktLen = 3 ∧ [0, 1, 2].map t.pkt.read = [0x07, 0x9B, 0x80])) = true := by
  decide +kernel

/-- V-ENC-6: ties. -/
theorem test_enc : nextSat (exec .enc (withSym Params.thisHardware [0, 1, 1, 2]))
    (fun t => decide (t.bitLen = 6 ∧ t.pad = 2 ∧ t.pktLen = 2 ∧ [0, 1].map t.pkt.read = [0x02, 0x34])) = true := by
  decide +kernel

/-- V-ENC-16: twelve bits do not fit eight, and FREQ and NSYM are cleared although HIST and BUILD had run. -/
theorem test_enc_cap : nextSat (exec .enc (withSym small [0x61, 0x62, 0x63, 0x64, 0x65]))
    (fun t => decide (t.statusWord = 0x52 ∧ t.errinfo = 2 ∧ t.nsym = 0 ∧ t.freq.entry 0x61 = 0)) = true := by
  decide +kernel

/-- V-UNP-8: pad bits that are 1 are dropped, the unused bits of BITS are 0. -/
theorem test_unpack : nextSat (exec .unpack (withPkt State.reset [0x03, 0xFF]))
    (fun t => decide (t.pad = 3 ∧ t.bitLen = 5 ∧ t.bits.read 0 = 0xF8)) = true := by decide +kernel

/-- V-UNP-6: a pad of 1 with no payload byte. -/
theorem test_unpack_pad : nextSat (exec .unpack (withPkt State.reset [0x01]))
    (fun t => decide (t.statusWord = 0x32 ∧ t.errinfo = 1)) = true := by decide +kernel

/-- V-WALK-6: the unmatched accumulator began at bit 8. -/
theorem test_walk_decode_error : nextSat (exec .walk (withBits (ringB State.reset) [0x9B, 0x80] 9))
    (fun t => decide (t.statusWord = 0x22 ∧ t.errinfo = 8 ∧ t.symLen = 0)) = true := by decide +kernel

/-- V-WALK-15: of two slots with the key "0" the least wins. -/
theorem test_walk_least_slot :
    nextSat (exec .walk (withBits (withKey (withKey (withKey State.reset 3 0x33 [false]) 5 0x55 [false]) 9 0x99 [true])
      [0x40] 3)) (fun t => decide (t.symLen = 3 ∧ [0, 1, 2].map t.sym.read = [0x33, 0x99, 0x33])) = true := by
  decide +kernel

/-- V-DEC-1. -/
theorem test_dec : nextSat (exec .dec (withPkt (ringB State.reset) [0x07, 0x9B, 0x00]))
    (fun t => decide (t.bitLen = 9 ∧ t.pad = 7 ∧ t.symLen = 6 ∧
      [0, 1, 2, 3, 4, 5].map t.sym.read = [0x62, 0x61, 0x6E, 0x61, 0x6E, 0x61])) = true := by decide +kernel

/-- V-DEC-4: the outputs of the UNPACK body are cleared again. -/
theorem test_dec_error : nextSat (exec .dec (withPkt (ringB State.reset) [0x07, 0x9B]))
    (fun t => decide (t.statusWord = 0x22 ∧ t.errinfo = 0 ∧ t.bitLen = 0 ∧ t.pad = 0)) = true := by decide +kernel

/-! ### Host access -/

/-- V-MEM-8: reserved ranges read 0, one byte beyond SYM among them; V-MEM-10: malformed accesses; D25: words up to
0x7FF, bytes above. -/
theorem test_shapes : [shapeOk 0x20 4, shapeOk 0xC000 1, shapeOk 0x06 4, shapeOk 0x0C 1, shapeOk 0x100000 4] =
    [true, true, false, false, false] ∧
    [shapeOk 0x7FC 4, shapeOk 0x7FF 1, shapeOk 0x800 4, shapeOk 0x800 1, shapeOk 0x3FFC 4, shapeOk 0x3FFF 1] =
      [true, false, false, true, false, true] ∧ locate Params.thisHardware 0x110000 = .reserved := by decide

/-- The addresses listed under V-BUILD-1: FREQ[0x61], CODE[0x62], RING[0x6E]; and the last byte of PKT. -/
theorem test_addresses : locate Params.thisHardware 0x0584 = .freq 0x61 ∧
    locate Params.thisHardware 0x5880 = .code 0x62 0 ∧ locate Params.thisHardware 0x9B84 = .ring 0x6E 4 ∧
    locate Params.thisHardware 0x220000 = .pkt 131072 ∧ locate Params.thisHardware 0x220001 = .reserved := by
  decide +kernel

/-- V-MEM-5: the FLAGS byte keeps bit 0 only. -/
theorem test_ring_flags :
    (State.reset.locWrite 0xFF (.ring 0 2)).locRead (.ring 0 2) = 1 ∧
      (State.reset.locWrite 0xAA (.ring 0 40)).locRead (.ring 0 40) = 0 := by decide +kernel

/-- The encoded transactions of program P2's second line, `ring 1, 0x62, "10"`. -/
theorem test_ring_line : (ScriptLine.ring 1 0x62 [true, false]).events =
    [.access (.write 0x8042 1 0x00), .access (.write 0x8040 1 0x02), .access (.write 0x8041 1 0x62),
      .access (.write 0x8044 1 0x80), .access (.write 0x8042 1 0x01)] := by decide +kernel

/-- A placed word is the next thing that runs, from reset. -/
theorem test_withFetchWord : nextSat (step (State.reset.withFetchWord 32 0x2F))
    (fun t => decide (t.statusWord = 0x32 ∧ t.errinfo = 0xFFFF_FFFF ∧ t.script = [])) = true := by decide +kernel

/-! ### Witnesses: states and operands that meet the hypotheses of the statements -/

/-- A block with small capacities, about to see the given events. -/
def facing (es : List Event) : State := { State.reset with params := small, script := es }

/-- A block with a command in progress. -/
def busyWith (es : List Event) : State := { facing es with inFlight := some 0x1F }

theorem witness_DecodeAndEncodeAgree : Instr.wf .dec = true ∧ decode 0x2F#32 = .ok .dec := by decide

theorem witness_StepRunsTheDecodedCommand :
    (facing [.access (.write 0 4 0x1F)]).script = .access (.write 0 4 0x1F) :: [] ∧
      (facing [.access (.write 0 4 0x1F)]).busy = false ∧ decode 0x1F#32 = .ok .enc ∧
      32 ≤ 32 ∧ decodeTableWord 32 0x1F = some .enc := by decide +kernel

theorem witness_IllegalWordChangesOnlyStatus :
    (facing [.access (.write 0 4 0x11F)]).script = .access (.write 0 4 0x11F) :: [] ∧
      (facing [.access (.write 0 4 0x11F)]).busy = false ∧ ∀ i : Instr, encode i ≠ 0x11F#32 :=
  ⟨rfl, rfl, fun i => by cases i <;> decide⟩

/-- UNPACK of the packet [00]: the extent is empty, so index 0 is already beyond it. -/
theorem witness_CommandChangesOnlyItsOutputs : small.wf = true ∧ Buf.bits ∈ (outputsOf .unpack).bufs ∧
    ∃ t, exec .unpack (withPkt (facing []) [0x00]) = .next t ∧ decide (t.err = none ∧ t.extent .bits ≤ 0) = true :=
  ⟨by decide, by decide, exists_of_nextSat (by decide +kernel)⟩

theorem witness_InputsAndOutputsAreDisjoint : Reg.symLen ∈ (inputsOf .enc).regs ∧ Tab.code ∈ (inputsOf .map).tabs ∧
    Buf.pkt ∈ (inputsOf .dec).bufs := by decide

/-- A HIST that fails: used for `FailedCommandClearsItsOutputs` and `FailureRepeats`. -/
theorem witness_FailedCommandClearsItsOutputs :
    ∃ t, exec .hist { facing [] with symLen := 9 } = .next t ∧ decide (t.err ≠ none) = true :=
  exists_of_nextSat (by decide +kernel)

theorem witness_FailureRepeats :
    ∃ t, exec .dec (facing []) = .next t ∧ decide (t.err ≠ none) = true := exists_of_nextSat (by decide +kernel)

/-- Two states that agree on HIST's inputs and differ in PAD, the flags and an older output. -/
theorem witness_CommandDependsOnItsInputsAlone :
    AgreeOn (inputsOf .hist) banana { banana with pad := 3, done := true, freq := Vector.replicate 256 7 } ∧
      (∃ t, exec .hist banana = .next t) ∧
      ∃ t, exec .hist { banana with pad := 3, done := true, freq := Vector.replicate 256 7 } = .next t :=
  ⟨⟨rfl, by simp [inputsOf, State.reg], by simp [inputsOf], by simp [inputsOf, State.buf]⟩, exists_exec_eq_next _ _,
    exists_exec_eq_next _ _⟩

theorem witness_IssueThenCompleteEqualsOneStep :
    (facing [.issue 0x20, .complete]).script = .issue 0x20 :: .complete :: [] ∧
      (facing [.issue 0x20, .complete]).busy = false := ⟨rfl, rfl⟩

theorem witness_BusyAllowsOnlyStatusReads :
    (busyWith [.access (.read 4 4)]).busy = true ∧ (busyWith []).done = false ∧ (busyWith []).err = none ∧
      ¬((8 : Addr) = 4 ∧ 4 = 4) ∧ ¬((4 : Addr) = 4 ∧ 1 = 4) := by decide

theorem witness_StepStopsOnlyOnForbiddenAccesses :
    step (busyWith [.access (.read 8 4)]) = .refused .accessWhileBusy ∧
      step (facing [.access (.read 6 4)]) = .refused .malformedAccess ∧
      nextSat (step (facing [.access (.read 4 4)])) (fun t => decide (t.reads = [0])) = true :=
  ⟨rfl, rfl, by decide +kernel⟩

theorem witness_ResetInputResets : (busyWith [.rst]).script = .rst :: [] := rfl

theorem codedSymbols_reset : codedSymbols State.reset.code = [] := by
  refine List.filter_eq_nil_iff.2 fun x _ => ?_
  rw [show State.reset.code.entry x = CodeEntry.zero from Table.entry_replicate _ x]
  exact Bool.false_ne_true

theorem freqTotal_reset : freqTotal State.reset.freq = 0 := by
  have h : allSymbols.map (fun x => (State.reset.freq.entry x).toNat) = List.replicate 256 0 := by
    refine List.eq_replicate_iff.2 ⟨by simp, fun b hb => ?_⟩
    obtain ⟨x, -, rfl⟩ := List.mem_map.1 hb
    rw [show State.reset.freq.entry x = 0 from Table.entry_replicate _ x]
    rfl
  rw [freqTotal, h, List.sum_replicate]
  rfl

/-- A busy block meets the invariant and can step. -/
theorem witness_StepKeepsTheInvariant : State.Inv (busyWith [.complete]) ∧ ∃ t, step (busyWith [.complete]) = .next t :=
  ⟨{ params := by decide
     symFits := Buffer.Fits.unspecified 0 _
     bitsFits := Buffer.Fits.unspecified 1 _
     pktFits := Buffer.Fits.unspecified 2 _
     draws := by decide
     drawsDiffer := by decide
     busyNotDone := fun _ => rfl
     errWhenDone := fun _ => rfl
     infoWhenErr := fun _ => rfl
     freqBound := by
       change freqTotal State.reset.freq ≤ 8
       rw [freqTotal_reset]
       omega
     codeForm := fun x => by
       have h : (busyWith [.complete]).code.entry x = CodeEntry.zero := Table.entry_replicate _ x
       rw [h]
       exact ⟨fun _ => rfl, fun h => by cases h⟩
     nsymCounts := by
       change (0 : BitVec 9).toNat = (codedSymbols State.reset.code).length
       rw [codedSymbols_reset]
       rfl },
    exists_engineStep_eq_next { busyWith [.complete] with script := [] }⟩

theorem witness_StepKeepsCodesPrefixFree :
    PrefixFree (withCode (facing []) 5 [false]).code ∧ ∃ t, step (withCode (facing []) 5 [false]) = .next t := by
  refine ⟨fun x y hx hy hxy => ?_, _, rfl⟩
  simp only [withCode, facing, State.reset, Table.entry_put, Table.entry_replicate] at hx hy
  by_cases h1 : x = 5 <;> by_cases h2 : y = 5 <;> simp_all

/-- SYM_LEN = SYM_CAP and SYM_LEN = SYM_CAP + 1. -/
theorem witness_HistCountsTheMessage :
    ({ facing [] with symLen := 8 } : State).symLen.toNat ≤ small.symCap ∧
      small.symCap < ({ facing [] with symLen := 9 } : State).symLen.toNat := by decide

/-- "abcd": four codes of two bits, which exactly fill BIT_CAP = 8 (V-ENC-4). -/
def abcd : State := withSym small [0x61, 0x62, 0x63, 0x64]

/-- "abcd" can be compressed: the hypotheses of the statements about a successful ENC. -/
theorem abcd_enc : ∃ t, exec .enc abcd = .next t ∧ decide (t.err = none) = true := exists_of_nextSat (by decide +kernel)

theorem witness_FreqSumsToTheMessageLength :
    (∃ t, exec .hist abcd = .next t ∧ decide (t.err = none) = true) ∧
      ∃ t, exec .enc abcd = .next t ∧ decide (t.err = none) = true :=
  ⟨exists_of_nextSat (by decide +kernel), abcd_enc⟩

theorem witness_NodeOrderIsStrictAndTotal :
    Node.lt ⟨1, [9]⟩ ⟨2, [3]⟩ = true ∧ Node.lt ⟨2, [3]⟩ ⟨2, [4, 1]⟩ = true ∧ Node.mk 1 [9] ≠ Node.mk 2 [3] ∧
      (1 : Word) < 2 ∧ ([3, 7, 1] : List Symbol) = [3] ++ 7 :: [1] ∧ ([3, 9] : List Symbol) = [3] ++ 9 :: [] ∧
      (7 : Symbol) ≠ 9 ∧ Node.lt ⟨2, [3, 7, 1]⟩ ⟨2, [3, 9]⟩ = true ∧
      [3] <+: ([3, 1] : List Symbol) ∧ [3] ≠ ([3, 1] : List Symbol) := by decide

theorem witness_PopMinTakesTheLeast :
    popMin [⟨3, [0x61]⟩, ⟨1, [0x62]⟩, ⟨2, [0x6E]⟩] = some (⟨1, [0x62]⟩, [⟨3, [0x61]⟩, ⟨2, [0x6E]⟩]) := by decide

/-- Two symbols, the least number that is merged (V-BUILD-14). -/
def twoSymbols : State := { facing [] with freq := countSymbols [0x05, 0xC8] }

theorem witness_BuildFollowsTheMerges : 2 ≤ Multiset.card (leaves twoSymbols.freq) := by decide +kernel

theorem witness_BuildOfOneSymbol :
    ({ facing [] with freq := Table.put (Vector.replicate 256 0) 0x41 4 } : State).freq.entry 0x41 ≠ 0 ∧
      ∀ y, y ≠ 0x41 → ({ facing [] with freq := Table.put (Vector.replicate 256 0) 0x41 4 } : State).freq.entry y = 0 :=
  ⟨by simp, fun y hy => (Table.entry_put_other _ _ hy).trans (Table.entry_replicate _ _)⟩

theorem witness_EmptyInputIsAnError : (∀ x, (facing []).freq.entry x = 0) ∧ (facing []).symLen = 0 :=
  ⟨fun x => by simp [facing, State.reset], rfl⟩

theorem witness_BuildGivesAPrefixCode : ∃ x, twoSymbols.freq.entry x ≠ 0 := ⟨0xC8, by decide +kernel⟩

theorem witness_CodesAreThePathsOfTheCodeTree :
    ∃ t, exec .build twoSymbols = .next t ∧ decide (t.err = none) = true := exists_of_nextSat (by decide +kernel)

/-- V-MAP-7: a symbol with a code of three bits, three times, against BIT_CAP = 8. -/
def threeTimesThree : State := withCode (withSym small [0x61, 0x61, 0x61]) 0x61 [true, true, false]

/-- Each clause of MAP: SYM_LEN = SYM_CAP + 1; eight bits that exactly fit; no code for the first symbol; nine bits. -/
theorem witness_MapConcatenatesTheCodes :
    small.symCap < ({ facing [] with symLen := 9 } : State).symLen.toNat ∧
    (∀ x ∈ (withCode (withSym small (List.replicate 8 0x41)) 0x41 [false]).message,
      ((withCode (withSym small (List.replicate 8 0x41)) 0x41 [false]).code.entry x).valid = true) ∧
    ((withCode (withSym small (List.replicate 8 0x41)) 0x41 [false]).message.map fun x =>
      ((withCode (withSym small (List.replicate 8 0x41)) 0x41 [false]).code.entry x).len.toNat).sum = small.bitCap ∧
    abcd.message = [] ++ 0x61 :: [0x62, 0x63, 0x64] ∧ (abcd.code.entry 0x61).valid = false ∧
    threeTimesThree.message = [0x61, 0x61] ++ 0x61 :: [] ∧ (threeTimesThree.code.entry 0x61).valid = true ∧
    ([0x61, 0x61].map fun x => (threeTimesThree.code.entry x).len.toNat).sum ≤ small.bitCap ∧
    small.bitCap < (([0x61, 0x61] ++ [0x61]).map fun x => (threeTimesThree.code.entry x).len.toNat).sum := by
  decide +kernel

/-- BIT_LEN = BIT_CAP and BIT_LEN = BIT_CAP + 1. -/
theorem witness_PackWritesThePacket :
    (withBits (facing []) [0x1B] 8).bitLen.toNat ≤ small.bitCap ∧
      small.bitCap < (withBits (facing []) [0x1B] 9).bitLen.toNat := by decide +kernel

theorem witness_PadArithmetic : (9 + 7) % 8 = 0 := by decide

/-- Each clause of ENC: SYM_CAP + 1 symbols; none; "abcde", twelve bits; "abcd", exactly eight bits. -/
theorem witness_EncCompressesTheMessage :
    small.wf = true ∧ small.symCap < ({ facing [] with symLen := 9 } : State).symLen.toNat ∧ (facing []).symLen = 0 ∧
    (let m := (withSym small [0x61, 0x62, 0x63, 0x64, 0x65]).message
     0 < m.length ∧ m.length ≤ small.symCap ∧ small.bitCap < (m.flatMap (buildCodes (countSymbols m))).length) ∧
    (let m := abcd.message
     0 < m.length ∧ m.length ≤ small.symCap ∧ (m.flatMap (buildCodes (countSymbols m))).length = small.bitCap) := by
  decide +kernel

theorem witness_EncEqualsTheFourCommands : ∃ t, exec .enc abcd = .next t ∧ decide (t.err = none) = true := abcd_enc

theorem witness_EncSizes : abcd.params.wf = true ∧ ∃ t, exec .enc abcd = .next t ∧ decide (t.err = none) = true :=
  ⟨by decide, abcd_enc⟩

/-- Each clause of UNPACK and of DEC's first part: PKT_CAP + 1 bytes; none; a pad of 8; a pad of 1 and no payload; the
shortest buffer; PKT_CAP bytes with the largest pad. -/
theorem witness_UnpackDropsThePadBits :
    small.wf = true ∧ small.pktCap < (withPkt (facing []) [0, 0, 0]).pktLen.toNat ∧
    (withPkt (facing []) []).pktLen.toNat = 0 ∧
    7 < ((withPkt (facing []) [0x08]).pkt.read 0).toNat ∧
    8 * ((withPkt (facing []) [0x01]).pktLen.toNat - 1) < ((withPkt (facing []) [0x01]).pkt.read 0).toNat ∧
    ((withPkt (facing []) [0x00]).pkt.read 0).toNat ≤ 8 * ((withPkt (facing []) [0x00]).pktLen.toNat - 1) ∧
    (withPkt (facing []) [0x07, 0x80]).pktLen.toNat = small.pktCap ∧
    ((withPkt (facing []) [0x07, 0x80]).pkt.read 0).toNat = 7 := by decide +kernel

/-- SYM_CAP = 1, and the ring with the one key "0". -/
def oneKey (bs : List Byte) (n : Nat) : State :=
  withBits (withKey { facing [] with params := { symCap := 1, bitCap := 8 } } 0x41 0x41 [false]) bs n

theorem oneKey_holder (bs : List Byte) (n : Nat) : ShortestMatch (oneKey bs n).ring [false] 0x41 := by
  have e : ∀ k, (oneKey bs n).ring.entry k = if k = 0x41 then { CodeEntry.ofCode [false] with sym := 0x41 } else RingSlot.zero := by
    intro k
    simp [oneKey, withBits, withKey, facing, State.reset, Table.entry_put]
  refine ⟨by decide, ⟨by simp [e], by rw [e, if_pos rfl]; exact CodeEntry.key_ofCode (by decide), fun j hj h => ?_⟩, ?_⟩
  · rw [e, if_neg (by rintro rfl; simp at hj)] at h
    cases h.1
  · intro p hp hne hne'
    obtain ⟨r, hr⟩ := hp
    cases p with
    | nil => exact absurd rfl hne
    | cons b p => simp at hr; obtain ⟨rfl, rfl, rfl⟩ := hr; exact absurd rfl hne'

theorem oneKey_parses (bs : List Byte) (n : Nat) : Parses (oneKey bs n).ring [false] [0x41] := by
  have h := Parses.cons (oneKey_holder bs n) Parses.nil
  have e : ((oneKey bs n).ring.entry 0x41).sym = 0x41 := by
    simp [oneKey, withBits, withKey, facing, State.reset]
  rwa [e] at h

/-- Nothing that begins with a 1 bit is a key of that ring. -/
theorem oneKey_no_holder (bs : List Byte) (n : Nat) (p : BitString) : NoHolder (oneKey bs n).ring (true :: p) := by
  intro k h
  have e : (oneKey bs n).ring.entry k = if k = 0x41 then { CodeEntry.ofCode [false] with sym := 0x41 } else RingSlot.zero := by
    simp [oneKey, withBits, withKey, facing, State.reset, Table.entry_put]
  rw [e] at h
  by_cases hk : k = 0x41
  · rw [if_pos hk] at h
    have := h.2
    rw [show (RingSlot.toCodeEntry { CodeEntry.ofCode [false] with sym := 0x41 }).key = [false] from
      CodeEntry.key_ofCode (by decide)] at this
    simp at this
  · rw [if_neg hk] at h
    cases h.1

/-- Each clause of WALK: BIT_CAP + 1 bits; "0", one whole code; "01", which ends inside a code that began at bit 1; "00",
two symbols where one fits. -/
theorem witness_WalkDecodesWholeCodes :
    8 < (oneKey [0, 0] 9).bitLen.toNat ∧
    ((oneKey [0x00] 1).bitstring = [false] ∧ Parses (oneKey [0x00] 1).ring [false] [0x41]) ∧
    ((oneKey [0x40] 2).bitstring = [false, true] ∧ Parses (oneKey [0x40] 2).ring ([false, true].take 1) [0x41] ∧
      ∀ p, p <+: [false, true].drop 1 → p ≠ [] → NoHolder (oneKey [0x40] 2).ring p) ∧
    ((oneKey [0x00] 2).bitstring = [false, false] ∧ Parses (oneKey [0x00] 2).ring ([false, false].take 1) [0x41] ∧
      [0x41].length = (oneKey [0x00] 2).params.symCap ∧ [false] <+: [false, false].drop 1 ∧
      ShortestMatch (oneKey [0x00] 2).ring [false] 0x41) := by
  refine ⟨by decide, ⟨by decide +kernel, oneKey_parses _ _⟩, ⟨by decide +kernel, oneKey_parses _ _, fun p hp hne => ?_⟩,
    by decide +kernel, oneKey_parses _ _, rfl, by decide, oneKey_holder _ _⟩
  obtain ⟨r, hr⟩ := hp
  cases p with
  | nil => exact absurd rfl hne
  | cons b p => simp at hr; obtain ⟨rfl, rfl, rfl⟩ := hr; exact oneKey_no_holder _ _ []

/-- Each clause of DEC beyond UNPACK's: the same three bit strings as payloads. -/
theorem witness_DecDecompressesThePacket :
    ((withPkt (oneKey [] 0) [0x07, 0x00]).payloadBits 1 = [false] ∧ Parses (oneKey [] 0).ring [false] [0x41]) ∧
    ((withPkt (oneKey [] 0) [0x06, 0x40]).payloadBits 2 = [false, true] ∧
      Parses (oneKey [] 0).ring ([false, true].take 1) [0x41] ∧ NoHolder (oneKey [] 0).ring [true]) ∧
    ((withPkt (oneKey [] 0) [0x06, 0x00]).payloadBits 2 = [false, false] ∧
      Parses (oneKey [] 0).ring ([false, false].take 1) [0x41] ∧ ShortestMatch (oneKey [] 0).ring [false] 0x41) :=
  ⟨⟨by decide +kernel, oneKey_parses _ _⟩, ⟨by decide +kernel, oneKey_parses _ _, oneKey_no_holder _ _ []⟩,
    by decide +kernel, oneKey_parses _ _, oneKey_holder _ _⟩

theorem witness_DecEqualsUnpackThenWalk : abcd.params.wf = true ∧ ∃ t t1 t2, exec .dec abcd = .next t ∧
    exec .unpack abcd = .next t1 ∧ exec .walk t1 = .next t2 := by
  obtain ⟨t, h⟩ := exists_exec_eq_next .dec abcd
  obtain ⟨t1, h1⟩ := exists_exec_eq_next .unpack abcd
  obtain ⟨t2, h2⟩ := exists_exec_eq_next .walk t1
  exact ⟨by decide, t, t1, t2, h, h1, h2⟩

theorem witness_RoundTripOfBits : abcd.params.wf = true ∧ ∃ t1 t2 t3, exec .hist abcd = .next t1 ∧ t1.err = none ∧
    exec .build t1 = .next t2 ∧ t2.err = none ∧ exec .map t2 = .next t3 ∧ t3.err = none := by
  have h : nextSat (exec .hist abcd) (fun t1 => decide (t1.err = none) && nextSat (exec .build t1) fun t2 =>
    decide (t2.err = none) && nextSat (exec .map t2) fun t3 => decide (t3.err = none)) = true := by decide +kernel
  obtain ⟨t1, h1, p1⟩ := exists_of_nextSat h
  obtain ⟨e1, p1⟩ := Bool.and_eq_true_iff.1 p1
  obtain ⟨t2, h2, p2⟩ := exists_of_nextSat p1
  obtain ⟨e2, p2⟩ := Bool.and_eq_true_iff.1 p2
  obtain ⟨t3, h3, e3⟩ := exists_of_nextSat p2
  exact ⟨by decide, t1, t2, t3, h1, of_decide_eq_true e1, h2, of_decide_eq_true e2, h3, of_decide_eq_true e3⟩

/-- The state that ENC leaves, with another NSYM, has the packet, ring and parameters that ENC left. -/
theorem witness_RoundTripOfPackets : abcd.params.wf = true ∧ ∃ t u : State, exec .enc abcd = .next t ∧ t.err = none ∧
    u.params = t.params ∧ u.ring = t.ring ∧ u.pktLen = t.pktLen ∧ (∀ k < t.pktLen.toNat, u.pkt.read k = t.pkt.read k) ∧
    u.nsym = 0 := by
  obtain ⟨t, h, e⟩ := abcd_enc
  exact ⟨by decide, t, { t with nsym := 0 }, h, of_decide_eq_true e, rfl, rfl, rfl, fun _ _ => rfl, rfl⟩

theorem witness_OneRepeatedByte :
    let s := withSym small (List.replicate 8 0x41)
    s.params.wf = true ∧ 0 < s.symLen.toNat ∧ s.symLen.toNat = s.params.symCap ∧ s.symLen.toNat = s.params.bitCap ∧
      ∀ y ∈ s.message, y = 0x41 := by decide +kernel

/-- The last byte of each buffer, and the bounds of each reserved range. -/
theorem witness_AddressMapIsAsListed : small.wf = true ∧ 7 < small.symCap ∧ 1 < small.pktCap ∧ 0 < small.bitCap / 8 ∧
    locate small 0x100007 = .sym 7 ∧ locate small 0x200001 = .pkt 1 ∧ locate small 0x400000 = .bits 0 ∧
    [0x20, 0x3FF, 0x800, 0x3FFF, 0xC000, 0xFFFFF, 0x100008, 0x1FFFFF, 0x200002, 0x3FFFFF, 0x400001, 0x7FFFFF].map
      (locate small) = List.replicate 12 .reserved := by decide +kernel

theorem witness_ReadsHaveNoSideEffect :
    (facing [.access (.read 0x3FC 4), .access (.read 0x3FC 4)]).busy = false ∧
      ¬ Malformed (0x3FC : Addr).toNat 4 ∧ ¬ Malformed (0x800 : Addr).toNat 1 ∧
      locate small (0x3FC : Addr).toNat = .reserved ∧ locate small (0x800 : Addr).toNat = .reserved := by
  refine ⟨rfl, by simp [Malformed], by simp [Malformed], by decide, by decide⟩

theorem witness_WriteIsReadBackAndNothingElseChanges :
    Location.ring 0 35 ≠ Location.ring 0 36 ∧ Location.sym 0 ≠ Location.pkt 0 := by decide

theorem witness_ReadOnlyLocationsIgnoreWrites :
    (facing [.access (.write 0x18 4 5)]).busy = false ∧ ¬ Malformed (0x18 : Addr).toNat 4 ∧
      locate small (0x18 : Addr).toNat = .register .pad ∧ locate small (0x7FC : Addr).toNat = .freq 0xFF ∧
      locate small (0x7FFF : Addr).toNat = .code 0xFF 63 ∧ locate small (0x8003 : Addr).toNat = .ring 0 3 ∧
      locate small (0xBFE4 : Addr).toNat = .ring 0xFF 36 ∧ locate small (0xC000 : Addr).toNat = .reserved := by
  refine ⟨rfl, by simp [Malformed], by decide, by decide, by decide, by decide, by decide, by decide⟩

theorem witness_MalformedAccessIsRefused :
    (facing [.access (.read 6 4)]).busy = false ∧ Malformed (6 : Addr).toNat 4 ∧ Malformed (0x7FF : Addr).toNat 1 ∧
      Malformed (0x800 : Addr).toNat 4 ∧ Malformed (0x3FFC : Addr).toNat 4 ∧ Malformed (0x4000 : Addr).toNat 4 ∧
      Malformed (0 : Addr).toNat 2 := by
  simp [Malformed, facing, State.busy, State.reset]

/-- A key of 255 bits, the longest. -/
theorem witness_RingLineLoadsASlot :
    let l := ScriptLine.ring 255 0x41 (List.replicate 255 true)
    (facing (l.events ++ [])).busy = false ∧ (List.replicate 255 true).length ≤ 255 ∧
      (facing (l.events ++ [])).script = l.events ++ [] := ⟨rfl, by rw [List.length_replicate], rfl⟩

/-- Data that exactly fills each buffer. -/
theorem witness_LoadLinesSetTheInputs :
    (facing []).busy = false ∧ small.wf = true ∧ (List.replicate 8 (0x41 : Byte)).length = small.symCap ∧
      (List.replicate 2 (0x41 : Byte)).length = small.pktCap ∧ (List.replicate 8 true).length = small.bitCap := by decide

/-- The last byte of CODE, of each buffer, and of the address space. -/
theorem witness_HostReadReturnsTheContents :
    (facing [.access (.read 0x7FFF 1)]).busy = false ∧ small.wf = true ∧
      (facing [.access (.read 0x7FFF 1)]).script = .access (.read (BitVec.ofNat 23 (0x4000 + 64 * 0xFF + 63)) 1) :: [] ∧
      (2 : Word).toNat = 2 * true.toNat + 16 * errNumber none ∧
      7 < small.symCap ∧ 1 < small.pktCap ∧ 0 < small.bitCap / 8 ∧ 0x7FFFFF < 0x800000 ∧
      ¬ Malformed 0x7FFFFF 1 ∧ locate small 0x7FFFFF = .reserved := by
  refine ⟨rfl, by decide, rfl, by decide, by decide, by decide, by decide, by decide, by simp [Malformed], by decide⟩

/-- The three length registers, the last byte of each buffer and the last of RING. -/
theorem witness_HostWriteStoresItsData :
    (facing [.access (.write 0x0C 4 9)]).busy = false ∧ small.wf = true ∧
      (∀ a ∈ [(0x0C : Addr), 0x10, 0x14], ¬ Malformed a.toNat 4 ∧ a ≠ 0) ∧
      (∀ a ∈ [(0x100007 : Addr), 0x200001, 0x400000, 0xBFFF], ¬ Malformed a.toNat 1 ∧ a ≠ 0) ∧
      (0x100007 : Addr).toNat = 0x100000 + 7 ∧ (0x200001 : Addr).toNat = 0x200000 + 1 ∧
      (0x400000 : Addr).toNat = 0x400000 + 0 ∧ (0xBFFF : Addr).toNat = 0x8000 + 64 * (0xFF : Symbol).toNat + 63 ∧
      7 < small.symCap ∧ 1 < small.pktCap ∧ 0 < small.bitCap / 8 := by
  refine ⟨rfl, by decide, by simp [Malformed], by simp [Malformed], ?_⟩
  decide

end Sys2Proof.Tests
end

