-- ==== Sys2Proof/Proofs/Rules.lean ====
section
/-! PROOFS. Each command's rule (40_control.md R120) as the answer its checks compute and one write of that answer into the
state, so that a proof about a rule is a fact about the answer and a fact about the write. -/

namespace Sys2Proof.Machine

/-! ### The writes -/

/-- HIST's write: FREQ anew (41_frequency_and_tree.md R130). -/
def State.putFreq (s : State) (f : Table Word) : State := { s with freq := f }

/-- BUILD's write: CODE, RING and NSYM from FREQ (41_frequency_and_tree.md R132). -/
def State.putCodes (s : State) : State :=
  { s with
    nsym := BitVec.ofNat 9 (initialQueue s.freq).length
    code := codeTable s.freq (buildCodes s.freq)
    ring := ringTable s.freq (buildCodes s.freq) }

/-- PACK's write: the packet of a bitstring, its length and its pad length (42_map_and_pack.md R161). -/
def State.putPacket (s : State) (b : BitString) : State :=
  { s with
    pkt := s.pkt.writeFrom 0 (packetOf b)
    pktLen := BitVec.ofNat 32 (packetOf b).length
    pad := BitVec.ofNat 3 (padOf b.length) }

/-- UNPACK's write: a bitstring and the pad length found (43_unpack_and_walk.md R190). -/
def State.putUnpacked (s : State) (pad : Nat) (b : BitString) : State :=
  { s.putBitstring b with pad := BitVec.ofNat 3 pad }

/-- WALK's write: a message and its length (43_unpack_and_walk.md R191). -/
def State.putMessage (s : State) (m : List Symbol) : State :=
  { s with sym := s.sym.writeFrom 0 m, symLen := BitVec.ofNat 32 m.length }

/-! ### The rules -/

/-- A body that ends by returning a value is a map. -/
theorem bind_ok_eq_map {α β : Type} (x : Except Raised α) (f : α → β) : (x.bind fun a => .ok (f a)) = x.map f := by
  cases x <;> rfl

theorem bind_bind_ok_eq_map {α β γ : Type} (x : Except Raised α) (g : α → Except Raised β) (f : β → γ) :
    (x.bind fun a => (g a).bind fun b => .ok (f b)) = (x.bind g).map f := by
  cases x with
  | error r => rfl
  | ok a => exact bind_ok_eq_map (g a) f

/-- A result of a map is a value's. -/
theorem map_eq_ok {α β : Type} {x : Except Raised α} {f : α → β} {b : β} (h : x.map f = .ok b) :
    ∃ a, x = .ok a ∧ f a = b := by
  cases x with
  | error r => cases h
  | ok a => exact ⟨a, rfl, Except.ok.inj h⟩

/-- A result of two bodies one after another is the second's from a result of the first. -/
theorem bind_eq_ok {α β : Type} {x : Except Raised α} {f : α → Except Raised β} {b : β} (h : x.bind f = .ok b) :
    ∃ a, x = .ok a ∧ f a = .ok b := by
  cases x with
  | error r => cases h
  | ok a => exact ⟨a, rfl, h⟩

/-- CLR's rule is the clearing of its outputs over again. -/
theorem clrRule_eq (s : State) : clrRule s = .ok (s.cleared (outputsOf .clr)) := rfl

theorem histRule_eq (s : State) : histRule s = s.messageOperand.map fun m => s.putFreq (countSymbols m) :=
  bind_ok_eq_map _ _

theorem buildRule_eq (s : State) :
    buildRule s = if (initialQueue s.freq).length = 0 then .error { err := .empty, info := 0 } else .ok s.putCodes := rfl

theorem mapRule_eq (s : State) :
    mapRule s = (s.messageOperand.bind (mapLoop s.code s.params.bitCap 0 [])).map s.putBitstring :=
  bind_bind_ok_eq_map _ _ _

theorem packRule_eq (s : State) : packRule s = s.bitstringOperand.map s.putPacket := bind_ok_eq_map _ _

theorem unpackRule_eq (s : State) :
    unpackRule s = s.packetOperand.map fun p => s.putUnpacked p.1 (s.payloadBits p.2) := bind_ok_eq_map _ _

theorem walkRule_eq (s : State) :
    walkRule s = (s.bitstringOperand.bind (walkLoop s.ring s.params.symCap [] 0 0 [])).map s.putMessage :=
  bind_bind_ok_eq_map _ _ _

/-- ENC after its two checks: the four bodies one after another (42_map_and_pack.md R163). -/
theorem encRule_eq (s : State) :
    encRule s =
      if s.params.symCap < s.symLen.toNat then .error { err := .cap, info := 1 }
      else if s.symLen.toNat = 0 then .error { err := .empty, info := 0 }
      else histRule s >>= buildRule >>= mapRule >>= packRule := by
  rw [bind_assoc, bind_assoc]
  rfl

theorem decRule_eq (s : State) : decRule s = unpackRule s >>= walkRule := rfl

/-! ### The pad check and the stored lengths -/

/-- What the pad check lets pass: a pad length of at most 7, and no more bits than the payload has (R190). -/
theorem packetOperand_eq_ok {s : State} {pad L : Nat} (h : s.packetOperand = .ok (pad, L)) :
    s.pktLen.toNat ≤ s.params.pktCap ∧ pad ≤ 7 ∧ L ≤ 8 * (s.pktLen.toNat - 1) := by
  simp only [State.packetOperand] at h
  split at h
  · cases h
  split at h
  · cases h
  split at h
  · cases h
  split at h
  · cases h
  · cases h
    omega

/-- A length as a register holds it, whether or not it wraps. -/
theorem toNat_ofNat_le (n : Nat) : (BitVec.ofNat 32 n).toNat ≤ n := by
  rw [BitVec.toNat_ofNat]
  exact Nat.mod_le _ _

end Sys2Proof.Machine
end

