-- ==== Sys2Proof/Proofs/Agreement.lean ====
section
/-! PROOFS. What a command's rule reads and writes (10_state.md R40): two states that agree on a rule's inputs give the same
raise, or results that agree on its outputs too. Settles O11. -/

namespace Sys2Proof.Machine

/-! ### Sets of items -/

/-- Two sets of items together. -/
def Items.union (o p : Items) : Items :=
  { regs := o.regs ++ p.regs, tabs := o.tabs ++ p.tabs, bufs := o.bufs ++ p.bufs }

/-- One set of items inside another. -/
abbrev Items.Within (p o : Items) : Prop := p.regs ⊆ o.regs ∧ p.tabs ⊆ o.tabs ∧ p.bufs ⊆ o.bufs

theorem Items.within_union_left (o p : Items) : o.Within (o.union p) := by simp [Items.Within, Items.union]

theorem Items.within_union_right (o p : Items) : p.Within (o.union p) := by simp [Items.Within, Items.union]

/-- The registers and tables among the outputs of a command, the part that its start clears (40_control.md R120). -/
def Items.clearable (o : Items) : Items := { o with bufs := [] }

/-! ### Agreement -/

/-- Fewer items are agreed on a fortiori. -/
theorem AgreeOn.mono {o p : Items} {s t : State} (h : AgreeOn o s t) (hp : p.Within o) : AgreeOn p s t :=
  ⟨h.params, fun r m => h.regs r (hp.1 m), fun x m => h.tabs x (hp.2.1 m), fun b m => h.bufs b (hp.2.2 m)⟩

/-- `t` is `s` but for the items of `p`, and no other buffer's extent has grown. -/
structure ChangesOnly (p : Items) (s t : State) : Prop where
  params : t.params = s.params
  regs : ∀ r, r ∉ p.regs → t.reg r = s.reg r
  tabs : ∀ x, x ∉ p.tabs → sameTab s t x
  bufs : ∀ b, b ∉ p.bufs → t.buf b = s.buf b
  extents : ∀ b, b ∉ p.bufs → t.extent b ≤ s.extent b

/-- Two states that agree, changed on the same items and agreeing on those, still agree on all the rest. -/
theorem AgreeOn.extend {o p : Items} {s s' t t' : State} (h : AgreeOn o s s') (hs : ChangesOnly p s t)
    (hs' : ChangesOnly p s' t') (hp : AgreeOn p t t') : AgreeOn (o.union p) t t' where
  params := hp.params
  regs r hr := by
    by_cases hm : r ∈ p.regs
    · exact hp.regs r hm
    · rw [hs.regs r hm, hs'.regs r hm, h.regs r ((List.mem_append.1 hr).resolve_right hm)]
  tabs x hx := by
    by_cases hm : x ∈ p.tabs
    · exact hp.tabs x hm
    · have hx' := h.tabs x ((List.mem_append.1 hx).resolve_right hm)
      have e := hs.tabs x hm
      have e' := hs'.tabs x hm
      cases x <;> exact e.symm.trans (hx'.trans e')
  bufs b hb k hk := by
    by_cases hm : b ∈ p.bufs
    · exact hp.bufs b hm k hk
    · rw [hs.bufs b hm, hs'.bufs b hm]
      exact h.bufs b ((List.mem_append.1 hb).resolve_right hm) k (hk.trans_le (hs.extents b hm))

/-! ### The operands depend on the inputs alone -/

section
variable {o : Items} {s t : State} (h : AgreeOn o s t)
include h

theorem messageOperand_congr (hr : Reg.symLen ∈ o.regs) (hb : Buf.sym ∈ o.bufs) : s.messageOperand = t.messageOperand := by
  have hl : s.symLen = t.symLen := h.regs _ hr
  have hm : s.message = t.message := by
    rw [State.message, State.message, ← hl]
    exact List.map_congr_left fun k hk => h.bufs .sym hb k (List.mem_range.1 hk)
  simp only [State.messageOperand, h.params, hl, hm]

theorem bitstringOperand_congr (hr : Reg.bitLen ∈ o.regs) (hb : Buf.bits ∈ o.bufs) :
    s.bitstringOperand = t.bitstringOperand := by
  have hl : s.bitLen = t.bitLen := h.regs _ hr
  have hm : s.bitstring = t.bitstring := by
    rw [State.bitstring, State.bitstring, ← hl]
    exact bitsOf_congr (h.bufs .bits hb)
  simp only [State.bitstringOperand, h.params, hl, hm]

/-- The pad length is read from PKT[0] only when PKT_LEN says that it is there. -/
theorem packetOperand_congr (hr : Reg.pktLen ∈ o.regs) (hb : Buf.pkt ∈ o.bufs) : s.packetOperand = t.packetOperand := by
  have hl : s.pktLen = t.pktLen := h.regs _ hr
  by_cases h0 : s.pktLen.toNat = 0
  · simp [State.packetOperand, h.params, ← hl, h0]
  · have hp : s.pkt.read 0 = t.pkt.read 0 := h.bufs .pkt hb 0 (Nat.pos_of_ne_zero h0)
    simp only [State.packetOperand, h.params, hl, hp]

/-- The payload bits that UNPACK keeps lie in the bytes after the first. -/
theorem payloadBits_congr (hb : Buf.pkt ∈ o.bufs) {n : Nat} (hn : n ≤ 8 * (s.pktLen.toNat - 1)) :
    s.payloadBits n = t.payloadBits n := by
  refine bitsOf_congr fun k hk => h.bufs .pkt hb (1 + k) ?_
  simp only [bytesFor] at hk
  simp only [State.extent]
  omega

end

/-! ### The writes change their outputs alone, and alike -/

/-- A byte inside the extent is the byte written, whatever the buffer held. -/
theorem Buffer.read_writeFrom_congr (b c : Buffer) {vs : List Byte} {k : Nat} (h : k < vs.length) :
    (b.writeFrom 0 vs).read k = (c.writeFrom 0 vs).read k := by
  rw [(b.extended_writeFrom vs).1 k h, (c.extended_writeFrom vs).1 k h]

theorem changesOnly_cleared (s : State) (o : Items) : ChangesOnly o.clearable s (s.cleared o) where
  params := rfl
  regs r hr := by cases r <;> simp_all [State.reg, Items.clearable]
  tabs x hx := by cases x <;> simp_all [sameTab, Items.clearable]
  bufs b _ := cleared_buf o s b
  extents b _ := by
    cases b <;> simp only [State.extent, State.cleared_symLen, State.cleared_bitLen, State.cleared_pktLen] <;>
      split <;> simp [bytesFor]

theorem AgreeOn.cleared {o : Items} {s t : State} (h : AgreeOn o s t) (p : Items) :
    AgreeOn (o.union p.clearable) (s.cleared p) (t.cleared p) := by
  refine h.extend (changesOnly_cleared s p) (changesOnly_cleared t p) ⟨h.params, fun r hr => ?_, fun x hx => ?_, ?_⟩
  · cases r <;> simp_all [State.reg, Items.clearable]
  · cases x <;> simp_all [sameTab, Items.clearable]
  · simp [Items.clearable]

theorem changesOnly_putFreq (s : State) (f : Table Word) : ChangesOnly (outputsOf .hist) s (s.putFreq f) where
  params := rfl
  regs _ _ := rfl
  tabs x hx := by cases x <;> simp_all [sameTab, State.putFreq, outputsOf]
  bufs _ _ := rfl
  extents _ _ := le_rfl

theorem changesOnly_putCodes (s : State) : ChangesOnly (outputsOf .build) s s.putCodes where
  params := rfl
  regs r hr := by cases r <;> simp_all [State.reg, State.putCodes, outputsOf]
  tabs x hx := by cases x <;> simp_all [sameTab, State.putCodes, outputsOf]
  bufs _ _ := rfl
  extents _ _ := le_rfl

theorem changesOnly_putBitstring (s : State) (b : BitString) : ChangesOnly (outputsOf .map) s (s.putBitstring b) where
  params := rfl
  regs r hr := by cases r <;> simp_all [State.reg, outputsOf]
  tabs x _ := by cases x <;> rfl
  bufs c hc := by cases c <;> simp_all [State.buf, outputsOf]
  extents c hc := by cases c <;> simp_all [State.extent, outputsOf]

theorem changesOnly_putPacket (s : State) (b : BitString) : ChangesOnly (outputsOf .pack) s (s.putPacket b) where
  params := rfl
  regs r hr := by cases r <;> simp_all [State.reg, State.putPacket, outputsOf]
  tabs x _ := by cases x <;> rfl
  bufs c hc := by cases c <;> simp_all [State.buf, State.putPacket, outputsOf]
  extents c hc := by cases c <;> simp_all [State.extent, State.putPacket, outputsOf]

theorem changesOnly_putUnpacked (s : State) (pad : Nat) (b : BitString) :
    ChangesOnly (outputsOf .unpack) s (s.putUnpacked pad b) where
  params := rfl
  regs r hr := by cases r <;> simp_all [State.reg, State.putUnpacked, outputsOf]
  tabs x _ := by cases x <;> rfl
  bufs c hc := by cases c <;> simp_all [State.buf, State.putUnpacked, outputsOf]
  extents c hc := by cases c <;> simp_all [State.extent, State.putUnpacked, outputsOf]

theorem changesOnly_putMessage (s : State) (m : List Symbol) : ChangesOnly (outputsOf .walk) s (s.putMessage m) where
  params := rfl
  regs r hr := by cases r <;> simp_all [State.reg, State.putMessage, outputsOf]
  tabs x _ := by cases x <;> rfl
  bufs c hc := by cases c <;> simp_all [State.buf, State.putMessage, outputsOf]
  extents c hc := by cases c <;> simp_all [State.extent, State.putMessage, outputsOf]

/-- The extent that BIT_LEN gives lies within the bytes written, whether or not the length wraps. -/
theorem extent_putBitstring_le (s : State) (b : BitString) :
    (s.putBitstring b).extent .bits ≤ (bytesOf b).length := by
  have hl := toNat_ofNat_le b.length
  simp only [State.extent, State.putBitstring_bitLen, length_bytesOf, bytesFor]
  omega

section
variable {o : Items} {s t : State} (h : AgreeOn o s t)
include h

theorem AgreeOn.putFreq (f : Table Word) : AgreeOn (o.union (outputsOf .hist)) (s.putFreq f) (t.putFreq f) :=
  h.extend (changesOnly_putFreq s f) (changesOnly_putFreq t f)
    ⟨h.params, by simp [outputsOf], by simp [outputsOf, sameTab, State.putFreq], by simp [outputsOf]⟩

theorem AgreeOn.putCodes (hf : s.freq = t.freq) : AgreeOn (o.union (outputsOf .build)) s.putCodes t.putCodes :=
  h.extend (changesOnly_putCodes s) (changesOnly_putCodes t)
    ⟨h.params, by simp [outputsOf, State.reg, State.putCodes, hf], by simp [outputsOf, sameTab, State.putCodes, hf],
      by simp [outputsOf]⟩

theorem AgreeOn.putBitstring (b : BitString) :
    AgreeOn (o.union (outputsOf .map)) (s.putBitstring b) (t.putBitstring b) :=
  h.extend (changesOnly_putBitstring s b) (changesOnly_putBitstring t b)
    ⟨h.params, by simp [outputsOf, State.reg], by simp [outputsOf], List.forall_mem_singleton.2 fun _ hk =>
      Buffer.read_writeFrom_congr s.bits t.bits (hk.trans_le (extent_putBitstring_le s b))⟩

theorem AgreeOn.putUnpacked (pad : Nat) (b : BitString) :
    AgreeOn (o.union (outputsOf .unpack)) (s.putUnpacked pad b) (t.putUnpacked pad b) :=
  h.extend (changesOnly_putUnpacked s pad b) (changesOnly_putUnpacked t pad b)
    ⟨h.params, by simp [outputsOf, State.reg, State.putUnpacked], by simp [outputsOf],
      List.forall_mem_singleton.2 fun _ hk =>
        Buffer.read_writeFrom_congr s.bits t.bits (hk.trans_le (extent_putBitstring_le s b))⟩

theorem AgreeOn.putPacket (b : BitString) : AgreeOn (o.union (outputsOf .pack)) (s.putPacket b) (t.putPacket b) :=
  h.extend (changesOnly_putPacket s b) (changesOnly_putPacket t b)
    ⟨h.params, by simp [outputsOf, State.reg, State.putPacket], by simp [outputsOf],
      List.forall_mem_singleton.2 fun _ hk =>
        Buffer.read_writeFrom_congr s.pkt t.pkt (hk.trans_le (toNat_ofNat_le _))⟩

theorem AgreeOn.putMessage (m : List Symbol) : AgreeOn (o.union (outputsOf .walk)) (s.putMessage m) (t.putMessage m) :=
  h.extend (changesOnly_putMessage s m) (changesOnly_putMessage t m)
    ⟨h.params, by simp [outputsOf, State.reg, State.putMessage], by simp [outputsOf],
      List.forall_mem_singleton.2 fun _ hk =>
        Buffer.read_writeFrom_congr s.sym t.sym (hk.trans_le (toNat_ofNat_le _))⟩

end

/-! ### The rules from agreeing states -/

/-- Two results of a rule: the same raise, or states that agree on the items. -/
def SameResult (o : Items) : Except Raised State → Except Raised State → Prop
  | .ok u, .ok v => AgreeOn o u v
  | .error r, .error r' => r = r'
  | _, _ => False

theorem SameResult.mono {o p : Items} {x y : Except Raised State} (h : SameResult o x y) (hp : p.Within o) :
    SameResult p x y :=
  match x, y, h with
  | .ok _, .ok _, h => AgreeOn.mono h hp
  | .error _, .error _, h => h

theorem SameResult.map {α : Type} {o : Items} {x y : Except Raised α} {f g : α → State} (hxy : x = y)
    (h : ∀ a, x = .ok a → AgreeOn o (f a) (g a)) : SameResult o (x.map f) (y.map g) := by
  subst hxy
  cases x with
  | error r => exact rfl
  | ok a => exact h a rfl

theorem SameResult.bind {o p : Items} {x y : Except Raised State} {f : State → Except Raised State}
    (h : SameResult o x y) (hf : ∀ u v, AgreeOn o u v → SameResult p (f u) (f v)) : SameResult p (x >>= f) (y >>= f) :=
  match x, y, h with
  | .ok u, .ok v, h => hf u v h
  | .error _, .error _, h => h

section
variable {o : Items} {s t : State} (h : AgreeOn o s t)
include h

theorem histRule_congr (hin : (inputsOf .hist).Within o) :
    SameResult (o.union (outputsOf .hist)) (histRule s) (histRule t) := by
  rw [histRule_eq, histRule_eq]
  exact .map (messageOperand_congr h (hin.1 (by decide)) (hin.2.2 (by decide))) fun m _ => h.putFreq _

theorem buildRule_congr (hin : (inputsOf .build).Within o) :
    SameResult (o.union (outputsOf .build)) (buildRule s) (buildRule t) := by
  have hf : s.freq = t.freq := h.tabs .freq (hin.2.1 (by decide))
  rw [buildRule_eq, buildRule_eq, ← hf]
  split
  · exact rfl
  · exact h.putCodes hf

theorem mapRule_congr (hin : (inputsOf .map).Within o) :
    SameResult (o.union (outputsOf .map)) (mapRule s) (mapRule t) := by
  have hc : s.code = t.code := h.tabs .code (hin.2.1 (by decide))
  rw [mapRule_eq, mapRule_eq, hc, h.params, messageOperand_congr h (hin.1 (by decide)) (hin.2.2 (by decide))]
  exact .map rfl fun b _ => h.putBitstring b

theorem packRule_congr (hin : (inputsOf .pack).Within o) :
    SameResult (o.union (outputsOf .pack)) (packRule s) (packRule t) := by
  rw [packRule_eq, packRule_eq]
  exact .map (bitstringOperand_congr h (hin.1 (by decide)) (hin.2.2 (by decide))) fun b _ => h.putPacket b

theorem unpackRule_congr (hin : (inputsOf .unpack).Within o) :
    SameResult (o.union (outputsOf .unpack)) (unpackRule s) (unpackRule t) := by
  have hb : Buf.pkt ∈ o.bufs := hin.2.2 (by decide)
  rw [unpackRule_eq, unpackRule_eq]
  refine .map (packetOperand_congr h (hin.1 (by decide)) hb) fun ⟨pad, L⟩ hp => ?_
  obtain ⟨-, -, hL⟩ := packetOperand_eq_ok hp
  rw [← payloadBits_congr h hb hL]
  exact h.putUnpacked pad _

theorem walkRule_congr (hin : (inputsOf .walk).Within o) :
    SameResult (o.union (outputsOf .walk)) (walkRule s) (walkRule t) := by
  have hr : s.ring = t.ring := h.tabs .ring (hin.2.1 (by decide))
  rw [walkRule_eq, walkRule_eq, hr, h.params, bitstringOperand_congr h (hin.1 (by decide)) (hin.2.2 (by decide))]
  exact .map rfl fun m _ => h.putMessage m

end

/-- Each body of ENC finds its inputs among ENC's own and the outputs of the bodies before it. -/
theorem encRule_congr {s t : State} (h : AgreeOn (inputsOf .enc) s t) :
    SameResult (outputsOf .enc) (encRule s) (encRule t) := by
  have hl : s.symLen = t.symLen := h.regs .symLen (by decide)
  rw [encRule_eq, encRule_eq, h.params, hl]
  split
  · exact rfl
  split
  · exact rfl
  have bodies := (((histRule_congr h (by decide)).bind fun _ _ h1 => buildRule_congr h1 (by decide)).bind
    fun _ _ h2 => mapRule_congr h2 (by decide)).bind fun _ _ h3 => packRule_congr h3 (by decide)
  exact bodies.mono (by decide)

/-- WALK's bitstring is UNPACK's; the ring is DEC's own input. -/
theorem decRule_congr {s t : State} (h : AgreeOn (inputsOf .dec) s t) :
    SameResult (outputsOf .dec) (decRule s) (decRule t) := by
  rw [decRule_eq, decRule_eq]
  have bodies := (unpackRule_congr h (by decide)).bind fun _ _ h1 => walkRule_congr h1 (by decide)
  exact bodies.mono (by decide)

theorem ruleOf_congr (i : Instr) {s t : State} (h : AgreeOn (inputsOf i) s t) :
    SameResult (outputsOf i) (ruleOf i s) (ruleOf i t) := by
  cases i with
  | nop => exact h
  | clr => exact (h.cleared (outputsOf .clr)).mono (by decide)
  | hist => exact (histRule_congr h (by decide)).mono (Items.within_union_right _ _)
  | build => exact (buildRule_congr h (by decide)).mono (Items.within_union_right _ _)
  | map => exact (mapRule_congr h (by decide)).mono (Items.within_union_right _ _)
  | pack => exact (packRule_congr h (by decide)).mono (Items.within_union_right _ _)
  | enc => exact encRule_congr h
  | unpack => exact (unpackRule_congr h (by decide)).mono (Items.within_union_right _ _)
  | walk => exact (walkRule_congr h (by decide)).mono (Items.within_union_right _ _)
  | dec => exact decRule_congr h

/-- Settles O11: the rules run from cleared states that agree on the command's inputs, so they raise alike or write the
outputs alike, and a raise leaves the outputs cleared in both. -/
theorem commandDependsOnItsInputsAlone : Obligations.CommandDependsOnItsInputsAlone := by
  intro i s s' t t' h ht ht'
  have hc := h.cleared (outputsOf i)
  have hrule := ruleOf_congr i (hc.mono (Items.within_union_left _ _))
  rw [exec_eq_command, command_eq_next_iff] at ht ht'
  rcases ht with ⟨u, hu, rfl⟩ | ⟨r, hr, rfl⟩ <;> rcases ht' with ⟨u', hu', rfl⟩ | ⟨r', hr', rfl⟩
  · rw [hu, hu'] at hrule
    exact ⟨rfl, rfl, hrule.regs, hrule.tabs, fun _ => hrule.bufs⟩
  · rw [hu, hr'] at hrule
    exact hrule.elim
  · rw [hr, hu'] at hrule
    exact hrule.elim
  · rw [hr, hr'] at hrule
    obtain rfl : r = r' := hrule
    have hout := hc.mono (Items.within_union_right _ _)
    exact ⟨rfl, rfl, hout.regs, hout.tabs, nofun⟩

end Sys2Proof.Machine
end

