-- ==== Sys2Proof/Proofs/Order.lean ====
section
/-! PROOFS. The order on queue nodes (41_frequency_and_tree.md R131) is the lexicographic one of a count and a group, and
`popMin` takes the least node by it (R7). Settles O25. -/

namespace Sys2Proof.Machine

/-! ### The order -/

/-- `<lex` is the library's order on lists. -/
theorem groupLt_iff (g g' : List Symbol) : groupLt g g' = true ↔ g < g' := by
  induction g generalizing g' with
  | nil => cases g' <;> simp [groupLt]
  | cons a as ih =>
    cases g' with
    | nil => simp [groupLt]
    | cons b bs =>
      rw [groupLt, List.cons_lt_cons_iff]
      split
      · subst_vars
        simp [ih]
      · simp [*]

theorem Node.lt_iff (a b : Node) :
    a.lt b = true ↔ a.count < b.count ∨ a.count = b.count ∧ a.group < b.group := by
  simp [Node.lt, groupLt_iff]

theorem Node.lt_irrefl (a : Node) : a.lt a = false := by
  rw [← Bool.not_eq_true, Node.lt_iff]
  simp [List.lt_irrefl]

theorem Node.lt_trans {a b c : Node} (h : a.lt b = true) (h' : b.lt c = true) : a.lt c = true := by
  rw [Node.lt_iff] at *
  rcases h with h | ⟨e, h⟩ <;> rcases h' with h' | ⟨e', h'⟩
  · exact .inl (BitVec.lt_trans h h')
  · exact .inl (e' ▸ h)
  · exact .inl (e ▸ h')
  · exact .inr ⟨e.trans e', List.lt_trans h h'⟩

/-- Of two different nodes one is the lesser. -/
theorem Node.eq_of_not_lt {a b : Node} (h : a.lt b = false) (h' : b.lt a = false) : a = b := by
  simp only [← Bool.not_eq_true, Node.lt_iff, not_or, not_and] at h h'
  have hc : a.count = b.count := BitVec.le_antisymm (BitVec.not_lt.1 h'.1) (BitVec.not_lt.1 h.1)
  have hg : a.group = b.group := List.le_antisymm (h'.2 hc.symm) (h.2 hc)
  cases a
  cases b
  simp_all

/-- Not being less is transitive too, the order being total. -/
theorem Node.not_lt_trans {a b c : Node} (h : a.lt b = false) (h' : b.lt c = false) : a.lt c = false := by
  by_contra hac
  rw [Bool.not_eq_false] at hac
  cases hba : b.lt a with
  | true => simp [Node.lt_trans hba hac] at h'
  | false =>
    obtain rfl := Node.eq_of_not_lt h hba
    simp [hac] at h'

theorem Node.lt_asymm {a b : Node} (h : a.lt b = true) : b.lt a = false := by
  by_contra hba
  rw [Bool.not_eq_false] at hba
  exact absurd (Node.lt_trans h hba) (by simp [Node.lt_irrefl])

/-! ### `popMin` -/

theorem leastOf_perm (n : Node) (ns : List Node) : (n :: ns).Perm ((leastOf n ns).1 :: (leastOf n ns).2) := by
  induction ns generalizing n with
  | nil => exact .refl _
  | cons m ms ih =>
    rw [leastOf]
    split
    · exact ((ih m).cons n).trans (.swap ..)
    · exact (List.Perm.swap m n ms).trans (((ih n).cons m).trans (.swap ..))

/-- No node, the one first in hand included, is less than the one taken. -/
theorem not_lt_leastOf (n : Node) (ns : List Node) {x : Node} (hx : x ∈ n :: ns) : x.lt (leastOf n ns).1 = false := by
  induction ns generalizing n x with
  | nil =>
    obtain rfl : x = n := by simpa using hx
    exact Node.lt_irrefl x
  | cons m ms ih =>
    rw [leastOf]
    split
    next hmn =>
      have hm := ih m List.mem_cons_self
      rcases List.mem_cons.1 hx with rfl | hx
      · exact Node.not_lt_trans (Node.lt_asymm hmn) hm
      · exact ih m hx
    next hmn =>
      have hn := ih n List.mem_cons_self
      rcases List.mem_cons.1 hx with rfl | hx
      · exact hn
      · rcases List.mem_cons.1 hx with rfl | hx
        · exact Node.not_lt_trans (Bool.eq_false_iff.2 hmn) hn
        · exact ih n (List.mem_cons_of_mem _ hx)

theorem popMin_eq_none_iff (q : List Node) : popMin q = none ↔ q = [] := by cases q <;> simp [popMin]

/-- The node popped and the rest make up the queue. -/
theorem popMin_perm {q r : List Node} {n : Node} (h : popMin q = some (n, r)) : q.Perm (n :: r) := by
  cases q with
  | nil => cases h
  | cons m ms =>
    have e : leastOf m ms = (n, r) := Option.some.inj h
    simpa [e] using leastOf_perm m ms

theorem not_lt_of_popMin {q r : List Node} {n m : Node} (h : popMin q = some (n, r)) (hm : m ∈ r) : m.lt n = false := by
  have hq : m ∈ q := (popMin_perm h).mem_iff.2 (List.mem_cons_of_mem _ hm)
  cases q with
  | nil => cases h
  | cons k ks =>
    have e : leastOf k ks = (n, r) := Option.some.inj h
    simpa [e] using not_lt_leastOf k ks hq

/-- Settles O25: the walk down the list keeps the lesser of the node in hand and the next one. -/
theorem popMinTakesTheLeast : Obligations.PopMinTakesTheLeast :=
  fun q => ⟨popMin_eq_none_iff q, fun _ _ h => ⟨popMin_perm h, fun _ hm => not_lt_of_popMin h hm⟩⟩

end Sys2Proof.Machine
end

