-- ==== Sys2Proof/Proofs/Grain.lean ====
section
/-! PROOFS. The two grains of a command (00_scope.md R8, 70_reset_and_hazards.md R254): no rule reads or writes a flag, so
a command runs from an issued state as it runs from an idle one. Settles O12. -/

namespace Sys2Proof.Machine

/-- The same result, its flags being those of a command just started. -/
def startResult (w : Word) (x : Except Raised State) : Except Raised State := x.map fun s => s.started w

theorem startResult_map {α : Type} (w : Word) (x : Except Raised α) (f g : α → State)
    (h : ∀ a, g a = (f a).started w) : x.map g = startResult w (x.map f) := by
  cases x with
  | error r => rfl
  | ok a => exact congrArg Except.ok (h a)

/-- Bodies that carry the flags along unread do so one after another. -/
theorem startResult_bind (w : Word) (x : Except Raised State) (f : State → Except Raised State)
    (h : ∀ s, f (s.started w) = startResult w (f s)) : startResult w x >>= f = startResult w (x >>= f) := by
  cases x with
  | error r => rfl
  | ok s => exact h s

theorem histRule_started (w : Word) (s : State) : histRule (s.started w) = startResult w (histRule s) := by
  rw [histRule_eq, histRule_eq]
  exact startResult_map w s.messageOperand _ _ fun _ => rfl

theorem buildRule_started (w : Word) (s : State) : buildRule (s.started w) = startResult w (buildRule s) := by
  rw [buildRule_eq, buildRule_eq, State.started_freq]
  split <;> rfl

theorem mapRule_started (w : Word) (s : State) : mapRule (s.started w) = startResult w (mapRule s) := by
  rw [mapRule_eq, mapRule_eq]
  exact startResult_map w (s.messageOperand.bind _) _ _ fun _ => rfl

theorem packRule_started (w : Word) (s : State) : packRule (s.started w) = startResult w (packRule s) := by
  rw [packRule_eq, packRule_eq]
  exact startResult_map w s.bitstringOperand _ _ fun _ => rfl

theorem unpackRule_started (w : Word) (s : State) : unpackRule (s.started w) = startResult w (unpackRule s) := by
  rw [unpackRule_eq, unpackRule_eq]
  exact startResult_map w s.packetOperand _ _ fun _ => rfl

theorem walkRule_started (w : Word) (s : State) : walkRule (s.started w) = startResult w (walkRule s) := by
  rw [walkRule_eq, walkRule_eq]
  exact startResult_map w (s.bitstringOperand.bind _) _ _ fun _ => rfl

theorem encRule_started (w : Word) (s : State) : encRule (s.started w) = startResult w (encRule s) := by
  rw [encRule_eq, encRule_eq, State.started_params, State.started_symLen]
  split
  · rfl
  split
  · rfl
  rw [histRule_started, startResult_bind w _ _ (buildRule_started w), startResult_bind w _ _ (mapRule_started w),
    startResult_bind w _ _ (packRule_started w)]

theorem decRule_started (w : Word) (s : State) : decRule (s.started w) = startResult w (decRule s) := by
  rw [decRule_eq, decRule_eq, unpackRule_started, startResult_bind w _ _ (walkRule_started w)]

theorem ruleOf_started (i : Instr) (w : Word) (s : State) : ruleOf i (s.started w) = startResult w (ruleOf i s) := by
  cases i with
  | nop => rfl
  | clr => rfl
  | hist => exact histRule_started w s
  | build => exact buildRule_started w s
  | map => exact mapRule_started w s
  | pack => exact packRule_started w s
  | enc => exact encRule_started w s
  | unpack => exact unpackRule_started w s
  | walk => exact walkRule_started w s
  | dec => exact decRule_started w s

/-- The end of a command overwrites every flag, so a command already started ends as one run whole. -/
theorem exec_started (i : Instr) (w : Word) (s : State) : exec i (s.started w) = exec i s := by
  have hrule : ruleOf i ((s.started w).cleared (outputsOf i)) = startResult w (ruleOf i (s.cleared (outputsOf i))) :=
    ruleOf_started i w (s.cleared (outputsOf i))
  rw [exec_eq_command, exec_eq_command, command, command, hrule]
  cases ruleOf i (s.cleared (outputsOf i)) <;> rfl

theorem runWord_started (w v : Word) (s : State) : runWord v (s.started w) = runWord v s := by
  cases hd : decode v with
  | ok i => rw [runWord_of_decode hd, runWord_of_decode hd, exec_started]
  | error e => rw [runWord_of_error hd, runWord_of_error hd]; rfl

/-- STATUS between the issue and the completion is 0x01 (10_state.md R22). -/
theorem statusWord_started (s : State) (w : Word) : (s.started w).statusWord = 1 := by
  simp [State.statusWord, errNumber]

/-- Settles O12: the completion runs the word from a started state, which ends as the idle one does. -/
theorem issueThenCompleteEqualsOneStep : Obligations.IssueThenCompleteEqualsOneStep := by
  intro s w es hscript hbusy
  have idle : ∀ l, ({ s with script := l } : State).busy = false := fun _ => hbusy
  have issued : step s = .next (({ s with script := .complete :: es } : State).started w) := by
    rw [step_cons hscript]
    simp [runEvent, issueCommand, idle]
  obtain ⟨t, ht⟩ := exists_runWord_eq_next w { s with script := es }
  refine ⟨_, t, issued, statusWord_started _ w, rfl, ?_, ?_⟩
  · rw [step_cons (State.started_script _ w), ← ht]
    exact runWord_started w w { s with script := es }
  · rw [step_cons rfl, ← ht]
    exact hostAccess_cmd (idle es) w

end Sys2Proof.Machine
end

