-- ==== Sys2Proof/Proofs/Codes.lean ====
section
/-! PROOFS. What HIST counts and what BUILD's merges keep (41_frequency_and_tree.md R130, R132): the counts sum to the
message's length at most, and a code has at least one and at most 255 bits. -/

namespace Sys2Proof.Machine

/-! ### HIST's counts -/

/-- Counting on from a table adds each symbol's occurrences. -/
theorem entry_foldl_count (m : List Symbol) (f : Table Word) (x : Symbol) :
    (m.foldl (fun f y => f.put y (f.entry y + 1)) f).entry x = f.entry x + BitVec.ofNat 32 (m.count x) := by
  induction m generalizing f with
  | nil => simp
  | cons y m ih =>
    rw [List.foldl_cons, ih, Table.entry_put, List.count_cons]
    by_cases hxy : x = y
    · subst hxy
      rw [if_pos rfl, if_pos (beq_self_eq_true x), BitVec.ofNat_add, add_assoc, add_comm 1]
      rfl
    · rw [if_neg hxy, if_neg (by simpa using Ne.symm hxy), add_zero]

theorem entry_countSymbols (m : List Symbol) (x : Symbol) :
    (countSymbols m).entry x = BitVec.ofNat 32 (m.count x) := by
  rw [countSymbols, entry_foldl_count, Table.entry_replicate, zero_add]

/-- The occurrences of the members of a list without duplicates that holds every symbol of a message. -/
theorem sum_count_of_nodup {l m : List Symbol} (hl : l.Nodup) (hm : ∀ x ∈ m, x ∈ l) :
    (l.map fun x => m.count x).sum = m.length := by
  rw [← List.sum_toFinset _ hl]
  simpa using Multiset.sum_count_eq_card (s := l.toFinset) (m := (m : Multiset Symbol))
    fun x hx => List.mem_toFinset.2 (hm x hx)

/-- The entries sum to the message's length, or to less where a count wraps. -/
theorem freqTotal_countSymbols_le (m : List Symbol) : freqTotal (countSymbols m) ≤ m.length := by
  rw [← sum_count_of_nodup nodup_allSymbols fun x _ => mem_allSymbols x]
  refine List.sum_le_sum fun x _ => ?_
  rw [entry_countSymbols]
  exact toNat_ofNat_le _

theorem freqTotal_zero : freqTotal (Vector.replicate 256 0) = 0 := Nat.le_zero.1 (freqTotal_countSymbols_le [])

/-! ### BUILD's queue -/

/-- A symbol that occurs has its node in the initial queue. -/
theorem mem_initialQueue {freq : Table Word} {x : Symbol} (h : freq.entry x ≠ 0) :
    { count := freq.entry x, group := [x] } ∈ initialQueue freq :=
  List.mem_filterMap.2 ⟨x, mem_allSymbols x, if_neg h⟩

theorem length_initialQueue (freq : Table Word) :
    (initialQueue freq).length = (allSymbols.filter fun x => freq.entry x ≠ 0).length := by
  rw [initialQueue, List.length_filterMap_eq_countP, List.countP_eq_length_filter]
  congr 2
  funext x
  split <;> simp_all

theorem length_initialQueue_le (freq : Table Word) : (initialQueue freq).length ≤ 256 := by
  rw [length_initialQueue]
  exact (List.length_filter_le _ _).trans_eq length_allSymbols

/-! ### BUILD's merges -/

theorem length_popMin {q r : List Node} {n : Node} (h : popMin q = some (n, r)) : q.length = r.length + 1 :=
  (popMin_perm h).length_eq

/-- What holds of the queue and the codes so far, and is kept by each turn of `while |Q| > 1`, holds of a queue of at most
one node and the codes in the end. -/
theorem mergeLoop_induction {R : List Node → (Symbol → BitString) → Prop}
    (turn : ∀ {q q1 r n1 n2 c}, popMin q = some (n1, q1) → popMin q1 = some (n2, r) → R q c →
      R (mergeNodes n1 n2 :: r) (prependBits n1.group n2.group c))
    {fuel : Nat} {q : List Node} {c : Symbol → BitString} (hf : q.length ≤ fuel) (hR : R q c) :
    ∃ q', q'.length ≤ 1 ∧ R q' (mergeLoop fuel q c) := by
  induction fuel generalizing q c with
  | zero => exact ⟨q, by omega, hR⟩
  | succ fuel ih =>
    rw [mergeLoop]
    split
    next h1 =>
      rw [popMin_eq_none_iff] at h1
      exact ⟨q, by simp [h1], hR⟩
    next n1 q1 h1 =>
      have hl1 := length_popMin h1
      split
      next h2 =>
        rw [popMin_eq_none_iff] at h2
        exact ⟨q, by simp [hl1, h2], hR⟩
      next n2 r h2 =>
        have hl2 := length_popMin h2
        exact ih (by simp only [List.length_cons]; omega) (turn h1 h2 hR)

theorem length_prependBits_le (g1 g2 : List Symbol) (c : Symbol → BitString) (x : Symbol) :
    (prependBits g1 g2 c x).length ≤ (c x).length + 1 := by
  unfold prependBits
  split
  · simp
  split <;> simp

theorem prependBits_ne_nil {g1 g2 : List Symbol} {c : Symbol → BitString} {x : Symbol}
    (h : x ∈ g1 ∨ x ∈ g2 ∨ c x ≠ []) : prependBits g1 g2 c x ≠ [] := by
  unfold prependBits
  split
  · simp
  split
  · simp
  · simp_all

/-- The code so far of `x` and the queue have at most `n` bits and nodes together, and the queue is not empty. -/
def BitsAndNodesWithin (n : Nat) (x : Symbol) (q : List Node) (c : Symbol → BitString) : Prop :=
  (c x).length + q.length ≤ n ∧ q ≠ []

/-- The queue holds `x`, which has a bit already unless a merge is still to come. -/
def HeldAndMerged (x : Symbol) (q : List Node) (c : Symbol → BitString) : Prop :=
  (∃ n ∈ q, x ∈ n.group) ∧ (2 ≤ q.length ∨ c x ≠ [])

section
variable {q q1 r : List Node} {n1 n2 : Node} (h1 : popMin q = some (n1, q1)) (h2 : popMin q1 = some (n2, r))
include h1 h2

/-- A turn makes a code longer by one bit at most and the queue shorter by one node. -/
theorem BitsAndNodesWithin.turn {n : Nat} {x : Symbol} {c : Symbol → BitString} (h : BitsAndNodesWithin n x q c) :
    BitsAndNodesWithin n x (mergeNodes n1 n2 :: r) (prependBits n1.group n2.group c) := by
  have hl1 := length_popMin h1
  have hl2 := length_popMin h2
  have hp := length_prependBits_le n1.group n2.group c x
  refine ⟨?_, List.cons_ne_nil _ _⟩
  have hn := h.1
  rw [List.length_cons]
  omega

/-- The symbol is in one of the two nodes merged, which gives it a bit, or in a node that is left to merge with. -/
theorem HeldAndMerged.turn {x : Symbol} {c : Symbol → BitString} (h : HeldAndMerged x q c) :
    HeldAndMerged x (mergeNodes n1 n2 :: r) (prependBits n1.group n2.group c) := by
  obtain ⟨n, hn, hx⟩ := h.1
  have hn' : n = n1 ∨ n = n2 ∨ n ∈ r := by
    rw [(popMin_perm h1).mem_iff, List.mem_cons, (popMin_perm h2).mem_iff, List.mem_cons] at hn
    exact hn
  have merged (hg : x ∈ n1.group ++ n2.group) :
      HeldAndMerged x (mergeNodes n1 n2 :: r) (prependBits n1.group n2.group c) :=
    ⟨⟨_, List.mem_cons_self, hg⟩, .inr (prependBits_ne_nil ((List.mem_append.1 hg).imp_right .inl))⟩
  rcases hn' with rfl | rfl | hr
  · exact merged (List.mem_append_left _ hx)
  · exact merged (List.mem_append_right _ hx)
  · exact ⟨⟨n, List.mem_cons_of_mem _ hr, hx⟩, .inl (Nat.succ_le_succ (List.length_pos_of_mem hr))⟩

end

theorem length_mergeLoop_lt {fuel : Nat} {q : List Node} (hf : q.length ≤ fuel) (hq : q ≠ []) (x : Symbol) :
    (mergeLoop fuel q (fun _ => []) x).length < q.length := by
  have start : BitsAndNodesWithin q.length x q fun _ => [] := ⟨by simp, hq⟩
  obtain ⟨q', -, hlen, hne⟩ := mergeLoop_induction (fun h1 h2 h => h.turn h1 h2) hf start
  have := List.length_pos_of_ne_nil hne
  omega

theorem mergeLoop_ne_nil {fuel : Nat} {q : List Node} (hf : q.length ≤ fuel) (hq : 2 ≤ q.length) {n : Node} (hn : n ∈ q)
    {x : Symbol} (hx : x ∈ n.group) : mergeLoop fuel q (fun _ => []) x ≠ [] := by
  have start : HeldAndMerged x q fun _ => [] := ⟨⟨n, hn, hx⟩, .inl hq⟩
  obtain ⟨q', hlen, -, hdone⟩ := mergeLoop_induction (fun h1 h2 h => h.turn h1 h2) hf start
  exact hdone.resolve_left (by omega)

/-! ### BUILD's codes -/

/-- A code of BUILD's is not empty and LEN can count it (10_state.md R32). -/
theorem buildCodes_bounds {freq : Table Word} {x : Symbol} (hx : freq.entry x ≠ 0) :
    buildCodes freq x ≠ [] ∧ (buildCodes freq x).length ≤ 255 := by
  have hmem := mem_initialQueue hx
  have hle := length_initialQueue_le freq
  rw [buildCodes]
  split
  · simp
  next hne =>
    have hpos := List.length_pos_of_mem hmem
    have hlt := length_mergeLoop_lt le_rfl (List.ne_nil_of_mem hmem) x
    exact ⟨mergeLoop_ne_nil le_rfl (by omega) hmem (List.mem_singleton.2 rfl), by omega⟩

/-! ### The form of CODE -/

theorem engineWritten_zero : CodeEntry.zero.EngineWritten := ⟨fun _ => rfl, nofun⟩

theorem engineWritten_ofCode {c : BitString} (h : c ≠ []) (hl : c.length ≤ 255) :
    (CodeEntry.ofCode c).EngineWritten := by
  refine ⟨nofun, fun _ => ?_⟩
  rw [CodeEntry.key_ofCode hl]
  exact ⟨rfl, h⟩

theorem entry_codeTable (freq : Table Word) (c : Symbol → BitString) (x : Symbol) :
    (codeTable freq c).entry x = if freq.entry x = 0 then CodeEntry.zero else CodeEntry.ofCode (c x) :=
  Table.entry_ofFn _ x

theorem engineWritten_codeTable (freq : Table Word) (x : Symbol) :
    ((codeTable freq (buildCodes freq)).entry x).EngineWritten := by
  rw [entry_codeTable]
  split
  · exact engineWritten_zero
  next hx =>
    obtain ⟨hne, hle⟩ := buildCodes_bounds hx
    exact engineWritten_ofCode hne hle

/-- The symbols that have a code are those that occur. -/
theorem codedSymbols_codeTable (freq : Table Word) (c : Symbol → BitString) :
    codedSymbols (codeTable freq c) = allSymbols.filter fun x => freq.entry x ≠ 0 := by
  refine List.filter_congr fun x _ => ?_
  rw [entry_codeTable]
  split <;> simp_all

theorem codedSymbols_zero : codedSymbols (Vector.replicate 256 CodeEntry.zero) = [] :=
  List.filter_eq_nil_iff.2 fun x _ => by simp

/-- NSYM, nine bits wide, counts up to 256 codes (10_state.md R28). -/
theorem toNat_nsym_codeTable (freq : Table Word) (c : Symbol → BitString) :
    (BitVec.ofNat 9 (initialQueue freq).length).toNat = (codedSymbols (codeTable freq c)).length := by
  have hle := length_initialQueue_le freq
  rw [codedSymbols_codeTable, ← length_initialQueue, BitVec.toNat_ofNat]
  omega

end Sys2Proof.Machine
end

