-- ==== Sys2Proof/Proofs/Invariant.lean ====
section
/-! PROOFS. The structural invariant: its part that no flag enters is kept by every write of a command, of the host and of
the reset input, and every step ends with flags that fit. Settles O18. -/

namespace Sys2Proof.Machine

/-! ### The invariant without the flags -/

/-- What `State.Inv` says of the parameters, buffers, FREQ, CODE and NSYM. -/
structure State.DataInv (s : State) : Prop where
  params : s.params.wf = true
  symFits : s.sym.Fits s.params.symCap
  bitsFits : s.bits.Fits (s.params.bitCap / 8)
  pktFits : s.pkt.Fits s.params.pktCap
  draws : s.sym.draw < s.nextDraw ∧ s.bits.draw < s.nextDraw ∧ s.pkt.draw < s.nextDraw
  drawsDiffer : s.sym.draw ≠ s.bits.draw ∧ s.sym.draw ≠ s.pkt.draw ∧ s.bits.draw ≠ s.pkt.draw
  freqBound : freqTotal s.freq ≤ s.params.symCap
  codeForm : ∀ x, (s.code.entry x).EngineWritten
  nsymCounts : s.nsym.toNat = (codedSymbols s.code).length

theorem State.Inv.dataInv {s : State} (h : s.Inv) : s.DataInv := { h with }

/-- BIT_CAP is a whole number of bytes (00_scope.md R5). -/
theorem State.DataInv.bitCap_mod {s : State} (h : s.DataInv) : s.params.bitCap % 8 = 0 := by
  have hp := h.params
  simp only [Params.wf, Params.bitCapOk, Bool.and_eq_true, decide_eq_true_eq] at hp
  exact hp.2.1.1

/-- A completed command leaves DONE = 1, so only ERRINFO is to be looked at (10_state.md R22, R23). -/
theorem State.DataInv.inv_ended {s : State} (h : s.DataInv) {e : Option CmdError} {info : Word}
    (hi : e = none → info = 0) : (s.ended e info).Inv :=
  { h with busyNotDone := nofun, errWhenDone := nofun, infoWhenErr := hi }

theorem State.DataInv.inv_started {s : State} (h : s.DataInv) (w : Word) : (s.started w).Inv :=
  { h with busyNotDone := fun _ => rfl, errWhenDone := fun _ => rfl, infoWhenErr := fun _ => rfl }

/-! ### The writes of a command -/

section
variable {s : State} (h : s.DataInv)
include h

/-- Clearing NSYM with CODE, as every command does that clears either. -/
theorem State.DataInv.cleared {o : Items} (ho : Reg.nsym ∈ o.regs ↔ Tab.code ∈ o.tabs) : (s.cleared o).DataInv :=
  { h with
    freqBound := by
      rw [State.cleared_freq]
      split
      · rw [freqTotal_zero]
        exact Nat.zero_le _
      · exact h.freqBound
    codeForm := fun x => by
      rw [State.cleared_code]
      split
      · rw [Table.entry_replicate]
        exact engineWritten_zero
      · exact h.codeForm x
    nsymCounts := by
      simp only [State.cleared_nsym, State.cleared_code, ho]
      split
      · rw [codedSymbols_zero]
        rfl
      · exact h.nsymCounts }

/-- A fresh draw is above the used ones, and the three fresh ones differ. -/
theorem State.DataInv.forgotten (o : Items) : (s.forgotten o).DataInv := by
  obtain ⟨hs, hb, hp⟩ := h.draws
  obtain ⟨hsb, hsp, hbp⟩ := h.drawsDiffer
  have fits {b : Buffer} {cap d : Nat} {c : Prop} [Decidable c] (hb : b.Fits cap) :
      (if c then Buffer.unspecified d else b).Fits cap := by
    split
    · exact .unspecified d cap
    · exact hb
  refine { h with symFits := fits h.symFits, bitsFits := fits h.bitsFits, pktFits := fits h.pktFits, draws := ?_,
                  drawsDiffer := ?_ }
  · simp only [State.forgotten_sym, State.forgotten_bits, State.forgotten_pkt, State.forgotten_nextDraw,
      apply_ite Buffer.draw, Buffer.unspecified_draw]
    refine ⟨?_, ?_, ?_⟩ <;> split <;> omega
  · simp only [State.forgotten_sym, State.forgotten_bits, State.forgotten_pkt, apply_ite Buffer.draw,
      Buffer.unspecified_draw]
    refine ⟨?_, ?_, ?_⟩ <;> split_ifs <;> omega

theorem State.DataInv.putFreq {f : Table Word} (hf : freqTotal f ≤ s.params.symCap) : (s.putFreq f).DataInv :=
  { h with freqBound := hf }

theorem State.DataInv.putCodes : s.putCodes.DataInv :=
  { h with codeForm := engineWritten_codeTable s.freq, nsymCounts := toNat_nsym_codeTable s.freq _ }

theorem State.DataInv.putBitstring {b : BitString} (hb : b.length ≤ s.params.bitCap) : (s.putBitstring b).DataInv :=
  have hcap : bytesFor b.length ≤ s.params.bitCap / 8 := by
    have := h.bitCap_mod
    unfold bytesFor
    omega
  { h with
    bitsFits := h.bitsFits.writeFrom _ (by rwa [length_bytesOf, Nat.zero_add])
    draws := by simpa using h.draws
    drawsDiffer := by simpa using h.drawsDiffer }

theorem State.DataInv.putUnpacked {b : BitString} (hb : b.length ≤ s.params.bitCap) (pad : Nat) :
    (s.putUnpacked pad b).DataInv := { h.putBitstring hb with }

theorem State.DataInv.putPacket {b : BitString} (hb : b.length ≤ s.params.bitCap) : (s.putPacket b).DataInv :=
  have hcap : (packetOf b).length ≤ s.params.pktCap := by
    have := h.bitCap_mod
    simp only [packetOf, padOf, List.length_cons, length_packBytes, Params.pktCap]
    omega
  { h with
    pktFits := h.pktFits.writeFrom _ (by rwa [Nat.zero_add])
    draws := by simpa [State.putPacket] using h.draws
    drawsDiffer := by simpa [State.putPacket] using h.drawsDiffer }

theorem State.DataInv.putMessage {m : List Symbol} (hm : m.length ≤ s.params.symCap) : (s.putMessage m).DataInv :=
  { h with
    symFits := h.symFits.writeFrom _ (by rwa [Nat.zero_add])
    draws := by simpa [State.putMessage] using h.draws
    drawsDiffer := by simpa [State.putMessage] using h.drawsDiffer }

end

/-! ### What the rules' loops and checks answer fits the capacities -/

theorem length_of_messageOperand {s : State} {m : List Symbol} (h : s.messageOperand = .ok m) :
    m.length ≤ s.params.symCap := by
  unfold State.messageOperand at h
  split at h
  · cases h
  · cases h
    rw [length_message]
    omega

theorem length_of_bitstringOperand {s : State} {b : BitString} (h : s.bitstringOperand = .ok b) :
    b.length ≤ s.params.bitCap := by
  unfold State.bitstringOperand at h
  split at h
  · cases h
  · cases h
    rw [length_bitstring]
    omega

/-- MAP checks the capacity before each code that it appends (R160). -/
theorem length_of_mapLoop {code : Table CodeEntry} {cap i : Nat} {b c : BitString} {m : List Symbol}
    (hb : b.length ≤ cap) (h : mapLoop code cap i b m = .ok c) : c.length ≤ cap := by
  induction m generalizing i b with
  | nil =>
    cases h
    exact hb
  | cons x xs ih =>
    simp only [mapLoop] at h
    split at h
    · cases h
    split at h
    · cases h
    next hcap => exact ih (by rw [List.length_append, CodeEntry.length_key]; omega) h

/-- WALK checks the capacity before each symbol that it emits (R191). -/
theorem length_of_walkLoop {ring : Table RingSlot} {cap start j : Nat} {acc b : BitString} {out m : List Symbol}
    (ho : out.length ≤ cap) (h : walkLoop ring cap acc start j out b = .ok m) : m.length ≤ cap := by
  induction b generalizing acc start j out with
  | nil =>
    rw [walkLoop] at h
    split at h
    · cases h
      exact ho
    · cases h
  | cons x xs ih =>
    rw [walkLoop] at h
    split at h
    · cases h
    split at h
    · exact ih ho h
    split at h
    · cases h
    next hfull => exact ih (by rw [List.length_append, List.length_singleton]; omega) h

/-! ### The rules -/

section
variable {s u : State} (h : s.DataInv)
include h

theorem dataInv_of_histRule (hu : histRule s = .ok u) : u.DataInv := by
  rw [histRule_eq] at hu
  obtain ⟨m, hm, rfl⟩ := map_eq_ok hu
  exact h.putFreq ((freqTotal_countSymbols_le m).trans (length_of_messageOperand hm))

theorem dataInv_of_buildRule (hu : buildRule s = .ok u) : u.DataInv := by
  rw [buildRule_eq] at hu
  split at hu
  · cases hu
  · cases hu
    exact h.putCodes

theorem dataInv_of_mapRule (hu : mapRule s = .ok u) : u.DataInv := by
  rw [mapRule_eq] at hu
  obtain ⟨b, hb, rfl⟩ := map_eq_ok hu
  obtain ⟨m, -, hloop⟩ := bind_eq_ok hb
  exact h.putBitstring (length_of_mapLoop (Nat.zero_le _) hloop)

theorem dataInv_of_packRule (hu : packRule s = .ok u) : u.DataInv := by
  rw [packRule_eq] at hu
  obtain ⟨b, hb, rfl⟩ := map_eq_ok hu
  exact h.putPacket (length_of_bitstringOperand hb)

theorem dataInv_of_unpackRule (hu : unpackRule s = .ok u) : u.DataInv := by
  rw [unpackRule_eq] at hu
  obtain ⟨⟨pad, L⟩, hp, rfl⟩ := map_eq_ok hu
  obtain ⟨hcap, -, hL⟩ := packetOperand_eq_ok hp
  refine h.putUnpacked ?_ pad
  rw [length_payloadBits]
  unfold Params.pktCap at hcap
  omega

theorem dataInv_of_walkRule (hu : walkRule s = .ok u) : u.DataInv := by
  rw [walkRule_eq] at hu
  obtain ⟨m, hm, rfl⟩ := map_eq_ok hu
  obtain ⟨b, -, hloop⟩ := bind_eq_ok hm
  exact h.putMessage (length_of_walkLoop (Nat.zero_le _) hloop)

theorem dataInv_of_encRule (hu : encRule s = .ok u) : u.DataInv := by
  rw [encRule_eq] at hu
  split at hu
  · cases hu
  split at hu
  · cases hu
  obtain ⟨s3, h3, hpack⟩ := bind_eq_ok hu
  obtain ⟨s2, h2, hmap⟩ := bind_eq_ok h3
  obtain ⟨s1, hhist, hbuild⟩ := bind_eq_ok h2
  exact dataInv_of_packRule (dataInv_of_mapRule (dataInv_of_buildRule (dataInv_of_histRule h hhist) hbuild) hmap) hpack

theorem dataInv_of_decRule (hu : decRule s = .ok u) : u.DataInv := by
  rw [decRule_eq] at hu
  obtain ⟨s1, hunpack, hwalk⟩ := bind_eq_ok hu
  exact dataInv_of_walkRule (dataInv_of_unpackRule h hunpack) hwalk

theorem dataInv_of_ruleOf {i : Instr} (hu : ruleOf i s = .ok u) : u.DataInv := by
  cases i with
  | nop =>
    cases hu
    exact h
  | clr =>
    cases hu
    exact h.cleared (o := outputsOf .clr) (by decide)
  | hist => exact dataInv_of_histRule h hu
  | build => exact dataInv_of_buildRule h hu
  | map => exact dataInv_of_mapRule h hu
  | pack => exact dataInv_of_packRule h hu
  | enc => exact dataInv_of_encRule h hu
  | unpack => exact dataInv_of_unpackRule h hu
  | walk => exact dataInv_of_walkRule h hu
  | dec => exact dataInv_of_decRule h hu

/-! ### The steps -/

theorem inv_of_exec {i : Instr} (hu : exec i s = .next u) : u.Inv := by
  have hc : (s.cleared (outputsOf i)).DataInv := h.cleared (by cases i <;> decide)
  rw [exec_eq_command, command_eq_next_iff] at hu
  rcases hu with ⟨v, hv, rfl⟩ | ⟨r, -, rfl⟩
  · exact (dataInv_of_ruleOf hc hv).inv_ended fun _ => rfl
  · exact (hc.forgotten _).inv_ended nofun

theorem inv_of_runWord {w : Word} (hu : runWord w s = .next u) : u.Inv := by
  cases hd : decode w with
  | ok i =>
    rw [runWord_of_decode hd] at hu
    exact inv_of_exec h hu
  | error e =>
    rw [runWord_of_error hd] at hu
    cases hu
    exact h.inv_ended nofun

/-- The reset input clears what CLR clears and forgets the three buffers. -/
theorem State.DataInv.resetBlock : s.resetBlock.Inv :=
  have hc : (s.cleared (outputsOf .clr)).DataInv := h.cleared (by decide)
  { hc.forgotten { regs := [], tabs := [], bufs := [.sym, .bits, .pkt] } with
    busyNotDone := nofun, errWhenDone := fun _ => rfl, infoWhenErr := fun _ => rfl }

end

/-- A byte of a buffer lies within its capacity. -/
def Location.InCapacity (p : Params) : Location → Prop
  | .sym i => i < p.symCap
  | .pkt i => i < p.pktCap
  | .bits i => i < p.bitCap / 8
  | _ => True

theorem Location.InCapacity.ite {p : Params} {c : Prop} [Decidable c] {l l' : Location} (h : c → l.InCapacity p)
    (h' : ¬c → l'.InCapacity p) : (if c then l else l').InCapacity p := by
  split
  · exact h ‹_›
  · exact h' ‹_›

/-- Beyond a buffer's capacity the address map has a reserved range (20_memory.md R60). -/
theorem locate_inCapacity (p : Params) (a : Nat) : (locate p a).InCapacity p := by
  have reserved : Location.reserved.InCapacity p := True.intro
  refine .ite (fun _ => by split <;> exact True.intro) fun _ => .ite (fun _ => reserved) fun _ =>
    .ite (fun _ => True.intro) fun _ => .ite (fun _ => reserved) fun _ => .ite (fun _ => True.intro) fun _ =>
    .ite (fun _ => True.intro) fun _ => .ite (fun _ => reserved) fun _ => ?_
  exact .ite (fun _ => .ite id fun _ => reserved) fun _ =>
    .ite (fun _ => .ite id fun _ => reserved) fun _ => .ite id fun _ => reserved

/-- The host writes within the capacities, and neither FREQ, CODE nor NSYM (20_memory.md R66). -/
theorem State.DataInv.locWrite {s : State} (h : s.DataInv) (v : Word) {l : Location} (hl : l.InCapacity s.params) :
    (s.locWrite v l).DataInv := by
  cases l with
  | register r => cases r <;> exact { h with }
  | freq x => exact h
  | code x o => exact h
  | ring k o => exact { h with }
  | sym i => exact { h with symFits := h.symFits.write _ hl }
  | pkt i => exact { h with pktFits := h.pktFits.write _ hl }
  | bits i => exact { h with bitsFits := h.bitsFits.write _ hl }
  | reserved => exact h

/-- A host write touches no flag. -/
theorem State.locWrite_flags (s : State) (v : Word) (l : Location) :
    (s.locWrite v l).inFlight = s.inFlight ∧ (s.locWrite v l).done = s.done ∧ (s.locWrite v l).err = s.err ∧
      (s.locWrite v l).errinfo = s.errinfo := by
  cases l with
  | register r => cases r <;> exact ⟨rfl, rfl, rfl, rfl⟩
  | _ => exact ⟨rfl, rfl, rfl, rfl⟩

theorem State.Inv.hostWrite {s : State} (h : s.Inv) (a : Nat) (v : Word) : (s.hostWrite a v).Inv := by
  obtain ⟨hf, hd, he, hi⟩ := s.locWrite_flags v (locate s.params a)
  exact { h.dataInv.locWrite v (locate_inCapacity s.params a) with
    busyNotDone := by rw [State.hostWrite, State.busy, hf, hd]; exact h.busyNotDone
    errWhenDone := by rw [State.hostWrite, hd, he]; exact h.errWhenDone
    infoWhenErr := by rw [State.hostWrite, he, hi]; exact h.infoWhenErr }

section
variable {s t : State} (h : s.Inv)
include h

theorem inv_of_hostAccess {a : Access} (ht : hostAccess a s = .next t) : t.Inv := by
  cases a with
  | read addr n =>
    simp only [hostAccess] at ht
    split_ifs at ht
    cases ht
    exact { h with }
  | write addr n v =>
    simp only [hostAccess] at ht
    split_ifs at ht
    · exact inv_of_runWord h.dataInv ht
    · cases ht
      exact h.hostWrite _ _

theorem inv_of_issueCommand {w : Word} (ht : issueCommand w s = .next t) : t.Inv := by
  unfold issueCommand at ht
  split at ht
  · cases ht
  · cases ht
    exact h.dataInv.inv_started w

theorem inv_of_engineStep (ht : engineStep s = .next t) : t.Inv := by
  unfold engineStep at ht
  split at ht
  · exact inv_of_runWord h.dataInv ht
  · cases ht
    exact h

theorem inv_of_runEvent {e : Event} (ht : runEvent e s = .next t) : t.Inv := by
  cases e with
  | access a => exact inv_of_hostAccess h ht
  | issue w => exact inv_of_issueCommand h ht
  | complete => exact inv_of_engineStep h ht
  | rst =>
    cases ht
    exact h.dataInv.resetBlock

end

/-- Settles O18: the events keep the invariant, and taking one off the script touches nothing it speaks of. -/
theorem stepKeepsTheInvariant : Obligations.StepKeepsTheInvariant := by
  intro s t h ht
  cases hs : s.script with
  | nil =>
    rw [step_nil hs] at ht
    exact inv_of_engineStep h ht
  | cons e es =>
    rw [step_cons hs] at ht
    exact inv_of_runEvent (s := { s with script := es }) { h with } ht

end Sys2Proof.Machine
end

