-- ==== Sys2Proof/Proofs/Prefix.lean ====
section
/-! PROOFS. Of the codes of BUILD's merges (41_frequency_and_tree.md R132) none begins another, and no other step writes a
valid code (10_state.md R32). Settles O19. -/

namespace Sys2Proof.Machine

/-! ### The merges -/

/-- Among the symbols of a list, no code begins another's. -/
def PrefixFreeOn (g : List Symbol) (c : Symbol → BitString) : Prop := ∀ x ∈ g, ∀ y ∈ g, x ≠ y → ¬ c x <+: c y

theorem PrefixFreeOn.singleton (x : Symbol) (c : Symbol → BitString) : PrefixFreeOn [x] c := by
  simp [PrefixFreeOn]

/-- Codes within a group get the same first bit, codes of the two groups a different one. -/
theorem PrefixFreeOn.merged {g1 g2 : List Symbol} {c : Symbol → BitString} (hd : g1.Disjoint g2)
    (h1 : PrefixFreeOn g1 c) (h2 : PrefixFreeOn g2 c) : PrefixFreeOn (g1 ++ g2) (prependBits g1 g2 c) := by
  have zero {x} (hx : x ∈ g1) : prependBits g1 g2 c x = false :: c x := if_pos hx
  have one {x} (hx : x ∈ g2) : prependBits g1 g2 c x = true :: c x := (if_neg fun h => hd h hx).trans (if_pos hx)
  intro x hx y hy hxy
  rcases List.mem_append.1 hx with hx | hx <;> rcases List.mem_append.1 hy with hy | hy
  · simpa [zero hx, zero hy] using h1 x hx y hy hxy
  · simp [zero hx, one hy]
  · simp [one hx, zero hy]
  · simpa [one hx, one hy] using h2 x hx y hy hxy

/-- A merge leaves the codes of the other groups alone. -/
theorem PrefixFreeOn.unmerged {g g1 g2 : List Symbol} {c : Symbol → BitString} (hd : (g1 ++ g2).Disjoint g)
    (h : PrefixFreeOn g c) : PrefixFreeOn g (prependBits g1 g2 c) := by
  have same {x} (hx : x ∈ g) : prependBits g1 g2 c x = c x := by
    have h1 : x ∉ g1 := fun hx1 => hd (List.mem_append_left g2 hx1) hx
    have h2 : x ∉ g2 := fun hx2 => hd (List.mem_append_right g1 hx2) hx
    rw [prependBits, if_neg h1, if_neg h2]
  intro x hx y hy hxy
  rw [same hx, same hy]
  exact h x hx y hy hxy

/-- The queue's groups share out the symbols of `l`, and within a group no code so far begins another. -/
def SharedOutPrefixFree (l : List Symbol) (q : List Node) (c : Symbol → BitString) : Prop :=
  (q.flatMap Node.group).Perm l ∧ ∀ n ∈ q, PrefixFreeOn n.group c

theorem SharedOutPrefixFree.turn {l : List Symbol} (hl : l.Nodup) {q q1 r : List Node} {n1 n2 : Node}
    {c : Symbol → BitString} (h1 : popMin q = some (n1, q1)) (h2 : popMin q1 = some (n2, r))
    (h : SharedOutPrefixFree l q c) :
    SharedOutPrefixFree l (mergeNodes n1 n2 :: r) (prependBits n1.group n2.group c) := by
  obtain ⟨hshare, hfree⟩ := h
  have hq : q.Perm (n1 :: n2 :: r) := (popMin_perm h1).trans ((popMin_perm h2).cons n1)
  have hshare' : ((n1.group ++ n2.group) ++ r.flatMap Node.group).Perm l := by
    simpa using (hq.flatMap_right Node.group).symm.trans hshare
  have hnodup := hshare'.nodup_iff.2 hl
  have hfree' {n} (hn : n ∈ n1 :: n2 :: r) : PrefixFreeOn n.group c := hfree n (hq.mem_iff.2 hn)
  refine ⟨hshare', List.forall_mem_cons.2 ⟨?_, fun n hn => ?_⟩⟩
  · exact .merged (List.disjoint_of_nodup_append hnodup.of_append_left) (hfree' (by simp)) (hfree' (by simp))
  · refine .unmerged (fun x hx hx' => ?_) (hfree' (by simp [hn]))
    exact List.disjoint_of_nodup_append hnodup hx (List.mem_flatMap.2 ⟨n, hn, hx'⟩)

/-- The symbols that occur (41_frequency_and_tree.md R132). -/
def occurring (freq : Table Word) : List Symbol := allSymbols.filter fun x => freq.entry x ≠ 0

theorem mem_occurring {freq : Table Word} {x : Symbol} : x ∈ occurring freq ↔ freq.entry x ≠ 0 := by simp [occurring]

theorem nodup_occurring (freq : Table Word) : (occurring freq).Nodup := nodup_allSymbols.filter _

/-- The groups of the initial queue are the symbols that occur, one by one. -/
theorem flatMap_group_initialQueue (freq : Table Word) :
    (initialQueue freq).flatMap Node.group = occurring freq := by
  rw [initialQueue, occurring]
  induction allSymbols with
  | nil => rfl
  | cons x xs ih =>
    by_cases hx : freq.entry x = 0#32 <;> simpa [List.filterMap_cons, hx] using ih

theorem group_of_mem_initialQueue {freq : Table Word} {n : Node} (h : n ∈ initialQueue freq) : ∃ x, n.group = [x] := by
  obtain ⟨x, -, hx⟩ := List.mem_filterMap.1 h
  split at hx
  · cases hx
  · cases hx
    exact ⟨x, rfl⟩

/-! ### BUILD -/

/-- In the end one group holds all the symbols that occur. -/
theorem prefixFreeOn_buildCodes (freq : Table Word) :
    PrefixFreeOn (occurring freq) (buildCodes freq) := by
  rw [buildCodes]
  split
  next hone =>
    rw [length_initialQueue, List.length_eq_one_iff] at hone
    obtain ⟨x, hx⟩ := hone
    rw [occurring, hx]
    exact .singleton x _
  next =>
    have start : SharedOutPrefixFree (occurring freq) (initialQueue freq) fun _ => [] := by
      refine ⟨.of_eq (flatMap_group_initialQueue freq), fun n hn => ?_⟩
      obtain ⟨x, hx⟩ := group_of_mem_initialQueue hn
      rw [hx]
      exact .singleton x _
    obtain ⟨q, hlen, hshare, hfree⟩ :=
      mergeLoop_induction (fun h1 h2 h => h.turn (nodup_occurring freq) h1 h2) le_rfl start
    match q, hlen with
    | [], _ =>
      rw [← hshare.nil_eq]
      nofun
    | [n], _ =>
      have hmem {x} : x ∈ n.group ↔ x ∈ occurring freq := by simpa using hshare.mem_iff
      exact fun x hx y hy => hfree n List.mem_cons_self x (hmem.2 hx) y (hmem.2 hy)

theorem prefixFree_codeTable (freq : Table Word) : PrefixFree (codeTable freq (buildCodes freq)) := by
  have built {x} (hx : ((codeTable freq (buildCodes freq)).entry x).valid = true) :
      freq.entry x ≠ 0 ∧ ((codeTable freq (buildCodes freq)).entry x).key = buildCodes freq x := by
    rw [entry_codeTable] at hx ⊢
    split at hx
    · cases hx
    next h0 =>
      rw [if_neg h0]
      exact ⟨h0, CodeEntry.key_ofCode (buildCodes_bounds h0).2⟩
  intro x y hx hy hxy
  obtain ⟨hx0, hxk⟩ := built hx
  obtain ⟨hy0, hyk⟩ := built hy
  rw [hxk, hyk]
  exact prefixFreeOn_buildCodes freq x (mem_occurring.2 hx0) y (mem_occurring.2 hy0) hxy

theorem prefixFree_zero : PrefixFree (Vector.replicate 256 CodeEntry.zero) := by
  intro x y hx
  simp at hx

/-! ### What a step does to CODE -/

/-- What a step can leave in CODE: what stood there, the cleared table, or the codes BUILD gives to a FREQ (10_state.md
R32, R40). -/
inductive CodeWrite (c : Table CodeEntry) : Table CodeEntry → Prop where
  | kept : CodeWrite c c
  | cleared : CodeWrite c (Vector.replicate 256 CodeEntry.zero)
  | built (freq : Table Word) : CodeWrite c (codeTable freq (buildCodes freq))

theorem CodeWrite.of_eq {c c' : Table CodeEntry} (h : c' = c) : CodeWrite c c' := by
  rw [h]
  exact .kept

theorem CodeWrite.trans {c c' c'' : Table CodeEntry} (h : CodeWrite c c') (h' : CodeWrite c' c'') : CodeWrite c c'' := by
  cases h' with
  | kept => exact h
  | cleared => exact .cleared
  | built freq => exact .built freq

theorem CodeWrite.prefixFree {c c' : Table CodeEntry} (h : CodeWrite c c') (hc : PrefixFree c) : PrefixFree c' := by
  cases h with
  | kept => exact hc
  | cleared => exact prefixFree_zero
  | built freq => exact prefixFree_codeTable freq

theorem codeWrite_cleared (s : State) (o : Items) : CodeWrite s.code (s.cleared o).code := by
  rw [State.cleared_code]
  split
  · exact .cleared
  · exact .kept

/-- A field that no write of an answer touches is as it was. -/
theorem field_of_map_eq_ok {α β : Type} (field : State → β) {x : Except Raised α} {f : α → State} {s u : State}
    (hu : x.map f = .ok u) (hf : ∀ a, field (f a) = field s) : field u = field s := by
  obtain ⟨a, -, rfl⟩ := map_eq_ok hu
  exact hf a

theorem codeWrite_of_histRule {s u : State} (hu : histRule s = .ok u) : CodeWrite s.code u.code :=
  .of_eq (field_of_map_eq_ok State.code ((histRule_eq s).symm.trans hu) fun _ => rfl)

theorem codeWrite_of_mapRule {s u : State} (hu : mapRule s = .ok u) : CodeWrite s.code u.code :=
  .of_eq (field_of_map_eq_ok State.code ((mapRule_eq s).symm.trans hu) fun _ => rfl)

theorem codeWrite_of_packRule {s u : State} (hu : packRule s = .ok u) : CodeWrite s.code u.code :=
  .of_eq (field_of_map_eq_ok State.code ((packRule_eq s).symm.trans hu) fun _ => rfl)

theorem codeWrite_of_unpackRule {s u : State} (hu : unpackRule s = .ok u) : CodeWrite s.code u.code :=
  .of_eq (field_of_map_eq_ok State.code ((unpackRule_eq s).symm.trans hu) fun _ => rfl)

theorem codeWrite_of_walkRule {s u : State} (hu : walkRule s = .ok u) : CodeWrite s.code u.code :=
  .of_eq (field_of_map_eq_ok State.code ((walkRule_eq s).symm.trans hu) fun _ => rfl)

theorem codeWrite_of_buildRule {s u : State} (hu : buildRule s = .ok u) : CodeWrite s.code u.code := by
  rw [buildRule_eq] at hu
  split at hu
  · cases hu
  · cases hu
    exact .built s.freq

/-- What a successful ENC did: its four bodies one after another (42_map_and_pack.md R163). -/
theorem encRule_eq_ok {s u : State} (hu : encRule s = .ok u) :
    ∃ s1 s2 s3, histRule s = .ok s1 ∧ buildRule s1 = .ok s2 ∧ mapRule s2 = .ok s3 ∧ packRule s3 = .ok u := by
  rw [encRule_eq] at hu
  split at hu
  · cases hu
  split at hu
  · cases hu
  obtain ⟨s3, h3, hpack⟩ := bind_eq_ok hu
  obtain ⟨s2, h2, hmap⟩ := bind_eq_ok h3
  obtain ⟨s1, hhist, hbuild⟩ := bind_eq_ok h2
  exact ⟨s1, s2, s3, hhist, hbuild, hmap, hpack⟩

theorem codeWrite_of_ruleOf {i : Instr} {s u : State} (hu : ruleOf i s = .ok u) : CodeWrite s.code u.code := by
  cases i with
  | nop =>
    cases hu
    exact .kept
  | clr =>
    cases hu
    exact .cleared
  | hist => exact codeWrite_of_histRule hu
  | build => exact codeWrite_of_buildRule hu
  | map => exact codeWrite_of_mapRule hu
  | pack => exact codeWrite_of_packRule hu
  | enc =>
    obtain ⟨s1, s2, s3, hhist, hbuild, hmap, hpack⟩ := encRule_eq_ok hu
    exact (codeWrite_of_histRule hhist).trans <| (codeWrite_of_buildRule hbuild).trans <|
      (codeWrite_of_mapRule hmap).trans (codeWrite_of_packRule hpack)
  | unpack => exact codeWrite_of_unpackRule hu
  | walk => exact codeWrite_of_walkRule hu
  | dec =>
    obtain ⟨s1, hunpack, hwalk⟩ := bind_eq_ok hu
    exact (codeWrite_of_unpackRule hunpack).trans (codeWrite_of_walkRule hwalk)

section
variable {s t : State}

theorem codeWrite_of_exec {i : Instr} (ht : exec i s = .next t) : CodeWrite s.code t.code := by
  rw [exec_eq_command, command_eq_next_iff] at ht
  rcases ht with ⟨u, hu, rfl⟩ | ⟨r, -, rfl⟩
  · have hw := codeWrite_of_ruleOf hu
    exact (codeWrite_cleared s _).trans hw
  · exact codeWrite_cleared s _

theorem codeWrite_of_runWord {w : Word} (ht : runWord w s = .next t) : CodeWrite s.code t.code := by
  cases hd : decode w with
  | ok i =>
    rw [runWord_of_decode hd] at ht
    exact codeWrite_of_exec ht
  | error e =>
    rw [runWord_of_error hd] at ht
    cases ht
    exact .kept

/-- The host cannot write CODE (20_memory.md R66). -/
theorem State.locWrite_code (s : State) (v : Word) (l : Location) : (s.locWrite v l).code = s.code := by
  cases l with
  | register r => cases r <;> rfl
  | _ => rfl

theorem codeWrite_of_hostAccess {a : Access} (ht : hostAccess a s = .next t) : CodeWrite s.code t.code := by
  cases a with
  | read addr n =>
    simp only [hostAccess] at ht
    split_ifs at ht
    cases ht
    exact .kept
  | write addr n v =>
    simp only [hostAccess] at ht
    split_ifs at ht
    · exact codeWrite_of_runWord ht
    · cases ht
      exact .of_eq (State.locWrite_code s v _)

theorem codeWrite_of_engineStep (ht : engineStep s = .next t) : CodeWrite s.code t.code := by
  unfold engineStep at ht
  split at ht
  · exact codeWrite_of_runWord ht
  · cases ht
    exact .kept

theorem codeWrite_of_runEvent {e : Event} (ht : runEvent e s = .next t) : CodeWrite s.code t.code := by
  cases e with
  | access a => exact codeWrite_of_hostAccess ht
  | issue w =>
    simp only [runEvent, issueCommand] at ht
    split at ht
    · cases ht
    · cases ht
      exact .kept
  | complete => exact codeWrite_of_engineStep ht
  | rst =>
    cases ht
    exact .cleared

theorem codeWrite_of_step (ht : step s = .next t) : CodeWrite s.code t.code := by
  cases hs : s.script with
  | nil =>
    rw [step_nil hs] at ht
    exact codeWrite_of_engineStep ht
  | cons e es =>
    rw [step_cons hs] at ht
    exact codeWrite_of_runEvent (s := { s with script := es }) ht

end

/-- Settles O19: a step keeps CODE, clears it, or fills it with the codes of BUILD's merges, of which
none begins another. -/
theorem stepKeepsCodesPrefixFree : Obligations.StepKeepsCodesPrefixFree :=
  fun _ _ hfree hstep => (codeWrite_of_step hstep).prefixFree hfree

end Sys2Proof.Machine
end

