-- ==== Sys2Proof/Proofs/Counts.lean ====
section
/-! PROOFS. Where nothing wraps, HIST's counts sum to the message's length (10_state.md R31). Settles O23. -/

namespace Sys2Proof.Machine

theorem eq_message_of_messageOperand {s : State} {m : List Symbol} (h : s.messageOperand = .ok m) : m = s.message := by
  unfold State.messageOperand at h
  split at h
  · cases h
  · cases h
    rfl

/-- A message that SYM_LEN can count has counts that FREQ can hold. -/
theorem freqTotal_countSymbols {m : List Symbol} (h : m.length < 2 ^ 32) : freqTotal (countSymbols m) = m.length := by
  have count (x : Symbol) : ((countSymbols m).entry x).toNat = m.count x := by
    rw [entry_countSymbols, BitVec.toNat_ofNat]
    exact Nat.mod_eq_of_lt (List.count_le_length.trans_lt h)
  rw [freqTotal, funext count]
  exact sum_count_of_nodup nodup_allSymbols fun x _ => mem_allSymbols x

theorem freqTotal_of_histRule {s u : State} (hu : histRule s = .ok u) : freqTotal u.freq = s.symLen.toNat := by
  rw [histRule_eq] at hu
  obtain ⟨m, hm, rfl⟩ := map_eq_ok hu
  obtain rfl := eq_message_of_messageOperand hm
  have hlen := length_message s
  rw [← hlen]
  exact freqTotal_countSymbols (hlen ▸ s.symLen.isLt)

/-- BUILD, MAP and PACK do not write FREQ, so ENC leaves the counts of its HIST (42_map_and_pack.md R163). -/
theorem freqTotal_of_encRule {s u : State} (hu : encRule s = .ok u) : freqTotal u.freq = s.symLen.toNat := by
  obtain ⟨s1, s2, s3, hhist, hbuild, hmap, hpack⟩ := encRule_eq_ok hu
  have h2 : s2.freq = s1.freq := by
    rw [buildRule_eq] at hbuild
    split at hbuild
    · cases hbuild
    · cases hbuild
      rfl
  have h3 : s3.freq = s2.freq := field_of_map_eq_ok State.freq ((mapRule_eq s2).symm.trans hmap) fun _ => rfl
  have h4 : u.freq = s3.freq := field_of_map_eq_ok State.freq ((packRule_eq s3).symm.trans hpack) fun _ => rfl
  rw [h4, h3, h2]
  exact freqTotal_of_histRule hhist

/-- Settles O23: SYM_LEN is no output of the two commands, so the rule counts the message of the SYM_LEN at the start. -/
theorem freqSumsToTheMessageLength : Obligations.FreqSumsToTheMessageLength := by
  rintro i s t (rfl | rfl) ht herr
  · obtain ⟨u, hu, rfl⟩ := command_success ht herr
    simpa [outputsOf] using freqTotal_of_histRule hu
  · obtain ⟨u, hu, rfl⟩ := command_success ht herr
    simpa [outputsOf] using freqTotal_of_encRule hu

end Sys2Proof.Machine
end

