-- ==== Sys2Proof/Proofs/Reads.lean ====
section
/-! PROOFS. What a read of an idle block returns (20_memory.md R60 to R66): where each address lies, and what stands there.
Settles O54. -/

namespace Sys2Proof.Machine

/-! ### The address map (20_memory.md R60) -/

/-- The capacities that keep the buffers within their ranges (00_scope.md R5). -/
theorem Params.caps_le_of_wf {p : Params} (h : p.wf = true) : p.symCap ≤ 2 ^ 20 ∧ p.bitCap ≤ 2 ^ 23 := by
  simp only [Params.wf, Params.symCapOk, Params.bitCapOk, Bool.and_eq_true, decide_eq_true_eq] at h
  exact ⟨h.1.2, h.2.2⟩

theorem locate_register (p : Params) (r : RegName) : locate p r.offset = .register r := by cases r <;> rfl

theorem locate_freq (p : Params) (x : Symbol) : locate p (0x400 + 4 * x.toNat) = .freq x := by
  have hx := x.isLt
  have hdiv : (0x400 + 4 * x.toNat - 0x400) / 4 = x.toNat := by omega
  rw [locate, if_neg (by omega), if_neg (by omega), if_pos (by omega), hdiv, BitVec.ofNat_toNat, BitVec.setWidth_eq]

/-- The number of a 64-byte record and the byte in it. -/
theorem record_div_mod (b n : Nat) {o : Nat} (ho : o < 64) :
    (b + 64 * n + o - b) / 64 = n ∧ (b + 64 * n + o - b) % 64 = o := by omega

theorem locate_code (p : Params) (x : Symbol) {o : Nat} (ho : o < 64) :
    locate p (0x4000 + 64 * x.toNat + o) = .code x o := by
  have hx := x.isLt
  obtain ⟨hdiv, hmod⟩ := record_div_mod 0x4000 x.toNat ho
  rw [locate, if_neg (by omega), if_neg (by omega), if_neg (by omega), if_neg (by omega), if_pos (by omega), hdiv, hmod,
    BitVec.ofNat_toNat, BitVec.setWidth_eq]

theorem locate_ring (p : Params) (k : Symbol) {o : Nat} (ho : o < 64) :
    locate p (0x8000 + 64 * k.toNat + o) = .ring k o := by
  have hk := k.isLt
  obtain ⟨hdiv, hmod⟩ := record_div_mod 0x8000 k.toNat ho
  rw [locate, if_neg (by omega), if_neg (by omega), if_neg (by omega), if_neg (by omega), if_neg (by omega),
    if_pos (by omega), hdiv, hmod, BitVec.ofNat_toNat, BitVec.setWidth_eq]

/-- From 0x100000 up the address map has the three buffers alone. -/
theorem locate_buffers (p : Params) {a : Nat} (ha : 0x100000 ≤ a) :
    locate p a =
      if a < 0x200000 then if a - 0x100000 < p.symCap then .sym (a - 0x100000) else .reserved
      else if a < 0x400000 then if a - 0x200000 < p.pktCap then .pkt (a - 0x200000) else .reserved
      else if a - 0x400000 < p.bitCap / 8 then .bits (a - 0x400000) else .reserved := by
  rw [locate, if_neg (by omega), if_neg (by omega), if_neg (by omega), if_neg (by omega), if_neg (by omega),
    if_neg (by omega), if_neg (by omega)]

section
variable {p : Params} (hp : p.wf = true) {i : Nat}
include hp

theorem locate_sym (hi : i < p.symCap) : locate p (0x100000 + i) = .sym i := by
  have hcap := (Params.caps_le_of_wf hp).1
  rw [locate_buffers p (by omega), if_pos (by omega), Nat.add_sub_cancel_left, if_pos hi]

theorem locate_pkt (hi : i < p.pktCap) : locate p (0x200000 + i) = .pkt i := by
  have hcap := (Params.caps_le_of_wf hp).2
  have hlt : i < 0x200000 := by
    unfold Params.pktCap at hi
    omega
  rw [locate_buffers p (by omega), if_neg (by omega), if_pos (by omega), Nat.add_sub_cancel_left, if_pos hi]

end

theorem locate_bits {p : Params} {i : Nat} (hi : i < p.bitCap / 8) : locate p (0x400000 + i) = .bits i := by
  rw [locate_buffers p (by omega), if_neg (by omega), if_neg (by omega), Nat.add_sub_cancel_left, if_pos hi]

/-! ### What stands at a location -/

/-- STATUS of an idle block in numbers: DONE in bit 1 and ERR from bit 4 on (10_state.md R22). -/
theorem toNat_statusWord {s : State} (hb : s.busy = false) :
    s.statusWord.toNat = 2 * s.done.toNat + 16 * errNumber s.err := by
  rw [State.statusWord, hb]
  generalize s.done = d, s.err = e
  cases d <;> rcases e with _ | (_ | _ | _ | _ | _ | _) <;> rfl

/-- A byte of the BITS field of a record (30_encoding.md R96). -/
theorem recordByte_bits (e : CodeEntry) (x : Byte) (i : Fin 32) : recordByte e x (4 + i.val) = e.bits[i] := by
  have hi := i.isLt
  rw [recordByte, if_neg (by omega), if_neg (by omega), if_neg (by omega), if_pos (by omega), Nat.add_sub_cancel_left]
  simp

theorem recordByte_reserved (e : CodeEntry) (x : Byte) {o : Nat} (ho : 36 ≤ o) : recordByte e x o = 0 := by
  rw [recordByte, if_neg (by omega), if_neg (by omega), if_neg (by omega), if_neg (by omega)]

/-! ### Reads -/

/-- If the next event is a read of `n` bytes at `a`, the step returns `v` to the host and changes nothing else. -/
def ReadsAs (s : State) (es : List Event) (a n : Nat) (v : Word) : Prop :=
  s.script = .access (.read (BitVec.ofNat 23 a) n) :: es →
    step s = .next { s with script := es, reads := s.reads ++ [v] }

/-- The 64 bytes from `E` on read as the record of `e` and `x` (30_encoding.md R96). -/
def ReadsAsRecord (s : State) (es : List Event) (E : Nat) (e : CodeEntry) (x : Byte) : Prop :=
  ReadsAs s es E 1 (e.len.zeroExtend 32) ∧ ReadsAs s es (E + 1) 1 (x.zeroExtend 32) ∧
    ReadsAs s es (E + 2) 1 (if e.valid then 1 else 0) ∧ ReadsAs s es (E + 3) 1 0 ∧
    (∀ i : Fin 32, ReadsAs s es (E + 4 + i.val) 1 (e.bits[i].zeroExtend 32)) ∧
    ∀ o, 36 ≤ o → o < 64 → ReadsAs s es (E + o) 1 0

section
variable {s : State} (hb : s.busy = false) (es : List Event) {a n : Nat}
include hb

/-- A read that is not malformed returns what stands at the address. -/
theorem readsAs_locRead (ha : a < 0x800000) (hn : ¬ Malformed a n) :
    ReadsAs s es a n (s.locRead (locate s.params a)) := by
  intro hscript
  have haddr : (BitVec.ofNat 23 a).toNat = a := by
    rw [BitVec.toNat_ofNat]
    omega
  have hshape : shapeOk (BitVec.ofNat 23 a).toNat n = true := by rwa [haddr, shapeOk_eq_true_iff]
  have hread := hostAccess_read (s := { s with script := es }) hb hshape
  rw [haddr] at hread
  exact (step_cons hscript).trans hread

/-- Registers and FREQ are read as words (20_memory.md R62). -/
theorem readsAs_word {l : Location} (hl : locate s.params a = l) (ha : a < 0x800) (ha4 : a % 4 = 0) :
    ReadsAs s es a 4 (s.locRead l) := by
  subst hl
  exact readsAs_locRead hb es (by omega) (by unfold Malformed; omega)

/-- The records and buffers are read as bytes (20_memory.md R62). -/
theorem readsAs_byte {l : Location} (hl : locate s.params a = l) (h800 : 0x800 ≤ a) (ha : a < 0x800000) :
    ReadsAs s es a 1 (s.locRead l) := by
  subst hl
  exact readsAs_locRead hb es ha (by unfold Malformed; omega)

theorem readsAs_register (r : RegName) : ReadsAs s es r.offset 4 (s.locRead (.register r)) :=
  readsAs_word hb es (locate_register _ r) (by cases r <;> decide) (by cases r <;> rfl)

end

/-- A record read byte by byte reads field by field. -/
theorem readsAsRecord_of_bytes {s : State} {es : List Event} {E : Nat} {e : CodeEntry} {x : Byte}
    (h : ∀ o < 64, ReadsAs s es (E + o) 1 ((recordByte e x o).zeroExtend 32)) : ReadsAsRecord s es E e x := by
  refine ⟨h 0 (by omega), h 1 (by omega), ?_, h 3 (by omega), fun i => ?_, fun o ho ho' => ?_⟩
  · have hflags : (recordByte e x 2).zeroExtend 32 = if e.valid then 1 else 0 := by
      cases hv : e.valid <;> simp [recordByte, hv]
    exact hflags ▸ h 2 (by omega)
  · have hbits := h (4 + i.val) (by omega)
    rwa [recordByte_bits, ← Nat.add_assoc] at hbits
  · have hreserved := h o ho'
    rwa [recordByte_reserved e x ho] at hreserved

/-- Settles O54: an address lies where the map says, and a read of an idle block returns what stands there. -/
theorem hostReadReturnsTheContents : Obligations.HostReadReturnsTheContents := by
  intro s es hb hp
  have hsymCap := (Params.caps_le_of_wf hp).1
  have hbitCap := (Params.caps_le_of_wf hp).2
  have hpktCap : s.params.pktCap = 1 + s.params.bitCap / 8 := rfl
  have reg := readsAs_register hb es
  refine ⟨reg .cmd, fun v hv => ?_, reg .errinfo, reg .symLen, reg .bitLen, reg .pktLen, reg .pad, reg .nsym,
    fun x => ?_, fun x => ?_, fun k => ?_, fun i hi => ?_, fun i hi => ?_, fun i hi => ?_, fun a n ha hn hl => ?_⟩
  · obtain rfl : s.statusWord = v := BitVec.eq_of_toNat_eq ((toNat_statusWord hb).trans hv.symm)
    exact reg .status
  · exact readsAs_word hb es (locate_freq _ x) (by omega) (by omega)
  · exact readsAsRecord_of_bytes fun o ho => readsAs_byte hb es (locate_code _ x ho) (by omega) (by omega)
  · exact readsAsRecord_of_bytes fun o ho => readsAs_byte hb es (locate_ring _ k ho) (by omega) (by omega)
  · exact readsAs_byte hb es (locate_sym hp hi) (by omega) (by omega)
  · exact readsAs_byte hb es (locate_pkt hp hi) (by omega) (by omega)
  · exact readsAs_byte hb es (locate_bits hi) (by omega) (by omega)
  · have hread := readsAs_locRead hb es ha hn
    rwa [hl] at hread

end Sys2Proof.Machine
end

