-- ==== Sys2Proof/Proofs/Completion.lean ====
section
/-! PROOFS. How every command ends, and that none reads what it writes (40_control.md R120). Settles O6 and O8. -/

namespace Sys2Proof.Machine

/-- The flags of a completed command (10_state.md R22). -/
theorem toNat_statusWord_ended (s : State) (e : Option CmdError) (info : Word) :
    (s.ended e info).statusWord.toNat = 2 + 16 * errNumber e :=
  toNat_statusWord (State.busy_ended s e info)

/-- Settles O6: both ends of a command are an `ended` state, and the one without an error has ERRINFO 0. -/
theorem everyCommandCompletes : Obligations.EveryCommandCompletes := by
  intro i s
  obtain ⟨t, ht⟩ := exists_exec_eq_next i s
  refine ⟨t, ht, ?_⟩
  rw [exec_eq_command, command_eq_next_iff] at ht
  rcases ht with ⟨u, -, rfl⟩ | ⟨r, -, rfl⟩
  · exact ⟨rfl, rfl, toNat_statusWord_ended u none 0, fun _ => rfl⟩
  · exact ⟨rfl, rfl, toNat_statusWord_ended _ (some r.err) r.info, nofun⟩

/-- Settles O8, row by row of the two tables. -/
theorem inputsAndOutputsAreDisjoint : Obligations.InputsAndOutputsAreDisjoint := by
  intro i
  cases i <;> decide

end Sys2Proof.Machine
end

