-- ==== Sys2Proof/Proofs/Reset.lean ====
section
/-! PROOFS. The state after reset (10_state.md R39): its values, and the invariants it meets. Settles O15 and O17. -/

namespace Sys2Proof.Machine

/-- Settles O15: every field is the value written in `State.reset`, and a table there is one value throughout. -/
theorem resetValues : Obligations.ResetValues := by
  refine ⟨rfl, rfl, fun r => ?_, Table.entry_replicate 0, Table.entry_replicate CodeEntry.zero,
    Table.entry_replicate RingSlot.zero, fun b => ?_, rfl⟩
  · cases r <;> rfl
  · cases b <;> rfl

theorem inv_reset : State.reset.Inv where
  params := by decide
  symFits := .unspecified 0 _
  bitsFits := .unspecified 1 _
  pktFits := .unspecified 2 _
  draws := by decide
  drawsDiffer := by decide
  busyNotDone := nofun
  errWhenDone _ := rfl
  infoWhenErr _ := rfl
  freqBound := freqTotal_zero.trans_le (Nat.zero_le _)
  codeForm x := (Table.entry_replicate CodeEntry.zero x).symm ▸ engineWritten_zero
  nsymCounts := (congrArg List.length codedSymbols_zero).symm

/-- Settles O17: the buffers list no byte, and the tables hold no count and no code. -/
theorem resetMeetsTheInvariants : Obligations.ResetMeetsTheInvariants := ⟨inv_reset, prefixFree_zero⟩

end Sys2Proof.Machine
end

