-- ==== Sys2Proof/Proofs/Accesses.lean ====
section
/-! PROOFS. What a host access comes to (20_memory.md R62, R63, R66; 70_reset_and_hazards.md R254): it is done or it is
refused, and a read is free of side effects. Settles O14, O48 and O51. -/

namespace Sys2Proof.Machine

/-! ### Stops -/

theorem shapeOk_eq_false_iff (a n : Nat) : shapeOk a n = false ↔ Malformed a n := by
  rw [← Bool.not_eq_true, shapeOk_eq_true_iff, not_not]

/-- A read is done, or it is refused on one of the two grounds. -/
theorem hostAccess_read_cases (a : Addr) (n : Nat) (s : State) :
    (∃ t, hostAccess (.read a n) s = .next t) ∨
    (hostAccess (.read a n) s = .refused .accessWhileBusy ∧ s.busy = true ∧ ¬(a = 4 ∧ n = 4)) ∨
    (hostAccess (.read a n) s = .refused .malformedAccess ∧ s.busy = false ∧ Malformed a.toNat n) := by
  cases hb : s.busy with
  | true =>
    rw [hostAccess_read_busy hb]
    split
    · exact .inl ⟨_, rfl⟩
    next hstatus => exact .inr (.inl ⟨rfl, rfl, fun ⟨ha, hn⟩ => hstatus ⟨congrArg BitVec.toNat ha, hn⟩⟩)
  | false =>
    cases hs : shapeOk a.toNat n with
    | true => exact .inl ⟨_, hostAccess_read hb hs⟩
    | false => exact .inr (.inr ⟨(hostAccess_malformed hb hs).1, rfl, (shapeOk_eq_false_iff _ _).1 hs⟩)

/-- A write is done, as a store or as a command, or it is refused on one of the two grounds. -/
theorem hostAccess_write_cases (a : Addr) (n : Nat) (v : Word) (s : State) :
    (∃ t, hostAccess (.write a n v) s = .next t) ∨
    (hostAccess (.write a n v) s = .refused .accessWhileBusy ∧ s.busy = true) ∨
    (hostAccess (.write a n v) s = .refused .malformedAccess ∧ s.busy = false ∧ Malformed a.toNat n) := by
  cases hb : s.busy with
  | true => exact .inr (.inl ⟨hostAccess_write_busy hb a n v, rfl⟩)
  | false =>
    cases hs : shapeOk a.toNat n with
    | false => exact .inr (.inr ⟨(hostAccess_malformed hb hs).2 v, rfl, (shapeOk_eq_false_iff _ _).1 hs⟩)
    | true =>
      by_cases hc : a.toNat = RegName.cmd.offset
      · obtain ⟨t, ht⟩ := exists_runWord_eq_next v s
        rw [hc] at hs
        exact .inl ⟨t, by simpa [hostAccess, hb, hc, hs] using ht⟩
      · exact .inl ⟨_, hostAccess_write hb hs hc⟩

/-- Settles O14: the engine never stops, an issue is refused only while busy, and an access stops on its two grounds. -/
theorem stepStopsOnlyOnForbiddenAccesses : Obligations.StepStopsOnlyOnForbiddenAccesses := by
  intro s
  cases hs : s.script with
  | nil =>
    rw [step_nil hs]
    exact .inl (exists_engineStep_eq_next s)
  | cons e es =>
    rw [step_cons hs]
    cases e with
    | access x =>
      cases x with
      | read a n =>
        rcases hostAccess_read_cases a n { s with script := es } with h | ⟨h, hb, hn⟩ | ⟨h, hb, hm⟩
        · exact .inl h
        · exact .inr (.inl ⟨h, hb, es, .inl ⟨a, n, rfl, hn⟩⟩)
        · exact .inr (.inr ⟨h, hb, es, a, n, hm, .inl rfl⟩)
      | write a n v =>
        rcases hostAccess_write_cases a n v { s with script := es } with h | ⟨h, hb⟩ | ⟨h, hb, hm⟩
        · exact .inl h
        · exact .inr (.inl ⟨h, hb, es, .inr (.inl ⟨a, n, v, rfl⟩)⟩)
        · exact .inr (.inr ⟨h, hb, es, a, n, hm, .inr ⟨v, rfl⟩⟩)
    | issue w =>
      rw [runEvent, issueCommand]
      split
      next hb => exact .inr (.inl ⟨rfl, hb, es, .inr (.inr ⟨w, rfl⟩)⟩)
      · exact .inl ⟨_, rfl⟩
    | complete => exact .inl (exists_engineStep_eq_next _)
    | rst => exact .inl ⟨_, rfl⟩

/-- Settles O51: the malformed shapes are those that the access check rejects. -/
theorem malformedAccessIsRefused : Obligations.MalformedAccessIsRefused := by
  intro s a n v es hb hm hscript
  have hs : shapeOk a.toNat n = false := (shapeOk_eq_false_iff _ _).2 hm
  obtain ⟨hread, hwrite⟩ := hostAccess_malformed (s := { s with script := es }) hb hs
  rcases hscript with h | h
  · exact (step_cons h).trans hread
  · exact (step_cons h).trans (hwrite v)

/-! ### Reads -/

/-- What stands at a location does not depend on the host's two lists. -/
theorem locRead_script_reads (s : State) (es : List Event) (vs : List Word) (l : Location) :
    ({ s with script := es, reads := vs } : State).locRead l = s.locRead l := rfl

/-- A read that is not malformed is one step, which gives the host what stands at the address. -/
theorem step_read {s : State} {a : Addr} {n : Nat} {es : List Event} (hb : s.busy = false) (hm : ¬ Malformed a.toNat n)
    (h : s.script = .access (.read a n) :: es) :
    step s = .next { s with script := es, reads := s.reads ++ [s.locRead (locate s.params a.toNat)] } := by
  rw [step_cons h]
  exact hostAccess_read (s := { s with script := es }) hb ((shapeOk_eq_true_iff _ _).2 hm)

/-- Settles O48: the state after the read differs only in the host's two lists, so the second read finds the same. -/
theorem readsHaveNoSideEffect : Obligations.ReadsHaveNoSideEffect := by
  intro s a n es hb hm h
  have hagain : step { s with
      script := .access (.read a n) :: es, reads := s.reads ++ [s.locRead (locate s.params a.toNat)] } = _ :=
    step_read hb hm rfl
  rw [locRead_script_reads, List.append_assoc] at hagain
  refine ⟨_, step_read hb hm h, rfl, hagain, ?_⟩
  rintro (hl | rfl)
  · rw [hl]
    rfl
  · exact congrArg s.locRead (locate_register s.params .cmd)

end Sys2Proof.Machine
end

