-- ==== Sys2Proof/Proofs/AddressMap.lean ====
section
/-! PROOFS. The reserved ranges of the address map (20_memory.md R60). Settles O47. -/

namespace Sys2Proof.Machine

/-- The reserved ranges between and above the registers and tables. -/
theorem locate_gap (p : Params) {a : Nat}
    (h : (0x20 ≤ a ∧ a ≤ 0x3FF) ∨ (0x800 ≤ a ∧ a ≤ 0x3FFF) ∨ (0xC000 ≤ a ∧ a ≤ 0xFFFFF)) : locate p a = .reserved := by
  rcases h with h | h | h
  · rw [locate, if_neg (by omega), if_pos (by omega)]
  · rw [locate, if_neg (by omega), if_neg (by omega), if_neg (by omega), if_pos (by omega)]
  · rw [locate, if_neg (by omega), if_neg (by omega), if_neg (by omega), if_neg (by omega), if_neg (by omega),
      if_neg (by omega), if_pos (by omega)]

/-- The rest of a buffer's range beyond its capacity. -/
theorem locate_beyond_capacity (p : Params) {a : Nat}
    (h : (0x100000 + p.symCap ≤ a ∧ a ≤ 0x1FFFFF) ∨ (0x200000 + p.pktCap ≤ a ∧ a ≤ 0x3FFFFF) ∨
      (0x400000 + p.bitCap / 8 ≤ a ∧ a ≤ 0x7FFFFF)) : locate p a = .reserved := by
  rcases h with h | h | h
  · rw [locate_buffers p (by omega), if_pos (by omega), if_neg (by omega)]
  · rw [locate_buffers p (by omega), if_neg (by omega), if_pos (by omega), if_neg (by omega)]
  · rw [locate_buffers p (by omega), if_neg (by omega), if_neg (by omega), if_neg (by omega)]

/-- Settles O47, range by range. -/
theorem addressMapIsAsListed : Obligations.AddressMapIsAsListed := by
  intro p hp
  have reg := locate_register p
  refine ⟨⟨reg .cmd, reg .status, reg .errinfo, reg .symLen, reg .bitLen, reg .pktLen, reg .pad, reg .nsym⟩, reg,
    locate_freq p, fun x _ ho => locate_code p x ho, fun k _ ho => locate_ring p k ho, fun i hi => locate_sym hp hi,
    fun i hi => locate_pkt hp hi, fun i hi => locate_bits hi, fun a ha => ?_⟩
  rcases ha with h | h | h | h
  · exact locate_gap p (.inl h)
  · exact locate_gap p (.inr (.inl h))
  · exact locate_gap p (.inr (.inr h))
  · exact locate_beyond_capacity p h

end Sys2Proof.Machine
end

