-- ==== Sys2Proof/Proofs/Writes.lean ====
section
/-! PROOFS. What a host write stores and what it leaves (20_memory.md R61, R66; 30_encoding.md R96). Settles O49, O50 and
O55. -/

namespace Sys2Proof.Machine

/-! ### A RING slot after a write of one byte (30_encoding.md R96) -/

section
variable (r : RingSlot) (o : Nat) (v : Byte)

theorem RingSlot.writeByte_len : (r.writeByte o v).len = if o = 0 then v else r.len := by
  unfold RingSlot.writeByte
  split_ifs <;> rfl

theorem RingSlot.writeByte_sym : (r.writeByte o v).sym = if o = 1 then v else r.sym := by
  unfold RingSlot.writeByte
  split_ifs
  any_goals rfl
  omega

theorem RingSlot.writeByte_valid : (r.writeByte o v).valid = if o = 2 then v.getLsbD 0 else r.valid := by
  unfold RingSlot.writeByte
  split_ifs
  any_goals rfl
  all_goals omega

theorem RingSlot.writeByte_bits (i : Fin 32) :
    (r.writeByte o v).bits[i] = if o = 4 + i.val then v else r.bits[i] := by
  have hi := i.isLt
  unfold RingSlot.writeByte
  by_cases h : o = 4 + i.val
  · rw [if_neg (by omega), if_neg (by omega), if_neg (by omega), if_pos (by omega), if_pos h]
    simp [h]
  · have hne : o - 4 = i.val → ¬(4 ≤ o ∧ o < 36) := by omega
    rw [if_neg h]
    split_ifs with _ _ _ hbits
    any_goals rfl
    exact Vector.getElem_setIfInBounds_ne hi fun e => hne e hbits

/-- A reserved byte ignores the write. -/
theorem RingSlot.writeByte_reserved (h : o = 3 ∨ 36 ≤ o) : r.writeByte o v = r := by
  rw [RingSlot.writeByte, if_neg (by omega), if_neg (by omega), if_neg (by omega), if_neg (by omega)]

end

/-! ### The record of a slot, byte by byte -/

/-- What a record keeps of a byte written at `o`: FLAGS keeps bit 0 and a reserved byte nothing. -/
def keptByte (o : Nat) (v : Byte) : Byte := if o = 2 then v &&& 1 else if o = 3 ∨ 36 ≤ o then 0 else v

theorem keptByte_reserved {o : Nat} (h : o = 3 ∨ 36 ≤ o) (v : Byte) : keptByte o v = 0 := by
  rw [keptByte, if_neg (by omega), if_pos h]

theorem keptByte_whole {o : Nat} (h : o = 0 ∨ o = 1 ∨ (4 ≤ o ∧ o ≤ 35)) (v : Byte) : keptByte o v = v := by
  rw [keptByte, if_neg (by omega), if_neg (by omega)]

/-- The offsets of R96: LEN, SYM, FLAGS, the 32 bytes of BITS, and the reserved ones. -/
theorem recordOffset_cases (o : Nat) :
    o = 0 ∨ o = 1 ∨ o = 2 ∨ (∃ i : Fin 32, o = 4 + i.val) ∨ (o = 3 ∨ 36 ≤ o) := by
  by_cases h : 4 ≤ o ∧ o < 36
  · exact .inr (.inr (.inr (.inl ⟨⟨o - 4, by omega⟩, (Nat.add_sub_cancel' h.1).symm⟩)))
  · omega

/-- A byte of a RING slot as the host reads it. -/
def RingSlot.byte (r : RingSlot) (o : Nat) : Byte := recordByte r.toCodeEntry r.sym o

section
variable (r : RingSlot) {o o' : Nat} (v : Byte)

theorem RingSlot.byte_len : r.byte 0 = r.len := rfl

theorem RingSlot.byte_sym : r.byte 1 = r.sym := rfl

theorem RingSlot.byte_flags : r.byte 2 = if r.valid then 1 else 0 := rfl

theorem RingSlot.byte_bits (i : Fin 32) : r.byte (4 + i.val) = r.bits[i] := recordByte_bits _ _ i

theorem RingSlot.byte_reserved (h : o = 3 ∨ 36 ≤ o) : r.byte o = 0 := by
  rcases h with rfl | h
  · rfl
  · exact recordByte_reserved _ _ h

/-- The byte written reads back, but for the bits that the record does not keep. -/
theorem RingSlot.byte_writeByte_self : (r.writeByte o v).byte o = keptByte o v := by
  rcases recordOffset_cases o with rfl | rfl | rfl | ⟨i, rfl⟩ | h
  · rw [RingSlot.byte_len, RingSlot.writeByte_len, if_pos rfl, keptByte_whole (by omega)]
  · rw [RingSlot.byte_sym, RingSlot.writeByte_sym, if_pos rfl, keptByte_whole (by omega)]
  · have hkept : keptByte 2 v = v &&& 1#8 := rfl
    rw [RingSlot.byte_flags, RingSlot.writeByte_valid, if_pos rfl, hkept,
      BitVec.and_one_eq_setWidth_ofBool_getLsbD]
    cases v.getLsbD 0 <;> rfl
  · have hi := i.isLt
    rw [RingSlot.byte_bits, RingSlot.writeByte_bits, if_pos rfl, keptByte_whole (by omega)]
  · rw [RingSlot.byte_reserved _ h, keptByte_reserved h]

/-- Every other byte of the slot is as before. -/
theorem RingSlot.byte_writeByte_other (h : o' ≠ o) : (r.writeByte o v).byte o' = r.byte o' := by
  rcases recordOffset_cases o' with rfl | rfl | rfl | ⟨i, rfl⟩ | ho
  · rw [RingSlot.byte_len, RingSlot.byte_len, RingSlot.writeByte_len, if_neg h.symm]
  · rw [RingSlot.byte_sym, RingSlot.byte_sym, RingSlot.writeByte_sym, if_neg h.symm]
  · rw [RingSlot.byte_flags, RingSlot.byte_flags, RingSlot.writeByte_valid, if_neg h.symm]
  · rw [RingSlot.byte_bits, RingSlot.byte_bits, RingSlot.writeByte_bits, if_neg h.symm]
  · rw [RingSlot.byte_reserved _ ho, RingSlot.byte_reserved _ ho]

end

/-! ### What stands at a location after a write -/

/-- The low byte of the data as a byte location returns it. -/
theorem zeroExtend_setWidth_eight (v : Word) : (v.setWidth 8).zeroExtend 32 = v &&& 0xFF := by
  refine BitVec.eq_of_toNat_eq ?_
  change _ = v.toNat &&& (2 ^ 8 - 1)
  rw [Nat.and_two_pow_sub_one_eq_mod, BitVec.zeroExtend, BitVec.toNat_setWidth, BitVec.toNat_setWidth]
  omega

theorem zeroExtend_keptByte_flags (v : Word) : (keptByte 2 (v.setWidth 8)).zeroExtend 32 = v &&& 1 := by
  change (v.setWidth 8 &&& 1).setWidth 32 = v &&& 1
  rw [BitVec.setWidth_and, ← BitVec.zeroExtend, zeroExtend_setWidth_eight, BitVec.and_assoc]
  rfl

section
variable (s : State) (v : Word)

/-- The tables and buffers that the host writes do not show in a register. -/
theorem locRead_register_of_memory (ring : Table RingSlot) (sym bits pkt : Buffer) (r : RegName) :
    ({ s with ring := ring, sym := sym, bits := bits, pkt := pkt } : State).locRead (.register r) =
      s.locRead (.register r) := by
  cases r <;> rfl

theorem locRead_ring (k : Symbol) (o : Nat) : s.locRead (.ring k o) = ((s.ring.entry k).byte o).zeroExtend 32 := rfl

theorem locWrite_ring_ring (k : Symbol) (o : Nat) :
    (s.locWrite v (.ring k o)).ring = s.ring.put k ((s.ring.entry k).writeByte o (v.setWidth 8)) := rfl

theorem locRead_locWrite_ring_self (k : Symbol) (o : Nat) :
    (s.locWrite v (.ring k o)).locRead (.ring k o) = (keptByte o (v.setWidth 8)).zeroExtend 32 := by
  rw [locRead_ring, locWrite_ring_ring, Table.entry_put_self, RingSlot.byte_writeByte_self]

variable {l' : Location}

theorem locRead_locWrite_register_other {r : RegName} (h : l' ≠ .register r) :
    (s.locWrite v (.register r)).locRead l' = s.locRead l' := by
  cases l' with
  | register r' =>
    have hr : r' ≠ r := fun e => h (congrArg Location.register e)
    cases r with
    | symLen =>
      cases r' with
      | symLen => exact absurd rfl hr
      | _ => rfl
    | bitLen =>
      cases r' with
      | bitLen => exact absurd rfl hr
      | _ => rfl
    | pktLen =>
      cases r' with
      | pktLen => exact absurd rfl hr
      | _ => rfl
    | _ => rfl
  | _ => cases r <;> rfl

theorem locRead_locWrite_ring_other {k : Symbol} {o : Nat} (h : l' ≠ .ring k o) :
    (s.locWrite v (.ring k o)).locRead l' = s.locRead l' := by
  cases l' with
  | ring k' o' =>
    rw [locRead_ring, locRead_ring, locWrite_ring_ring]
    by_cases hk : k' = k
    · subst hk
      rw [Table.entry_put_self, RingSlot.byte_writeByte_other _ _ fun e => h (congrArg (Location.ring k') e)]
    · rw [Table.entry_put_other _ _ hk]
  | register r => exact locRead_register_of_memory s _ _ _ _ r
  | _ => rfl

theorem locRead_locWrite_sym_other {i : Nat} (h : l' ≠ .sym i) :
    (s.locWrite v (.sym i)).locRead l' = s.locRead l' := by
  cases l' with
  | sym j => exact congrArg (BitVec.zeroExtend 32) (s.sym.read_write_other _ fun e => h (congrArg Location.sym e))
  | register r => exact locRead_register_of_memory s _ _ _ _ r
  | _ => rfl

theorem locRead_locWrite_pkt_other {i : Nat} (h : l' ≠ .pkt i) :
    (s.locWrite v (.pkt i)).locRead l' = s.locRead l' := by
  cases l' with
  | pkt j => exact congrArg (BitVec.zeroExtend 32) (s.pkt.read_write_other _ fun e => h (congrArg Location.pkt e))
  | register r => exact locRead_register_of_memory s _ _ _ _ r
  | _ => rfl

theorem locRead_locWrite_bits_other {i : Nat} (h : l' ≠ .bits i) :
    (s.locWrite v (.bits i)).locRead l' = s.locRead l' := by
  cases l' with
  | bits j => exact congrArg (BitVec.zeroExtend 32) (s.bits.read_write_other _ fun e => h (congrArg Location.bits e))
  | register r => exact locRead_register_of_memory s _ _ _ _ r
  | _ => rfl

/-- A write shows at its own location alone. -/
theorem locRead_locWrite_other {l : Location} (h : l' ≠ l) : (s.locWrite v l).locRead l' = s.locRead l' := by
  cases l with
  | register r => exact locRead_locWrite_register_other s v h
  | ring k o => exact locRead_locWrite_ring_other s v h
  | sym i => exact locRead_locWrite_sym_other s v h
  | pkt i => exact locRead_locWrite_pkt_other s v h
  | bits i => exact locRead_locWrite_bits_other s v h
  | _ => rfl

end

/-- A buffer byte just written is read back as the low byte of the data. -/
theorem zeroExtend_read_write_self (b : Buffer) (i : Nat) (v : Word) :
    ((b.write i (v.setWidth 8)).read i).zeroExtend 32 = v &&& 0xFF := by
  rw [Buffer.read_write_self, zeroExtend_setWidth_eight]

/-- Settles O49: the written location by its kind, and every other one by its kind. -/
theorem writeIsReadBackAndNothingElseChanges : Obligations.WriteIsReadBackAndNothingElseChanges := by
  intro s v
  refine ⟨?_, fun i => ⟨?_, ?_, ?_⟩, fun k o ho => ?_, fun k => ?_, fun k o ho => ?_,
    fun _ _ h => locRead_locWrite_other s v h⟩
  · simp only [List.forall_mem_cons, List.not_mem_nil, false_imp_iff, implies_true, and_true]
    exact ⟨rfl, rfl, rfl⟩
  · exact zeroExtend_read_write_self s.sym i v
  · exact zeroExtend_read_write_self s.pkt i v
  · exact zeroExtend_read_write_self s.bits i v
  · rw [locRead_locWrite_ring_self, keptByte_whole ho, zeroExtend_setWidth_eight]
  · rw [locRead_locWrite_ring_self, zeroExtend_keptByte_flags]
  · rw [locRead_locWrite_ring_self, keptByte_reserved ho]
    rfl

/-! ### Writes that store nothing -/

theorem Table.put_entry_self {α : Type} (t : Table α) (x : Symbol) : t.put x (t.entry x) = t := by
  refine Table.ext_entry fun y => ?_
  rw [Table.entry_put]
  split
  next h => rw [h]
  · rfl

theorem locWrite_ring_reserved (s : State) (v : Word) (k : Symbol) {o : Nat} (h : o = 3 ∨ 36 ≤ o) :
    s.locWrite v (.ring k o) = s := by
  rw [State.locWrite, RingSlot.writeByte_reserved _ _ _ h, Table.put_entry_self]

/-- A write that is not malformed and not to CMD is one step, which stores at the location of the address. -/
theorem step_write {s : State} {a : Addr} {n : Nat} {v : Word} {es : List Event} (hb : s.busy = false)
    (hm : ¬ Malformed a.toNat n) (ha : a ≠ 0) (h : s.script = .access (.write a n v) :: es) :
    step s = .next (({ s with script := es } : State).locWrite v (locate s.params a.toNat)) := by
  rw [step_cons h]
  exact hostAccess_write (s := { s with script := es }) hb ((shapeOk_eq_true_iff _ _).2 hm)
    fun hc => ha (BitVec.eq_of_toNat_eq hc)

/-- What stands at the address says that it is not CMD's. -/
theorem ne_zero_of_locate {p : Params} {a : Addr} {l : Location} (hl : locate p a.toNat = l) (h : l ≠ .register .cmd) :
    a ≠ 0 := by
  rintro rfl
  exact h (hl.symm.trans (locate_register p .cmd))

/-- Settles O50: none of these locations is CMD, and `locWrite` ignores each. -/
theorem readOnlyLocationsIgnoreWrites : Obligations.ReadOnlyLocationsIgnoreWrites := by
  intro s a n v es hb hm hscript hro
  have ignored {l : Location} (hl : locate s.params a.toNat = l) (hcmd : l ≠ .register .cmd)
      (hsame : ({ s with script := es } : State).locWrite v l = { s with script := es }) :
      step s = .next { s with script := es } := by
    rw [step_write hb hm (ne_zero_of_locate hl hcmd) hscript, hl, hsame]
  rcases hro with ⟨r, hr, hl⟩ | ⟨x, hl⟩ | ⟨x, o, hl⟩ | hl | ⟨k, o, ho, hl⟩
  · simp only [List.mem_cons, List.not_mem_nil, or_false] at hr
    rcases hr with rfl | rfl | rfl | rfl <;> exact ignored hl (by decide) rfl
  · exact ignored hl nofun rfl
  · exact ignored hl nofun rfl
  · exact ignored hl nofun rfl
  · exact ignored hl nofun (locWrite_ring_reserved _ v k ho)

/-! ### Writes that store -/

/-- Settles O55: the step is `locWrite` at the location that the address map gives. -/
theorem hostWriteStoresItsData : Obligations.HostWriteStoresItsData := by
  intro s a n v es hb hp hm ha hscript
  have hstep := step_write hb hm ha hscript
  have stores {l : Location} (hl : locate s.params a.toNat = l) :
      step s = .next (({ s with script := es } : State).locWrite v l) := hl ▸ hstep
  refine ⟨hstep, ?_, ?_, ?_, fun i hi hai => ?_, fun i hi hai => ?_, fun i hi hai => ?_, fun k o ho hao => ?_⟩
  · rintro rfl
    exact stores (locate_register s.params .symLen)
  · rintro rfl
    exact stores (locate_register s.params .bitLen)
  · rintro rfl
    exact stores (locate_register s.params .pktLen)
  · exact ⟨_, Buffer.read_write_self _ i _, fun _ hk => Buffer.read_write_other _ _ hk,
      stores (l := .sym i) (hai ▸ locate_sym hp hi)⟩
  · exact ⟨_, Buffer.read_write_self _ i _, fun _ hk => Buffer.read_write_other _ _ hk,
      stores (l := .pkt i) (hai ▸ locate_pkt hp hi)⟩
  · exact ⟨_, Buffer.read_write_self _ i _, fun _ hk => Buffer.read_write_other _ _ hk,
      stores (l := .bits i) (hai ▸ locate_bits hi)⟩
  · refine ⟨_, fun _ hj => Table.entry_put_other _ _ hj, stores (l := .ring k o) (hao ▸ locate_ring _ k ho), ?_⟩
    rw [Table.entry_put_self]
    refine ⟨RingSlot.writeByte_len _ _ _, RingSlot.writeByte_sym _ _ _, ?_, RingSlot.writeByte_bits _ _ _⟩
    rw [RingSlot.writeByte_valid, BitVec.getLsbD_setWidth, decide_eq_true (by omega), Bool.true_and]

end Sys2Proof.Machine
end

