-- ==== Sys2Proof/Proofs/CommandWords.lean ====
section
/-! PROOFS. What the decoder accepts (30_encoding.md R90 to R93): the words of the opcode map alone. Settles O1 and O3. -/

namespace Sys2Proof

/-- A word with ZERO = 0 is its OPC field (R90). -/
theorem setWidth_opcField {w : Word} (h : zeroField w = 0) : (opcField w).setWidth 32 = w := by
  have hlow : w.toNat / 2 ^ 8 % 2 ^ 24 = 0 := by
    simpa [zeroField, Nat.shiftRight_eq_div_pow] using congrArg BitVec.toNat h
  refine BitVec.eq_of_toNat_eq ?_
  have hw := w.isLt
  simp only [opcField, BitVec.toNat_setWidth, BitVec.extractLsb'_toNat, Nat.shiftRight_zero]
  omega

/-- A word that is accepted has ZERO = 0, and the opcode map lists its OPC as the command's. -/
theorem decode_eq_ok_iff_lookup {w : Word} {i : Instr} :
    decode w = .ok i ↔ zeroField w = 0 ∧ opcodeMap.lookup (opcField w) = some i := by
  unfold decode
  split
  next hz => cases opcodeMap.lookup (opcField w) <;> simp [hz]
  next hz => simp only [hz, false_and, reduceCtorEq]

theorem decode_of_zeroField_ne {w : Word} (h : zeroField w ≠ 0) : decode w = .error .zeroFieldNotZero := if_neg h

/-- Each row of the opcode map agrees with the command's word (R92). -/
theorem setWidth_eq_encode_of_mem_opcodeMap : ∀ row ∈ opcodeMap, row.1.setWidth 32 = encode row.2 := by decide

/-- The decoder accepts the words of the commands, each as its command, and no other word. -/
theorem decode_eq_ok_iff {w : Word} {i : Instr} : decode w = .ok i ↔ w = encode i := by
  constructor
  · intro h
    obtain ⟨hz, hrow⟩ := decode_eq_ok_iff_lookup.1 h
    rw [← setWidth_opcField hz]
    obtain ⟨l₁, l₂, hl, -⟩ := List.lookup_eq_some_iff.1 hrow
    exact setWidth_eq_encode_of_mem_opcodeMap (opcField w, i) (by simp [hl])
  · rintro rfl
    cases i <;> rfl

/-- Settles O1: the opcode map lists the words of the commands. -/
theorem decodeAcceptsExactlyTheOpcodeMap : Obligations.DecodeAcceptsExactlyTheOpcodeMap := by
  intro w i
  rw [decode_eq_ok_iff, ← BitVec.toNat_inj]
  cases i <;> simp [encode]

/-- Settles O3: four words are those of their commands, and the fifth has a bit of ZERO set. -/
theorem writtenWordsDecode : Obligations.WrittenWordsDecode :=
  ⟨decode_eq_ok_iff.2 rfl, decode_eq_ok_iff.2 rfl, decode_eq_ok_iff.2 rfl, decode_eq_ok_iff.2 rfl,
    decode_of_zeroField_ne (by decide)⟩

end Sys2Proof
end

