-- ==== Sys2Proof/Proofs/HostScripts.lean ====
section
/-! PROOFS. What the lines of a host script do to an idle block (30_encoding.md R101 to R104): one write is one `locWrite`,
the writes of a line follow one another, and the bytes of a run fill consecutive places. Settles O52 and O53. -/

namespace Sys2Proof.Machine

/-! ### Runs of events -/

theorem run_succ_of_step {M : Host.Core} {s t : M.State} (h : M.step s = .next t) (n : Nat) :
    M.run (n + 1) s = M.run n t := by
  rw [Host.Core.run, h]

/-- The events take the block from `s` to `t`, one step each: every run over them goes on from `t`, whatever the script
holds after them. -/
def RunsTo (evs : List Event) (s t : State) : Prop :=
  ∀ (es : List Event) (n : Nat),
    core.run (evs.length + n) { s with script := evs ++ es } = core.run n { t with script := es }

theorem RunsTo.nil (s : State) : RunsTo [] s s := by
  intro es n
  rw [List.length_nil, Nat.zero_add, List.nil_append]

theorem RunsTo.of_step {e : Event} {s t : State}
    (h : ∀ es, step { s with script := e :: es } = .next { t with script := es }) : RunsTo [e] s t := by
  intro es n
  rw [List.length_singleton, Nat.add_comm]
  exact run_succ_of_step (M := core) (s := { s with script := e :: es }) (h es) n

theorem RunsTo.append {evs evs' : List Event} {s t u : State} (h : RunsTo evs s t) (h' : RunsTo evs' t u) :
    RunsTo (evs ++ evs') s u := by
  intro es n
  rw [List.length_append, List.append_assoc, Nat.add_assoc, h, h']

theorem RunsTo.cons {e : Event} {evs : List Event} {s t u : State} (h : RunsTo [e] s t) (h' : RunsTo evs t u) :
    RunsTo (e :: evs) s u :=
  h.append h'

theorem RunsTo.run_eq {evs es : List Event} {s t : State} (h : RunsTo evs s t) (hs : s.script = evs ++ es) :
    core.run evs.length s = .next { t with script := es } := by
  have hrun := h es 0
  rwa [← hs] at hrun

/-! ### One write -/

theorem locWrite_script (s : State) (es : List Event) (v : Word) (l : Location) :
    ({ s with script := es } : State).locWrite v l = { s.locWrite v l with script := es } := by
  cases l with
  | register r => cases r <;> rfl
  | _ => rfl

/-- A write that is not malformed and not to CMD stores at the location of its address. -/
theorem runsTo_write {s : State} {a n : Nat} {l : Location} (hb : s.busy = false) (v : Word) (ha : a < 0x800000)
    (hm : ¬ Malformed a n) (hl : locate s.params a = l) (hc : l ≠ .register .cmd) :
    RunsTo [.access (.write (BitVec.ofNat 23 a) n v)] s (s.locWrite v l) := by
  refine .of_step fun es => ?_
  have haddr : (BitVec.ofNat 23 a).toNat = a := by
    rw [BitVec.toNat_ofNat]
    omega
  rw [← haddr] at hm hl
  have hstep := step_write (s := { s with script := .access (.write (BitVec.ofNat 23 a) n v) :: es }) hb hm
    (ne_zero_of_locate hl hc) rfl
  rw [hl] at hstep
  exact hstep.trans (congrArg Host.Outcome.next (locWrite_script s es v l))

/-- `wr REG, v` (R101). -/
theorem runsTo_wr {s : State} (hb : s.busy = false) {r : RegName} (hr : r ≠ .cmd) (v : Word) :
    RunsTo [wrEvent r v] s (s.locWrite v (.register r)) :=
  runsTo_write hb v (by cases r <;> decide) ((shapeOk_eq_true_iff _ _).1 (by cases r <;> rfl))
    (locate_register _ r) (by simpa using hr)

/-- `wb BUF[i], v` (R101). -/
theorem runsTo_wb {s : State} (hb : s.busy = false) {b : Window} {i : Nat} {l : Location} (v : Byte)
    (hl : locate s.params (b.base + i) = l) (hlow : 0x4000 ≤ b.base) (hhigh : b.base + i < 0x800000)
    (hc : l ≠ .register .cmd) : RunsTo [wbEvent b i v] s (s.locWrite (v.zeroExtend 32) l) :=
  runsTo_write hb _ hhigh (by unfold Malformed; omega) hl hc

/-! ### Runs of bytes -/

/-- Write consecutive bytes upward from `i`, one by one with `w`. -/
def writeRun {α : Type} (w : α → Nat → Byte → α) (m : α) (i : Nat) : List Byte → α
  | [] => m
  | v :: vs => writeRun w (w m i v) (i + 1) vs

theorem writeRun_write (b : Buffer) (i : Nat) (vs : List Byte) : writeRun Buffer.write b i vs = b.writeFrom i vs := by
  induction vs generalizing b i with
  | nil => rfl
  | cons v vs ih => exact ih _ _

/-- If each `wb` of a window up to index `n` writes a byte with `w`, then consecutive ones write a run of bytes. -/
theorem runsTo_wbRun {α : Type} {b : Window} {f : α → State} {w : α → Nat → Byte → α} {n : Nat}
    (hw : ∀ m i v, i < n → RunsTo [wbEvent b i v] (f m) (f (w m i v))) (m : α) {i : Nat} {vs : List Byte}
    (hn : i + vs.length ≤ n) : RunsTo (wbRun b i vs) (f m) (f (writeRun w m i vs)) := by
  induction vs generalizing m i with
  | nil => exact .nil _
  | cons v vs ih =>
    rw [List.length_cons] at hn
    exact (hw m i v (by omega)).cons (ih _ (by omega))

/-- The same for a buffer from index 0 up: the extent of R68. -/
theorem runsTo_wbRun_buffer {b : Window} {f : Buffer → State} {n : Nat}
    (hw : ∀ m i v, i < n → RunsTo [wbEvent b i v] (f m) (f (m.write i v))) (m : Buffer) {bs : List Byte}
    (hn : bs.length ≤ n) : RunsTo (wbRun b 0 bs) (f m) (f (m.writeFrom 0 bs)) :=
  writeRun_write m 0 bs ▸ runsTo_wbRun hw m (by omega)

/-- The low byte of a byte write's data is the byte. -/
theorem setWidth_eight_zeroExtend (v : Byte) : (v.zeroExtend 32).setWidth 8 = v := by
  simp

/-! ### The load lines (R103) -/

/-- BIT_CAP is a whole number of bytes (00_scope.md R5), so the bytes of a bit string fit BITS when its bits do. -/
theorem length_bytesOf_le {p : Params} (hp : p.wf = true) {c : BitString} (hc : c.length ≤ p.bitCap) :
    (bytesOf c).length ≤ p.bitCap / 8 := by
  simp only [Params.wf, Params.bitCapOk, Bool.and_eq_true, decide_eq_true_eq] at hp
  obtain ⟨-, ⟨hmod, -⟩, -⟩ := hp
  rw [length_bytesOf, bytesFor]
  omega

section
variable {s : State} (hb : s.busy = false)
include hb

theorem runsTo_wb_sym (hp : s.params.wf = true) (b : Buffer) (i : Nat) (v : Byte) (hi : i < s.params.symCap) :
    RunsTo [wbEvent .sym i v] { s with sym := b } { s with sym := b.write i v } := by
  have hcap := (Params.caps_le_of_wf hp).1
  have hrun := runsTo_wb (s := { s with sym := b }) (b := .sym) hb v (locate_sym hp hi) (by decide)
    (by simp only [Window.base]; omega) nofun
  rwa [State.locWrite, setWidth_eight_zeroExtend] at hrun

theorem runsTo_wb_pkt (hp : s.params.wf = true) (b : Buffer) (i : Nat) (v : Byte) (hi : i < s.params.pktCap) :
    RunsTo [wbEvent .pkt i v] { s with pkt := b } { s with pkt := b.write i v } := by
  have hcap := (Params.caps_le_of_wf hp).2
  have hpkt : s.params.pktCap = 1 + s.params.bitCap / 8 := rfl
  have hrun := runsTo_wb (s := { s with pkt := b }) (b := .pkt) hb v (locate_pkt hp hi) (by decide)
    (by simp only [Window.base]; omega) nofun
  rwa [State.locWrite, setWidth_eight_zeroExtend] at hrun

theorem runsTo_wb_bits (hp : s.params.wf = true) (b : Buffer) (i : Nat) (v : Byte) (hi : i < s.params.bitCap / 8) :
    RunsTo [wbEvent .bits i v] { s with bits := b } { s with bits := b.write i v } := by
  have hcap := (Params.caps_le_of_wf hp).2
  have hrun := runsTo_wb (s := { s with bits := b }) (b := .bits) hb v (locate_bits hi) (by decide)
    (by simp only [Window.base]; omega) nofun
  rwa [State.locWrite, setWidth_eight_zeroExtend] at hrun

theorem runsTo_loadSym (hp : s.params.wf = true) {bs : List Byte} (hn : bs.length ≤ s.params.symCap) :
    RunsTo (ScriptLine.loadSym bs).events s
      { s with sym := s.sym.writeFrom 0 bs, symLen := BitVec.ofNat 32 bs.length } :=
  (runsTo_wbRun_buffer (runsTo_wb_sym hb hp) s.sym hn).append
    (runsTo_wr (s := { s with sym := s.sym.writeFrom 0 bs }) hb (r := .symLen) nofun _)

theorem runsTo_loadPkt (hp : s.params.wf = true) {bs : List Byte} (hn : bs.length ≤ s.params.pktCap) :
    RunsTo (ScriptLine.loadPkt bs).events s
      { s with pkt := s.pkt.writeFrom 0 bs, pktLen := BitVec.ofNat 32 bs.length } :=
  (runsTo_wbRun_buffer (runsTo_wb_pkt hb hp) s.pkt hn).append
    (runsTo_wr (s := { s with pkt := s.pkt.writeFrom 0 bs }) hb (r := .pktLen) nofun _)

theorem runsTo_loadBits (hp : s.params.wf = true) {c : BitString} (hn : c.length ≤ s.params.bitCap) :
    RunsTo (ScriptLine.loadBits c).events s
      { s with bits := s.bits.writeFrom 0 (bytesOf c), bitLen := BitVec.ofNat 32 c.length } :=
  (runsTo_wbRun_buffer (runsTo_wb_bits hb hp) s.bits (length_bytesOf_le hp hn)).append
    (runsTo_wr (s := { s with bits := s.bits.writeFrom 0 (bytesOf c) }) hb (r := .bitLen) nofun _)

end

/-- Settles O53: the run of bytes is an extension of the buffer, and the last transaction writes the length. -/
theorem loadLinesSetTheInputs : Obligations.LoadLinesSetTheInputs :=
  ⟨fun s bs _ hb hp hn hs => ⟨_, s.sym.extended_writeFrom bs, (runsTo_loadSym hb hp hn).run_eq hs⟩,
    fun s bs _ hb hp hn hs => ⟨_, s.pkt.extended_writeFrom bs, (runsTo_loadPkt hb hp hn).run_eq hs⟩,
    fun s c _ hb hp hn hs => ⟨_, s.bits.extended_writeFrom (bytesOf c), (runsTo_loadBits hb hp hn).run_eq hs⟩⟩

/-! ### The ring line (R103) -/

/-- The state with slot `k` of RING replaced. -/
def State.withSlot (s : State) (k : Symbol) (r : RingSlot) : State := { s with ring := s.ring.put k r }

theorem Table.put_put {α : Type} (t : Table α) (x : Symbol) (v v' : α) : (t.put x v).put x v' = t.put x v' := by
  refine Table.ext_entry fun y => ?_
  simp only [Table.entry_put]
  split <;> rfl

theorem State.withSlot_entry_self (s : State) (k : Symbol) : s.withSlot k (s.ring.entry k) = s := by
  rw [State.withSlot, Table.put_entry_self]

theorem locWrite_withSlot (s : State) (k : Symbol) (r : RingSlot) (o : Nat) (v : Word) :
    (s.withSlot k r).locWrite v (.ring k o) = s.withSlot k (r.writeByte o (v.setWidth 8)) := by
  simp only [State.withSlot, State.locWrite, Table.entry_put_self, Table.put_put]

/-- A `wb` line writes one byte of the slot. -/
theorem runsTo_wb_ring {s : State} (hb : s.busy = false) (k : Symbol) (r : RingSlot) (o : Nat) (v : Byte) (ho : o < 64) :
    RunsTo [wbEvent (.ring k) o v] (s.withSlot k r) (s.withSlot k (r.writeByte o v)) := by
  have hk := k.isLt
  have hrun := runsTo_wb (s := s.withSlot k r) (b := .ring k) hb v (locate_ring _ k ho)
    (by simp only [Window.base]; omega) (by simp only [Window.base]; omega) nofun
  rwa [locWrite_withSlot, setWidth_eight_zeroExtend] at hrun

/-- A key of at most 255 bits fits the 32 bytes of BITS (30_encoding.md R96). -/
theorem length_bytesOf_le_of_key {c : BitString} (hc : c.length ≤ 255) : (bytesOf c).length ≤ 32 := by
  rw [length_bytesOf, bytesFor]
  omega

/-- A slot after the ring line: VALID is 0 while LEN, SYM and BITS are written (R103). -/
def RingSlot.loaded (r : RingSlot) (x : Symbol) (c : BitString) : RingSlot :=
  (writeRun RingSlot.writeByte
    (((r.writeByte 2 0).writeByte 0 (BitVec.ofNat 8 c.length)).writeByte 1 x) 4 (bytesOf c)).writeByte 2 1

theorem runsTo_ring {s : State} (hb : s.busy = false) (k x : Symbol) {c : BitString} (hc : c.length ≤ 255) :
    RunsTo (ScriptLine.ring k x c).events s (s.withSlot k ((s.ring.entry k).loaded x c)) := by
  have byte := runsTo_wb_ring hb k
  have hlen := length_bytesOf_le_of_key hc
  have hbits := fun r => (runsTo_wbRun byte r (i := 4) (vs := bytesOf c) (by omega)).append (byte _ 2 1 (by omega))
  have hrun := (byte (s.ring.entry k) 2 0 (by omega)).cons
    ((byte _ 0 (BitVec.ofNat 8 c.length) (by omega)).cons ((byte _ 1 x (by omega)).cons (hbits _)))
  rwa [State.withSlot_entry_self] at hrun

/-- A run of bytes leaves the slot's bytes below it alone. -/
theorem RingSlot.byte_writeRun_below (r : RingSlot) {o o' : Nat} (vs : List Byte) (h : o' < o) :
    (writeRun RingSlot.writeByte r o vs).byte o' = r.byte o' := by
  induction vs generalizing r o with
  | nil => rfl
  | cons v vs ih => rw [writeRun, ih _ (by omega), RingSlot.byte_writeByte_other _ _ (by omega)]

/-- A run of bytes within BITS is read back. -/
theorem RingSlot.byte_writeRun (r : RingSlot) {o : Nat} {vs : List Byte} (ho : 4 ≤ o) (h : o + vs.length ≤ 36) {k : Nat}
    (hk : k < vs.length) : (writeRun RingSlot.writeByte r o vs).byte (o + k) = vs[k] := by
  induction vs generalizing r o k with
  | nil => cases hk
  | cons v vs ih =>
    rw [List.length_cons] at h hk
    cases k with
    | zero =>
      rw [Nat.add_zero, writeRun, RingSlot.byte_writeRun_below _ _ (Nat.lt_succ_self o), RingSlot.byte_writeByte_self,
        keptByte_whole (by omega), List.getElem_cons_zero]
    | succ k =>
      rw [← Nat.add_assoc, Nat.add_right_comm, writeRun, ih _ (by omega) (by omega) (Nat.lt_of_succ_lt_succ hk),
        List.getElem_cons_succ]

section
variable (r : RingSlot) (x : Symbol) (c : BitString)

theorem RingSlot.loaded_valid : (r.loaded x c).valid = true := by
  rw [RingSlot.loaded, RingSlot.writeByte_valid]
  rfl

theorem RingSlot.loaded_sym : (r.loaded x c).sym = x := by
  rw [← RingSlot.byte_sym, RingSlot.loaded, RingSlot.byte_writeByte_other _ _ (by decide),
    RingSlot.byte_writeRun_below _ _ (by decide), RingSlot.byte_writeByte_self]
  rfl

theorem RingSlot.loaded_len : (r.loaded x c).len = BitVec.ofNat 8 c.length := by
  rw [← RingSlot.byte_len, RingSlot.loaded, RingSlot.byte_writeByte_other _ _ (by decide),
    RingSlot.byte_writeRun_below _ _ (by decide), RingSlot.byte_writeByte_other _ _ (by decide),
    RingSlot.byte_writeByte_self]
  rfl

variable {c}

theorem RingSlot.loaded_byte (hc : c.length ≤ 255) {k : Nat} (hk : k < (bytesOf c).length) :
    (r.loaded x c).byte (4 + k) = (bytesOf c)[k] := by
  have hlen := length_bytesOf_le_of_key hc
  rw [RingSlot.loaded, RingSlot.byte_writeByte_other _ _ (by omega),
    RingSlot.byte_writeRun _ le_rfl (by omega) hk]

theorem RingSlot.loaded_key (hc : c.length ≤ 255) : (r.loaded x c).key = c := by
  have hlen : (r.loaded x c).len.toNat = c.length := by
    rw [RingSlot.loaded_len, BitVec.toNat_ofNat]
    omega
  rw [CodeEntry.key, hlen]
  refine bitsOf_of_bytesOf fun k hk => ?_
  have hbyte := RingSlot.loaded_byte r x hc hk
  have hk32 : k < 32 := hk.trans_le (length_bytesOf_le_of_key hc)
  rw [RingSlot.byte_bits _ ⟨k, hk32⟩] at hbyte
  simpa [hk32] using hbyte

end

/-- Settles O52: the slot is the loaded one, and the put leaves the others. -/
theorem ringLineLoadsASlot : Obligations.RingLineLoadsASlot := by
  intro s k x c es hb hc hs
  refine ⟨s.ring.put k ((s.ring.entry k).loaded x c), (runsTo_ring hb k x hc).run_eq hs, ?_⟩
  rw [Table.entry_put_self]
  exact ⟨RingSlot.loaded_valid _ x c, RingSlot.loaded_key _ x hc, RingSlot.loaded_sym _ x c,
    fun _ hj => Table.entry_put_other _ _ hj⟩

end Sys2Proof.Machine
end

