-- ==== Sys2Proof/Proofs/Control.lean ====
section
/-! PROOFS. A CMD write as one step (40_control.md R120), and the two control commands NOP and CLR (R121, R122). Settles O4,
O20 and O21. -/

namespace Sys2Proof.Machine

/-! ### Words placed in front of the script -/

/-- A word that the table decoder reads is one that the decoder accepts. -/
theorem decode_of_decodeTableWord {nbits w : Nat} {i : Instr} (h : decodeTableWord nbits w = some i) :
    decode (BitVec.ofNat 32 (w % 2 ^ nbits)) = .ok i := by
  unfold decodeTableWord at h
  split at h
  · cases hd : decode (BitVec.ofNat 32 (w % 2 ^ nbits)) with
    | ok j =>
      rw [hd] at h
      exact congrArg Except.ok (Option.some.inj h)
    | error e =>
      rw [hd] at h
      cases h
  · cases h

/-- Settles O4: the next event is the write, which the idle block runs as its word. -/
theorem stepRunsTheDecodedCommand : Obligations.StepRunsTheDecodedCommand := by
  refine ⟨fun s es w i hscript hbusy hw => ?_, fun s nbits w i _ hw => ?_⟩
  · calc
      step s = hostAccess (.write 0 4 w) { s with script := es } := step_cons hscript
      _ = runWord w { s with script := es } := hostAccess_cmd (s := { s with script := es }) hbusy w
      _ = exec i { s with script := es } := runWord_of_decode hw _
  · rw [step_withFetchWord]
    exact runWord_of_decode (decode_of_decodeTableWord hw) _

/-! ### NOP and CLR -/

/-- A command that succeeds leaves STATUS = 0x02 (10_state.md R22). -/
theorem statusWord_succeeded (s : State) : s.succeeded.statusWord = 0x02 :=
  BitVec.eq_of_toNat_eq (toNat_statusWord_ended s none 0)

/-- NOP has no outputs to clear and a rule that writes nothing. -/
theorem exec_nop (s : State) : exec .nop s = .next s.succeeded :=
  (exec_eq_command .nop s).trans (command_of_ok rfl)

/-- CLR's result is the clearing that starts it. -/
theorem exec_clr (s : State) : exec .clr s = .next (s.cleared (outputsOf .clr)).succeeded :=
  (exec_eq_command .clr s).trans (command_of_ok (clrRule_eq _))

/-- Settles O20: NOP's one next state is `succeeded`. -/
theorem nopChangesOnlyTheFlags : Obligations.NopChangesOnlyTheFlags := by
  refine ⟨decode_eq_ok_iff.2 rfl, fun s => ⟨exec_nop s, fun t ht => ?_⟩⟩
  cases (exec_nop s).symm.trans ht
  exact statusWord_succeeded s

/-- Settles O21: every register and table is among CLR's outputs, and no buffer is. -/
theorem clrClearsRegistersAndTables : Obligations.ClrClearsRegistersAndTables := by
  refine ⟨decode_eq_ok_iff.2 rfl, fun s => ⟨_, exec_clr s, fun r => ?_, Table.entry_replicate 0,
    Table.entry_replicate CodeEntry.zero, Table.entry_replicate RingSlot.zero, cleared_buf (outputsOf .clr) s,
    statusWord_succeeded _, rfl, rfl, rfl, rfl⟩⟩
  cases r <;> rfl

end Sys2Proof.Machine
end

