-- ==== Sys2Proof/Proofs/Frame.lean ====
section
/-! PROOFS. The frame of a command (40_control.md R120, 20_memory.md R68): each write of a rule changes its items alone, and
of a buffer only the bytes that its length register then counts. Settles O7. -/

namespace Sys2Proof.Machine

/-! ### Frames -/

/-- The register that says how much of a buffer is in use (10_state.md R24 to R26). -/
def lengthReg : Buf → Reg
  | .sym => .symLen
  | .bits => .bitLen
  | .pkt => .pktLen

/-- A buffer's extent is a matter of its length register. -/
theorem extent_eq_of_reg {s t : State} {b : Buf} (h : t.reg (lengthReg b) = s.reg (lengthReg b)) :
    t.extent b = s.extent b := by
  cases b with
  | sym => exact congrArg BitVec.toNat h
  | bits => exact congrArg (fun n : Word => bytesFor n.toNat) h
  | pkt => exact congrArg BitVec.toNat h

theorem sameTab.trans {s t u : State} {x : Tab} (h : sameTab s t x) (h' : sameTab t u x) : sameTab s u x := by
  cases x <;> exact Eq.trans h h'

/-- `t` is `s` but for the items of `p` and the flags, and where the parameters are within R5's constraints, the bytes of
a buffer of `p` beyond its extent are as before (20_memory.md R68). -/
structure FramedBy (p : Items) (s t : State) : Prop extends ChangesOnly p s t where
  script : t.script = s.script
  reads : t.reads = s.reads
  beyond : s.params.wf = true → ∀ b ∈ p.bufs, ∀ k, t.extent b ≤ k → (t.buf b).read k = (s.buf b).read k

theorem FramedBy.refl (p : Items) (s : State) : FramedBy p s s where
  params := rfl
  regs _ _ := rfl
  tabs x _ := by cases x <;> rfl
  bufs _ _ := rfl
  extents _ _ := le_rfl
  script := rfl
  reads := rfl
  beyond _ _ _ _ _ := rfl

/-- More items may change a fortiori. -/
theorem FramedBy.mono {p o : Items} {s t : State} (h : FramedBy p s t) (hp : p.Within o) : FramedBy o s t where
  params := h.params
  regs r hr := h.regs r (mt (@hp.1 r) hr)
  tabs x hx := h.tabs x (mt (@hp.2.1 x) hx)
  bufs b hb := h.bufs b (mt (@hp.2.2 b) hb)
  extents b hb := h.extents b (mt (@hp.2.2 b) hb)
  script := h.script
  reads := h.reads
  beyond hwf b _ k hk := by
    by_cases hb : b ∈ p.bufs
    · exact h.beyond hwf b hb k hk
    · rw [h.bufs b hb]

/-- Two changes one after another, the second leaving the buffers of the first and their lengths alone. -/
theorem FramedBy.trans {p q : Items} {s t u : State} (h : FramedBy p s t) (h' : FramedBy q t u)
    (hpq : ∀ b ∈ p.bufs, b ∉ q.bufs ∧ lengthReg b ∉ q.regs) : FramedBy (p.union q) s u where
  params := h'.params.trans h.params
  regs r hr := by
    obtain ⟨hp, hq⟩ := not_or.1 (mt List.mem_append.2 hr)
    exact (h'.regs r hq).trans (h.regs r hp)
  tabs x hx := by
    obtain ⟨hp, hq⟩ := not_or.1 (mt List.mem_append.2 hx)
    exact (h.tabs x hp).trans (h'.tabs x hq)
  bufs b hb := by
    obtain ⟨hp, hq⟩ := not_or.1 (mt List.mem_append.2 hb)
    exact (h'.bufs b hq).trans (h.bufs b hp)
  extents b hb := by
    obtain ⟨hp, hq⟩ := not_or.1 (mt List.mem_append.2 hb)
    exact (h'.extents b hq).trans (h.extents b hp)
  script := h'.script.trans h.script
  reads := h'.reads.trans h.reads
  beyond hwf b hb k hk := by
    by_cases hp : b ∈ p.bufs
    · obtain ⟨hq, hlen⟩ := hpq b hp
      rw [h'.bufs b hq]
      exact h.beyond hwf b hp k ((extent_eq_of_reg (h'.regs _ hlen)).symm.trans_le hk)
    · have hq := (List.mem_append.1 hb).resolve_left hp
      rw [h'.beyond (h.params ▸ hwf) b hq k hk, h.bufs b hp]

/-- The flags are no part of a frame. -/
theorem FramedBy.ended {p : Items} {s t : State} (h : FramedBy p s t) (e : Option CmdError) (info : Word) :
    FramedBy p s (t.ended e info) :=
  { h with }

/-! ### The writes -/

/-- A write that names no buffer has nothing beyond an extent to keep. -/
theorem ChangesOnly.framedBy {p : Items} {s t : State} (h : ChangesOnly p s t) (hs : t.script = s.script)
    (hr : t.reads = s.reads) (hp : p.bufs = []) : FramedBy p s t :=
  { h with
    script := hs
    reads := hr
    beyond := fun _ _ hb => absurd (hp ▸ hb) List.not_mem_nil }

/-- A write that fills one buffer from index 0, its length register then counting the bytes written. -/
theorem ChangesOnly.framedBy_of_extended {p : Items} {s t : State} (h : ChangesOnly p s t) (hs : t.script = s.script)
    (hr : t.reads = s.reads) {b : Buf} (hp : p.bufs = [b]) {bs : List Byte}
    (hext : s.params.wf = true → bs.length ≤ t.extent b) (hb : t.buf b = (s.buf b).writeFrom 0 bs) : FramedBy p s t :=
  { h with
    script := hs
    reads := hr
    beyond := fun hwf c hc k hk => by
      obtain rfl : c = b := by simpa [hp] using hc
      rw [hb]
      exact ((s.buf c).extended_writeFrom bs).2 k ((hext hwf).trans hk) }

/-- A length within 32 bits is stored as it is. -/
theorem toNat_ofNat_of_lt {n : Nat} (h : n < 2 ^ 32) : (BitVec.ofNat 32 n).toNat = n := by
  rw [BitVec.toNat_ofNat, Nat.mod_eq_of_lt h]

theorem framedBy_cleared (s : State) (o : Items) : FramedBy o.clearable s (s.cleared o) :=
  (changesOnly_cleared s o).framedBy rfl rfl rfl

section
variable (s : State)

/-- Where no length wraps, the extent that BIT_LEN gives covers the bytes written. -/
theorem length_bytesOf_le_extent_putBitstring {b : BitString} (hb : b.length ≤ s.params.bitCap) (hwf : s.params.wf = true) :
    (bytesOf b).length ≤ (s.putBitstring b).extent .bits := by
  have hcap := (Params.caps_le_of_wf hwf).2
  rw [State.extent, State.putBitstring_bitLen, toNat_ofNat_of_lt (by omega), length_bytesOf]

theorem framedBy_putBitstring {b : BitString} (hb : b.length ≤ s.params.bitCap) :
    FramedBy (outputsOf .map) s (s.putBitstring b) :=
  (changesOnly_putBitstring s b).framedBy_of_extended rfl rfl rfl (length_bytesOf_le_extent_putBitstring s hb) rfl

theorem framedBy_putUnpacked (pad : Nat) {b : BitString} (hb : b.length ≤ s.params.bitCap) :
    FramedBy (outputsOf .unpack) s (s.putUnpacked pad b) :=
  (changesOnly_putUnpacked s pad b).framedBy_of_extended rfl rfl rfl (length_bytesOf_le_extent_putBitstring s hb) rfl

theorem framedBy_putPacket {b : BitString} (hb : b.length ≤ s.params.bitCap) :
    FramedBy (outputsOf .pack) s (s.putPacket b) := by
  refine (changesOnly_putPacket s b).framedBy_of_extended rfl rfl rfl (fun hwf => ?_) rfl
  have hcap := (Params.caps_le_of_wf hwf).2
  have hlen : (packetOf b).length < 2 ^ 32 := by
    simp only [packetOf, padOf, List.length_cons, length_packBytes]
    omega
  exact (toNat_ofNat_of_lt hlen).ge

theorem framedBy_putMessage {m : List Symbol} (hm : m.length ≤ s.params.symCap) :
    FramedBy (outputsOf .walk) s (s.putMessage m) := by
  refine (changesOnly_putMessage s m).framedBy_of_extended rfl rfl rfl (fun hwf => ?_) rfl
  have hcap := (Params.caps_le_of_wf hwf).1
  exact (toNat_ofNat_of_lt (by omega : m.length < 2 ^ 32)).ge

end

/-! ### The rules -/

section
variable {s u : State}

theorem framedBy_of_histRule (hu : histRule s = .ok u) : FramedBy (outputsOf .hist) s u := by
  rw [histRule_eq] at hu
  obtain ⟨m, -, rfl⟩ := map_eq_ok hu
  exact (changesOnly_putFreq s _).framedBy rfl rfl rfl

theorem framedBy_of_buildRule (hu : buildRule s = .ok u) : FramedBy (outputsOf .build) s u := by
  rw [buildRule_eq] at hu
  split at hu
  · cases hu
  · cases hu
    exact (changesOnly_putCodes s).framedBy rfl rfl rfl

theorem framedBy_of_mapRule (hu : mapRule s = .ok u) : FramedBy (outputsOf .map) s u := by
  rw [mapRule_eq] at hu
  obtain ⟨b, hb, rfl⟩ := map_eq_ok hu
  obtain ⟨m, -, hloop⟩ := bind_eq_ok hb
  exact framedBy_putBitstring s (length_of_mapLoop (Nat.zero_le _) hloop)

theorem framedBy_of_packRule (hu : packRule s = .ok u) : FramedBy (outputsOf .pack) s u := by
  rw [packRule_eq] at hu
  obtain ⟨b, hb, rfl⟩ := map_eq_ok hu
  exact framedBy_putPacket s (length_of_bitstringOperand hb)

theorem framedBy_of_unpackRule (hu : unpackRule s = .ok u) : FramedBy (outputsOf .unpack) s u := by
  rw [unpackRule_eq] at hu
  obtain ⟨⟨pad, L⟩, hp, rfl⟩ := map_eq_ok hu
  obtain ⟨hcap, -, hL⟩ := packetOperand_eq_ok hp
  refine framedBy_putUnpacked s pad ?_
  rw [length_payloadBits]
  unfold Params.pktCap at hcap
  omega

theorem framedBy_of_walkRule (hu : walkRule s = .ok u) : FramedBy (outputsOf .walk) s u := by
  rw [walkRule_eq] at hu
  obtain ⟨m, hm, rfl⟩ := map_eq_ok hu
  obtain ⟨b, -, hloop⟩ := bind_eq_ok hm
  exact framedBy_putMessage s (length_of_walkLoop (Nat.zero_le _) hloop)

/-- PACK, the one body of ENC after a buffer is written, leaves BITS and BIT_LEN alone. -/
theorem framedBy_of_encRule (hu : encRule s = .ok u) : FramedBy (outputsOf .enc) s u := by
  obtain ⟨s1, s2, s3, hhist, hbuild, hmap, hpack⟩ := encRule_eq_ok hu
  have bodies := (((framedBy_of_histRule hhist).trans (framedBy_of_buildRule hbuild) (by decide)).trans
    (framedBy_of_mapRule hmap) (by decide)).trans (framedBy_of_packRule hpack) (by decide)
  exact bodies.mono (by decide)

/-- WALK leaves BITS and BIT_LEN as UNPACK wrote them. -/
theorem framedBy_of_decRule (hu : decRule s = .ok u) : FramedBy (outputsOf .dec) s u := by
  rw [decRule_eq] at hu
  obtain ⟨s1, hunpack, hwalk⟩ := bind_eq_ok hu
  exact ((framedBy_of_unpackRule hunpack).trans (framedBy_of_walkRule hwalk) (by decide)).mono (by decide)

theorem framedBy_of_ruleOf {i : Instr} (hu : ruleOf i s = .ok u) : FramedBy (outputsOf i) s u := by
  cases i with
  | nop =>
    cases hu
    exact .refl _ s
  | clr =>
    cases hu
    exact framedBy_cleared s (outputsOf .clr)
  | hist => exact framedBy_of_histRule hu
  | build => exact framedBy_of_buildRule hu
  | map => exact framedBy_of_mapRule hu
  | pack => exact framedBy_of_packRule hu
  | enc => exact framedBy_of_encRule hu
  | unpack => exact framedBy_of_unpackRule hu
  | walk => exact framedBy_of_walkRule hu
  | dec => exact framedBy_of_decRule hu

end

/-! ### The commands -/

/-- An error clears the outputs and forgets the output buffers, and touches nothing else (60_exceptions.md R230). -/
theorem changesOnly_errorTaken (s : State) (o : Items) (r : Raised) : ChangesOnly o s (s.errorTaken o r) where
  params := rfl
  regs := (changesOnly_cleared s o).regs
  tabs := (changesOnly_cleared s o).tabs
  bufs b hb := by cases b <;> simp_all [State.buf]
  extents b _ := (changesOnly_cleared s o).extents b List.not_mem_nil

/-- The registers and tables that a command clears at its start are among its outputs, and no buffer is cleared. -/
theorem framedBy_of_command {i : Instr} {s u : State} (hu : ruleOf i (s.cleared (outputsOf i)) = .ok u) :
    FramedBy (outputsOf i) s u := by
  have hstart := framedBy_cleared s (outputsOf i)
  have hrun := hstart.trans (framedBy_of_ruleOf hu) (by simp [Items.clearable])
  exact hrun.mono (by simp [Items.Within, Items.union, Items.clearable])

/-- Settles O7: a command ends with its rule's result or with its first error, and the frame of either is its outputs. -/
theorem commandChangesOnlyItsOutputs : Obligations.CommandChangesOnlyItsOutputs := by
  intro i s t ht
  rw [exec_eq_command, command_eq_next_iff] at ht
  rcases ht with ⟨u, hu, rfl⟩ | ⟨r, -, rfl⟩
  · have h := (framedBy_of_command hu).ended none 0
    exact ⟨h.regs, h.tabs, h.bufs, fun hwf _ => h.beyond hwf, h.params, h.script, h.reads⟩
  · have h := changesOnly_errorTaken s (outputsOf i) r
    exact ⟨h.regs, h.tabs, h.bufs, nofun, rfl, rfl, rfl⟩

end Sys2Proof.Machine
end

