-- ==== Sys2Proof/Proofs/NodeOrder.lean ====
section
/-! PROOFS. The order on queue nodes is strict and total, and says which of two groups with equal counts is the lesser
(41_frequency_and_tree.md R131). Settles O24. -/

namespace Sys2Proof.Machine

theorem Node.lt_of_count_lt {a b : Node} (h : a.count < b.count) : a.lt b = true := (Node.lt_iff a b).2 (.inl h)

/-- Among equal counts the groups decide. -/
theorem Node.lt_eq_groupLt {a b : Node} (h : a.count = b.count) : a.lt b = groupLt a.group b.group := by
  simp [Node.lt, h]

/-- Positions where two groups agree decide nothing. -/
theorem groupLt_append_left (p g g' : List Symbol) : groupLt (p ++ g) (p ++ g') = groupLt g g' := by
  induction p with
  | nil => rfl
  | cons x p ih => rw [List.cons_append, List.cons_append, groupLt, if_pos rfl, ih]

/-- The first position where two groups differ decides. -/
theorem groupLt_of_first_difference {p xs ys : List Symbol} {x y : Symbol} (h : x ≠ y) :
    groupLt (p ++ x :: xs) (p ++ y :: ys) = decide (x < y) := by
  rw [groupLt_append_left, groupLt, if_neg h]

/-- A proper beginning is the lesser. -/
theorem groupLt_of_prefix {g g' : List Symbol} (h : g <+: g') (hne : g ≠ g') : groupLt g g' = true := by
  obtain ⟨r, rfl⟩ := h
  cases r with
  | nil => exact absurd (List.append_nil g).symm hne
  | cons x r => simpa [groupLt] using groupLt_append_left g [] (x :: r)

/-- Settles O24: the count decides, then the groups, which are compared position by position. -/
theorem nodeOrderIsStrictAndTotal : Obligations.NodeOrderIsStrictAndTotal := by
  refine ⟨Node.lt_irrefl, fun _ _ _ => Node.lt_trans, fun a b hne => ?_, fun _ _ => Node.lt_of_count_lt,
    fun a b p xs ys x y hc ha hb hxy => ?_, fun a b hc hp hne => ?_⟩
  · by_contra hnot
    obtain ⟨hab, hba⟩ := not_or.1 hnot
    exact hne (Node.eq_of_not_lt (Bool.eq_false_iff.2 hab) (Bool.eq_false_iff.2 hba))
  · rw [Node.lt_eq_groupLt hc, ha, hb, groupLt_of_first_difference hxy, decide_eq_true_iff]
  · rw [Node.lt_eq_groupLt hc, groupLt_of_prefix hp hne]

end Sys2Proof.Machine
end

