-- ==== Sys2Proof/Proofs/Histogram.lean ====
section
/-! PROOFS. HIST's next state (41_frequency_and_tree.md R130): the counts of the message, or ERR_CAP(1). Settles O22. -/

namespace Sys2Proof.Machine

/-- SYM_LEN counts the message in 32 bits, so no count of a symbol wraps. -/
theorem toNat_entry_countSymbols_message (s : State) (x : Symbol) :
    ((countSymbols s.message).entry x).toNat = s.message.count x := by
  have hlt : s.message.count x < 2 ^ 32 := List.count_le_length.trans_lt (length_message s ▸ s.symLen.isLt)
  rw [entry_countSymbols, toNat_ofNat_of_lt hlt]

theorem histRule_of_le {s : State} (h : s.symLen.toNat ≤ s.params.symCap) :
    histRule s = .ok (s.putFreq (countSymbols s.message)) := by
  rw [histRule_eq, messageOperand_ok h]
  rfl

theorem histRule_of_lt {s : State} (h : s.params.symCap < s.symLen.toNat) :
    histRule s = .error { err := .cap, info := 1 } := by
  rw [histRule_eq, messageOperand_error h]
  rfl

/-- Settles O22: HIST's start clears FREQ alone, so its rule reads the message and SYM_LEN as they stood. -/
theorem histCountsTheMessage : Obligations.HistCountsTheMessage := by
  refine ⟨decode_eq_ok_iff.2 rfl, fun s => ⟨fun hle => ?_, fun hlt => ?_⟩⟩
  · refine ⟨countSymbols s.message, toNat_entry_countSymbols_message s, ?_⟩
    exact command_of_ok (histRule_of_le (s := s.cleared (outputsOf .hist)) hle)
  · refine ⟨s.nextDraw + 3, ?_⟩
    exact command_of_error (histRule_of_lt (s := s.cleared (outputsOf .hist)) hlt)

end Sys2Proof.Machine
end

