-- ==== Sys2Proof/Proofs/Merges.lean ====
section
/-! PROOFS. BUILD's loop follows the merges on the queue as a multiset, which lead to one result
(41_frequency_and_tree.md R132, R140), and BUILD's next state for no symbol, one, and more (R134, R135). Settles O26,
O27 and O28. -/

namespace Sys2Proof.Machine

/-! ### The merges lead to one result -/

/-- A queue has one least node at most. -/
theorem LeastIn.eq {q : Multiset Node} {n m : Node} (h : LeastIn n q) (h' : LeastIn m q) : n = m := by
  by_contra hne
  have hnm : n.lt m = true := h.2 m h'.1 (Ne.symm hne)
  have hmn : m.lt n = true := h'.2 n h.1 hne
  exact absurd (Node.lt_asymm hnm) (by simp [hmn])

/-- A queue that a turn is made on has two nodes at least. -/
theorem two_le_card_of_leastIn {q : Multiset Node} {n m : Node} (h : LeastIn n q) (h' : LeastIn m (q.erase n)) :
    2 ≤ Multiset.card q := by
  have hn := Multiset.card_erase_add_one h.1
  have hm := Multiset.card_erase_add_one h'.1
  omega

/-- The merges from a queue lead to no second result: each turn's two nodes are determined. -/
theorem Merges.unique {q : Multiset Node} {c c' c'' : Symbol → BitString} (h : Merges q c c') (h' : Merges q c c'') :
    c'' = c' := by
  induction h with
  | done hcard =>
    cases h' with
    | done => rfl
    | turn h1 h2 => exact absurd (two_le_card_of_leastIn h1 h2) (by omega)
  | turn h1 h2 _ ih =>
    cases h' with
    | done hcard => exact absurd (two_le_card_of_leastIn h1 h2) (by omega)
    | turn h1' h2' h' =>
      obtain rfl := h1.eq h1'
      obtain rfl := h2.eq h2'
      exact ih h'

/-! ### BUILD's loop follows them -/

/-- `popMin` takes the least node of the queue as a multiset (R7). -/
theorem leastIn_of_popMin {q r : List Node} {n : Node} (h : popMin q = some (n, r)) : LeastIn n q := by
  have hq := popMin_perm h
  refine ⟨hq.mem_iff.2 List.mem_cons_self, fun m hm hne => ?_⟩
  have hr : m ∈ r := List.mem_of_ne_of_mem hne (hq.mem_iff.1 hm)
  by_contra hnm
  exact hne (Node.eq_of_not_lt (not_lt_of_popMin h hr) (Bool.eq_false_iff.2 hnm))

/-- `popMin` leaves the queue with that node erased. -/
theorem erase_of_popMin {q r : List Node} {n : Node} (h : popMin q = some (n, r)) :
    (q : Multiset Node).erase n = r := by
  rw [Multiset.coe_eq_coe.2 (popMin_perm h), ← Multiset.cons_coe, Multiset.erase_cons_head]

/-- What the merges lead to from a queue and codes so far, they lead to from the queue `q₀` with no codes too. -/
def OnTheWayFrom (q₀ : List Node) (q : List Node) (c : Symbol → BitString) : Prop :=
  ∀ c', Merges q c c' → Merges q₀ (fun _ => []) c'

/-- A turn of the loop is a turn of the merges. -/
theorem OnTheWayFrom.turn {q₀ q q1 r : List Node} {n1 n2 : Node} {c : Symbol → BitString}
    (h1 : popMin q = some (n1, q1)) (h2 : popMin q1 = some (n2, r)) (h : OnTheWayFrom q₀ q c) :
    OnTheWayFrom q₀ (mergeNodes n1 n2 :: r) (prependBits n1.group n2.group c) := by
  intro c' hc'
  have he1 := erase_of_popMin h1
  have he2 := erase_of_popMin h2
  refine h c' (.turn (leastIn_of_popMin h1) (he1 ▸ leastIn_of_popMin h2) ?_)
  rwa [he1, he2, Multiset.cons_coe]

/-- The loop's codes are a result of the merges, `|Q|` turns being enough. -/
theorem merges_mergeLoop (q : List Node) : Merges q (fun _ => []) (mergeLoop q.length q fun _ => []) := by
  obtain ⟨q', hlen, hway⟩ :=
    mergeLoop_induction (fun h1 h2 h => OnTheWayFrom.turn h1 h2 h) (le_refl q.length) fun _ h => h
  exact hway _ (.done hlen)

/-! ### The initial queue -/

theorem leaves_eq_initialQueue (freq : Table Word) : leaves freq = initialQueue freq := by
  rw [leaves, initialQueue, ← List.filterMap_eq_map, List.filterMap_filter]
  congr 2
  funext x
  by_cases hx : freq.entry x = 0 <;> simp [hx]

/-- The queue has a node for each symbol that occurs (R132). -/
theorem length_initialQueue_eq_occurring (freq : Table Word) : (initialQueue freq).length = (occurring freq).length :=
  length_initialQueue freq

/-- Where no symbol occurs the queue is empty. -/
theorem length_initialQueue_of_none {freq : Table Word} (h : ∀ x, freq.entry x = 0) :
    (initialQueue freq).length = 0 := by
  rw [length_initialQueue_eq_occurring, List.length_eq_zero_iff, List.eq_nil_iff_forall_not_mem]
  exact fun x hx => mem_occurring.1 hx (h x)

/-- `x` is the one symbol that occurs (R134). -/
def OccursAlone (x : Symbol) (freq : Table Word) : Prop := ∀ y, freq.entry y ≠ 0 ↔ y = x

/-- A lone symbol is the whole queue. -/
theorem length_initialQueue_of_occursAlone {x : Symbol} {freq : Table Word} (h : OccursAlone x freq) :
    (initialQueue freq).length = 1 := by
  have hperm : (occurring freq).Perm [x] :=
    (List.perm_ext_iff_of_nodup (nodup_occurring freq) (List.nodup_singleton x)).2 fun y => by
      rw [mem_occurring, h y, List.mem_singleton]
  rw [length_initialQueue_eq_occurring, hperm.length_eq, List.length_singleton]

/-! ### BUILD's tables -/

/-- With two symbols or more the codes are those of the merges (R132). -/
theorem buildCodes_of_two_le {freq : Table Word} (h : 2 ≤ (initialQueue freq).length) :
    buildCodes freq = mergeLoop (initialQueue freq).length (initialQueue freq) fun _ => [] :=
  if_neg (by omega)

theorem buildCodes_of_occursAlone {x : Symbol} {freq : Table Word} (h : OccursAlone x freq) :
    buildCodes freq = fun _ => [false] := if_pos (length_initialQueue_of_occursAlone h)

/-- A table that gives the symbols that occur their entries gives one to a lone symbol alone. -/
theorem OccursAlone.ofFn_eq_put {x : Symbol} {freq : Table Word} (h : OccursAlone x freq) {α : Type} (zero : α)
    (f : Symbol → α) :
    Table.ofFn (fun y => if freq.entry y = 0 then zero else f y) = Table.put (Vector.replicate 256 zero) x (f x) := by
  refine Table.ext_entry fun y => ?_
  rw [Table.entry_ofFn, Table.entry_put, Table.entry_replicate]
  by_cases hy : y = x
  · rw [if_pos hy, if_neg ((h y).2 hy), hy]
  · rw [if_neg hy, if_pos (not_not.1 (mt (h y).1 hy))]

/-- BUILD's write for a lone symbol (R134). -/
theorem putCodes_of_occursAlone {x : Symbol} {s : State} (h : OccursAlone x s.freq) :
    s.putCodes = { s with
      nsym := 1
      code := Table.put (Vector.replicate 256 CodeEntry.zero) x (CodeEntry.ofCode [false])
      ring := Table.put (Vector.replicate 256 RingSlot.zero) x { CodeEntry.ofCode [false] with sym := x } } := by
  rw [State.putCodes, buildCodes_of_occursAlone h, length_initialQueue_of_occursAlone h, codeTable, ringTable,
    h.ofFn_eq_put, h.ofFn_eq_put]
  rfl

theorem entry_ringTable (freq : Table Word) (c : Symbol → BitString) (x : Symbol) :
    (ringTable freq c).entry x =
      if freq.entry x = 0 then RingSlot.zero else { CodeEntry.ofCode (c x) with sym := x } :=
  Table.entry_ofFn _ x

/-! ### BUILD -/

theorem buildRule_of_ne_zero {s : State} (h : (initialQueue s.freq).length ≠ 0) : buildRule s = .ok s.putCodes := by
  rw [buildRule_eq, if_neg h]

theorem buildRule_of_eq_zero {s : State} (h : (initialQueue s.freq).length = 0) :
    buildRule s = .error { err := .empty, info := 0 } := by
  rw [buildRule_eq, if_pos h]

/-- BUILD's start clears what its rule writes over. -/
theorem exec_build_of_ne_zero {s : State} (h : (initialQueue s.freq).length ≠ 0) :
    exec .build s = .next s.putCodes.succeeded :=
  command_of_ok (buildRule_of_ne_zero (s := s.cleared (outputsOf .build)) h)

/-- Settles O26: the loop follows the merges, and no others are possible. -/
theorem buildFollowsTheMerges : Obligations.BuildFollowsTheMerges := by
  refine ⟨decode_eq_ok_iff.2 rfl, fun s htwo => ?_⟩
  rw [leaves_eq_initialQueue, Multiset.coe_card] at *
  have hmerges := merges_mergeLoop (initialQueue s.freq)
  rw [← buildCodes_of_two_le htwo] at hmerges
  exact ⟨buildCodes s.freq, hmerges, fun _ => hmerges.unique, exec_build_of_ne_zero (by omega)⟩

/-- Settles O27: the lone symbol is the whole queue, so nothing is merged. -/
theorem buildOfOneSymbol : Obligations.BuildOfOneSymbol := by
  intro s x hx hothers
  have halone : OccursAlone x s.freq := fun y =>
    ⟨fun hy => by_contra fun hne => hy (hothers y hne), fun hy => hy ▸ hx⟩
  have hone := length_initialQueue_of_occursAlone halone
  rw [exec_build_of_ne_zero (by omega), putCodes_of_occursAlone halone]
  rfl

/-- An empty message within SYM_CAP is ENC's second check (42_map_and_pack.md R163). -/
theorem encRule_of_symLen_zero {s : State} (h : s.symLen = 0) : encRule s = .error { err := .empty, info := 0 } := by
  have h0 : s.symLen.toNat = 0 := congrArg BitVec.toNat h
  rw [encRule_eq, if_neg (by omega), if_pos h0]

/-- Settles O28: neither command writes the input that makes it fail, and a failure clears the outputs. -/
theorem emptyInputIsAnError : Obligations.EmptyInputIsAnError := by
  refine ⟨fun s hnone => ⟨s.nextDraw + 3, ?_⟩, fun s hlen => ?_⟩
  · exact command_of_error
      (buildRule_of_eq_zero (s := s.cleared (outputsOf .build)) (length_initialQueue_of_none hnone))
  · refine ⟨s.nextDraw + 3, s.nextDraw + 1, s.nextDraw + 2, ⟨by omega, by omega⟩, ⟨by omega, by omega⟩, ?_⟩
    exact command_of_error (encRule_of_symLen_zero (s := s.cleared (outputsOf .enc)) hlen)

end Sys2Proof.Machine
end

