-- ==== Sys2Proof/Proofs/Compression.lean ====
section
/-! PROOFS. What a successful ENC leaves (42_map_and_pack.md R160 to R163): the codes of the message one after another,
and their packet. -/

namespace Sys2Proof.Machine

/-! ### MAP -/

/-- MAP appends the codes of symbols that all have one, where they fit (R160). -/
theorem mapLoop_of_valid {code : Table CodeEntry} {cap i : Nat} {b : BitString} {m : List Symbol}
    (hv : ∀ x ∈ m, (code.entry x).valid = true) (hcap : (b ++ m.flatMap fun x => (code.entry x).key).length ≤ cap) :
    mapLoop code cap i b m = .ok (b ++ m.flatMap fun x => (code.entry x).key) := by
  induction m generalizing i b with
  | nil => rw [mapLoop, List.flatMap_nil, List.append_nil]
  | cons x xs ih =>
    obtain ⟨hx, hxs⟩ := List.forall_mem_cons.1 hv
    rw [List.flatMap_cons, ← List.append_assoc] at hcap ⊢
    have hfits : b.length + (code.entry x).len.toNat ≤ cap := by
      simp only [List.length_append, CodeEntry.length_key] at hcap
      omega
    simp only [mapLoop]
    rw [if_neg (by simp [hx]), if_neg (by omega)]
    exact ih hxs hcap

theorem mapRule_of_valid {s : State} (hlen : s.symLen.toNat ≤ s.params.symCap)
    (hv : ∀ x ∈ s.message, (s.code.entry x).valid = true)
    (hcap : (s.message.flatMap fun x => (s.code.entry x).key).length ≤ s.params.bitCap) :
    mapRule s = .ok (s.putBitstring (s.message.flatMap fun x => (s.code.entry x).key)) := by
  have hloop : mapLoop s.code s.params.bitCap 0 [] s.message = .ok (s.message.flatMap fun x => (s.code.entry x).key) :=
    mapLoop_of_valid hv hcap
  rw [mapRule_eq, messageOperand_ok hlen]
  exact congrArg (Except.map s.putBitstring) hloop

/-! ### PACK -/

/-- PACK finds the bitstring just put into BITS, which BIT_CAP keeps from wrapping (00_scope.md R5). -/
theorem packRule_putBitstring {s : State} {b : BitString} (hwf : s.params.wf = true) (hb : b.length ≤ s.params.bitCap) :
    packRule (s.putBitstring b) = .ok ((s.putBitstring b).putPacket b) := by
  have hcap := (Params.caps_le_of_wf hwf).2
  rw [packRule_eq, bitstringOperand_ok ((toNat_ofNat_le b.length).trans hb), bitstring_putBitstring (by omega)]
  rfl

/-! ### ENC -/

/-- The codes of a message are those of BUILD on its counts (R163). -/
def encodedBits (m : List Symbol) : BitString := m.flatMap (buildCodes (countSymbols m))

theorem entry_countSymbols_message_ne_zero {s : State} {x : Symbol} :
    (countSymbols s.message).entry x ≠ 0 ↔ x ∈ s.message := by
  rw [← BitVec.toNat_ne_iff_ne, toNat_entry_countSymbols_message, ← List.count_pos_iff]
  exact Nat.pos_iff_ne_zero.symm

/-- CODE holds a code of BUILD's with its bits, as BITS has room for them (10_state.md R32). -/
theorem entry_codeTable_buildCodes {freq : Table Word} {x : Symbol} (hx : freq.entry x ≠ 0) :
    ((codeTable freq (buildCodes freq)).entry x).valid = true ∧
      ((codeTable freq (buildCodes freq)).entry x).key = buildCodes freq x := by
  rw [entry_codeTable, if_neg hx]
  exact ⟨rfl, CodeEntry.key_ofCode (buildCodes_bounds hx).2⟩

/-- What the bodies of HIST, BUILD, MAP and PACK write for a message whose code bits fit. -/
def State.putEncoded (s : State) : State :=
  (((s.putFreq (countSymbols s.message)).putCodes).putBitstring (encodedBits s.message)).putPacket
    (encodedBits s.message)

/-- ENC succeeds on a message of 1 to SYM_CAP symbols whose code bits fit into BIT_CAP (R163). -/
theorem encRule_of_fits {s : State} (hwf : s.params.wf = true) (hpos : 0 < s.symLen.toNat)
    (hlen : s.symLen.toNat ≤ s.params.symCap) (hfits : (encodedBits s.message).length ≤ s.params.bitCap) :
    encRule s = .ok s.putEncoded := by
  let s1 := s.putFreq (countSymbols s.message)
  have hentry {x} (hx : x ∈ s.message) := entry_codeTable_buildCodes (entry_countSymbols_message_ne_zero.2 hx)
  have hbits : (s1.putCodes.message.flatMap fun x => (s1.putCodes.code.entry x).key) = encodedBits s.message :=
    List.flatMap_congr fun x hx => (hentry hx).2
  have hbuild : buildRule s1 = .ok s1.putCodes := by
    obtain ⟨x, hx⟩ := List.exists_mem_of_length_pos ((length_message s).symm ▸ hpos)
    exact buildRule_of_ne_zero
      (List.length_pos_of_mem (mem_initialQueue (entry_countSymbols_message_ne_zero.2 hx))).ne'
  have hmap : mapRule s1.putCodes = .ok (s1.putCodes.putBitstring (encodedBits s.message)) := by
    rw [← hbits]
    exact mapRule_of_valid hlen (fun x hx => (hentry hx).1) (hbits.symm ▸ hfits)
  rw [encRule_eq, if_neg (by omega), if_neg (by omega), histRule_of_le hlen]
  calc
    (buildRule s1 >>= mapRule >>= packRule)
    _ = (mapRule s1.putCodes >>= packRule) := by rw [hbuild]; rfl
    _ = packRule (s1.putCodes.putBitstring (encodedBits s.message)) := by rw [hmap]; rfl
    _ = .ok s.putEncoded := packRule_putBitstring (s := s1.putCodes) hwf hfits

/-- PKT holds the packet of `b`, and PKT_LEN its length. -/
def State.HoldsPacket (s : State) (b : BitString) : Prop :=
  s.pktLen = BitVec.ofNat 32 (packetOf b).length ∧ ∀ k (h : k < (packetOf b).length), s.pkt.read k = (packetOf b)[k]

/-- What a successful ENC of the message `m` leaves to read. -/
structure State.HoldsEncoding (t : State) (m : List Symbol) : Prop where
  noError : t.err = none
  code : t.code = codeTable (countSymbols m) (buildCodes (countSymbols m))
  ring : t.ring = ringTable (countSymbols m) (buildCodes (countSymbols m))
  bitLen : t.bitLen = BitVec.ofNat 32 (encodedBits m).length
  bitstring : t.bitstring = encodedBits m
  packet : t.HoldsPacket (encodedBits m)

theorem holdsEncoding_putEncoded {s : State} (h : (encodedBits s.message).length < 2 ^ 32) :
    s.putEncoded.succeeded.HoldsEncoding s.message where
  noError := rfl
  code := rfl
  ring := rfl
  bitLen := rfl
  bitstring := bitstring_putBitstring (s := (s.putFreq (countSymbols s.message)).putCodes) h
  packet := ⟨rfl, (s.pkt.extended_writeFrom (packetOf (encodedBits s.message))).1⟩

/-- ENC's start clears outputs alone, so its rule finds SYM and SYM_LEN as they stood (40_control.md R120). -/
theorem exec_enc_of_fits {s : State} (hwf : s.params.wf = true) (hpos : 0 < s.symLen.toNat)
    (hlen : s.symLen.toNat ≤ s.params.symCap) (hfits : (encodedBits s.message).length ≤ s.params.bitCap) :
    ∃ t, exec .enc s = .next t ∧ t.HoldsEncoding s.message := by
  have hcap := (Params.caps_le_of_wf hwf).2
  exact ⟨_, command_of_ok (encRule_of_fits (s := s.cleared (outputsOf .enc)) hwf hpos hlen hfits),
    holdsEncoding_putEncoded (s := s.cleared (outputsOf .enc)) (hfits.trans_lt (by omega))⟩

end Sys2Proof.Machine
end

