-- ==== Sys2Proof/Proofs/Decompression.lean ====
section
/-! PROOFS. DEC of PACK's packet (43_unpack_and_walk.md R190 to R194): UNPACK gives the bitstring back, and WALK decodes
a bitstring of whole codes. -/

namespace Sys2Proof.Machine

/-! ### UNPACK of a packet -/

/-- The pad length fits into PAD's three bits (R162). -/
theorem padOf_le (L : Nat) : padOf L ≤ 7 := by
  unfold padOf
  omega

/-- The pad fills the last byte (R162). -/
theorem eight_mul_bytesFor (L : Nat) : 8 * bytesFor L = L + padOf L := by
  simp only [bytesFor, padOf]
  omega

/-- A packet is the pad length and the bitstring's bytes, their unused bits being the pad (30_encoding.md R98). -/
theorem packetOf_eq (b : BitString) : packetOf b = BitVec.ofNat 8 (padOf b.length) :: bytesOf b := by
  have hn : (b.length + padOf b.length) / 8 = bytesFor b.length := by
    rw [← eight_mul_bytesFor, Nat.mul_div_cancel_left _ (by decide)]
  have hf : (fun j => decide (j < b.length) && b.getD j false) = fun j => b.getD j false := by
    funext j
    by_cases hj : j < b.length <;> simp [hj]
  rw [packetOf, hn, hf, bytesOf]

/-- BIT_CAP is a whole number of bytes (00_scope.md R5). -/
theorem Params.bitCap_mod_of_wf {p : Params} (h : p.wf = true) : p.bitCap % 8 = 0 := by
  simp only [Params.wf, Params.bitCapOk, Bool.and_eq_true, decide_eq_true_eq] at h
  obtain ⟨-, ⟨hmod, -⟩, -⟩ := h
  exact hmod

section
variable {s : State} {b : BitString} (h : s.HoldsPacket b)
include h

theorem State.HoldsPacket.payloadBits : s.payloadBits b.length = b := by
  refine bitsOf_of_bytesOf fun k hk => ?_
  rw [h.2 (1 + k) (by rw [packetOf_eq, List.length_cons]; omega)]
  simp [packetOf_eq, Nat.add_comm 1 k]

variable (hwf : s.params.wf = true) (hb : b.length ≤ s.params.bitCap)
include hwf hb

/-- The packet passes the checks of R190, and its pad is what the payload has over the bitstring. -/
theorem State.HoldsPacket.packetOperand : s.packetOperand = .ok (padOf b.length, b.length) := by
  have hcap := (Params.caps_le_of_wf hwf).2
  have hbytes := eight_mul_bytesFor b.length
  have hpad7 := padOf_le b.length
  have hlen : s.pktLen.toNat = bytesFor b.length + 1 := by
    rw [h.1, packetOf_eq, List.length_cons, length_bytesOf, toNat_ofNat_of_lt (by omega)]
  have hpad : (s.pkt.read 0).toNat = padOf b.length := by
    rw [h.2 0 (by simp [packetOf])]
    simp only [packetOf, List.getElem_cons_zero, BitVec.toNat_ofNat]
    omega
  have hmod := Params.bitCap_mod_of_wf hwf
  have hpkt : bytesFor b.length + 1 ≤ s.params.pktCap := by
    unfold Params.pktCap
    omega
  rw [packetOperand_ok (by omega) (by omega) (by omega) (by omega), hpad, hlen]
  congr 2
  omega

theorem unpackRule_of_holdsPacket : unpackRule s = .ok (s.putUnpacked (padOf b.length) b) := by
  rw [unpackRule_eq, h.packetOperand hwf hb]
  exact congrArg (fun c => Except.ok (s.putUnpacked (padOf b.length) c)) h.payloadBits

end

/-! ### WALK of whole codes -/

theorem slotHolds_iff {ring : Table RingSlot} {acc : BitString} {k : Symbol} :
    slotHolds ring acc k = true ↔ (ring.entry k).valid = true ∧ (ring.entry k).key = acc := by
  simp [slotHolds]

theorem matchSlot_eq_none_iff {ring : Table RingSlot} {acc : BitString} :
    matchSlot ring acc = none ↔ NoHolder ring acc := by
  simp [matchSlot, NoHolder, List.find?_eq_none, slotHolds_iff]

/-- The slots are looked at in rising order, so the least holder is found (R192). -/
theorem matchSlot_of_leastHolder {ring : Table RingSlot} {acc : BitString} {k : Symbol} (h : LeastHolder ring acc k) :
    matchSlot ring acc = some k := by
  obtain ⟨hvalid, hkey, hleast⟩ := h
  have hk : slotHolds ring acc k = true := slotHolds_iff.2 ⟨hvalid, hkey⟩
  obtain ⟨before, after, hsplit⟩ := List.append_of_mem (mem_allSymbols k)
  have hbefore : ∀ j ∈ before, j < k := by
    have hrising := hsplit ▸ pairwise_lt_allSymbols
    exact fun j hj => (List.pairwise_append.1 hrising).2.2 j hj k List.mem_cons_self
  refine List.find?_eq_some_iff_append.2 ⟨hk, before, after, hsplit, fun j hj => ?_⟩
  rw [Bool.not_eq_true', ← Bool.not_eq_true, slotHolds_iff]
  exact hleast j (hbefore j hj)

/-- WALK reads the rest `d` of a code bit by bit: no beginning is a key, so it emits at the code's last bit (R191). -/
theorem walkLoop_of_shortestMatch {ring : Table RingSlot} {cap start j : Nat} {c acc d b : BitString} {k : Symbol}
    {out : List Symbol} (hc : ShortestMatch ring c k) (hsplit : acc ++ d = c) (hd : d ≠ []) (hcap : out.length < cap) :
    walkLoop ring cap acc start j out (d ++ b) =
      walkLoop ring cap [] (j + d.length) (j + d.length) (out ++ [(ring.entry k).sym]) b := by
  obtain ⟨-, hholder, hshortest⟩ := hc
  have hlen : c.length ≤ 255 := by
    rw [← hholder.2.1, CodeEntry.length_key]
    exact Nat.le_of_lt_succ (ring.entry k).len.isLt
  induction d generalizing acc j with
  | nil => exact absurd rfl hd
  | cons x d ih =>
    have hacc : acc.length ≠ 255 := by
      have hsum := congrArg List.length hsplit
      simp only [List.length_append, List.length_cons] at hsum
      omega
    rw [List.cons_append, walkLoop, if_neg hacc]
    cases d with
    | nil =>
      rw [hsplit, matchSlot_of_leastHolder hholder]
      simp [hcap.ne]
    | cons y d =>
      have hbegins : (acc ++ [x]) ++ y :: d = c := by simpa using hsplit
      have hproper : acc ++ [x] ≠ c := by
        rw [← hbegins]
        simp
      have hnone : NoHolder ring (acc ++ [x]) := hshortest _ ⟨_, hbegins⟩ (by simp) hproper
      rw [matchSlot_eq_none_iff.2 hnone]
      simpa [Nat.add_assoc, Nat.add_comm 1] using ih (j := j + 1) hbegins (by simp)

/-- WALK decodes a bitstring of whole codes whose symbols fit (R191). -/
theorem walkLoop_of_parses {ring : Table RingSlot} {cap j : Nat} {b : BitString} {out xs : List Symbol}
    (h : Parses ring b xs) (hcap : out.length + xs.length ≤ cap) :
    walkLoop ring cap [] j j out b = .ok (out ++ xs) := by
  induction h generalizing j out with
  | nil => rw [walkLoop, if_pos rfl, List.append_nil]
  | cons hc _ ih =>
    rw [List.length_cons] at hcap
    rw [walkLoop_of_shortestMatch hc rfl hc.1 (by omega), ih (by rw [List.length_append, List.length_singleton]; omega),
      List.append_assoc, List.singleton_append]

theorem walkRule_of_parses {s : State} {xs : List Symbol} (h : Parses s.ring s.bitstring xs)
    (hbits : s.bitLen.toNat ≤ s.params.bitCap) (hcap : xs.length ≤ s.params.symCap) :
    walkRule s = .ok (s.putMessage xs) := by
  have hloop : walkLoop s.ring s.params.symCap [] 0 0 [] s.bitstring = .ok xs :=
    walkLoop_of_parses h (by rwa [List.length_nil, Nat.zero_add])
  rw [walkRule_eq, bitstringOperand_ok hbits]
  exact congrArg (Except.map s.putMessage) hloop

/-- SYM and SYM_LEN hold the message just put there. -/
theorem message_putMessage {s : State} {m : List Symbol} (h : m.length < 2 ^ 32) : (s.putMessage m).message = m := by
  have hlen : (s.putMessage m).message.length = m.length := (length_message _).trans (toNat_ofNat_of_lt h)
  refine List.ext_getElem hlen fun k hk hk' => ?_
  simpa [State.message, State.putMessage] using (s.sym.extended_writeFrom m).1 k hk'

/-! ### DEC -/

/-- DEC of the packet of a bitstring that is a sequence of whole codes writes the bitstring and the symbols (R194). -/
theorem decRule_of_holdsPacket {s : State} {b : BitString} {xs : List Symbol} (h : s.HoldsPacket b)
    (hparses : Parses s.ring b xs) (hwf : s.params.wf = true) (hb : b.length ≤ s.params.bitCap)
    (hcap : xs.length ≤ s.params.symCap) :
    decRule s = .ok ((s.putUnpacked (padOf b.length) b).putMessage xs) := by
  have hmax := (Params.caps_le_of_wf hwf).2
  have hbits : (s.putUnpacked (padOf b.length) b).bitstring = b := bitstring_putBitstring (s := s) (by omega)
  rw [decRule_eq, unpackRule_of_holdsPacket h hwf hb]
  exact walkRule_of_parses (by rwa [hbits]) ((toNat_ofNat_le b.length).trans hb) hcap

/-- DEC's start clears outputs alone, so its rule finds the packet and the ring as they stood (40_control.md R120). -/
theorem exec_dec_of_holdsPacket {s : State} {b : BitString} {xs : List Symbol} (h : s.HoldsPacket b)
    (hparses : Parses s.ring b xs) (hwf : s.params.wf = true) (hb : b.length ≤ s.params.bitCap)
    (hcap : xs.length ≤ s.params.symCap) : ∃ v, exec .dec s = .next v ∧ v.err = none ∧ v.message = xs := by
  have hmax := (Params.caps_le_of_wf hwf).1
  let s' := s.cleared (outputsOf .dec)
  exact ⟨_, command_of_ok (decRule_of_holdsPacket (s := s') h hparses hwf hb hcap), rfl,
    message_putMessage (s := s'.putUnpacked (padOf b.length) b) (hcap.trans_lt (by omega))⟩

end Sys2Proof.Machine
end

