-- ==== Sys2Proof/Proofs/RepeatedByte.lean ====
section
/-! PROOFS. A message of one repeated byte (43_unpack_and_walk.md section 5): its one code is "0" (R134), so its
bitstring is one 0 bit per symbol, which the ring's one slot decodes. Settles O46. -/

namespace Sys2Proof.Machine

/-- The counts of such a message have one symbol. -/
theorem occursAlone_countSymbols {s : State} {x : Symbol} (hpos : 0 < s.symLen.toNat) (h : ∀ y ∈ s.message, y = x) :
    OccursAlone x (countSymbols s.message) := by
  obtain ⟨y, hy⟩ := List.exists_mem_of_length_pos ((length_message s).symm ▸ hpos)
  have hx : x ∈ s.message := h y hy ▸ hy
  exact fun z => entry_countSymbols_message_ne_zero.trans ⟨h z, fun hz => hz ▸ hx⟩

theorem encodedBits_of_occursAlone {x : Symbol} {m : List Symbol} (h : OccursAlone x (countSymbols m)) :
    encodedBits m = List.replicate m.length false := by
  rw [encodedBits, buildCodes_of_occursAlone h, ← List.map_eq_flatMap, List.map_const']

section
variable {x : Symbol} {freq : Table Word} (h : OccursAlone x freq)
include h

/-- The ring that BUILD writes has one key, "0", in slot `x`. -/
theorem shortestMatch_of_occursAlone : ShortestMatch (ringTable freq (buildCodes freq)) [false] x := by
  have hkey : (CodeEntry.ofCode [false]).key = [false] := CodeEntry.key_ofCode (by decide)
  rw [buildCodes_of_occursAlone h]
  refine ⟨by decide, ⟨?_, ?_, fun j hj hheld => ?_⟩, fun p hp hne hne' => ?_⟩
  · rw [entry_ringTable, if_neg ((h x).2 rfl)]
    rfl
  · rw [entry_ringTable, if_neg ((h x).2 rfl)]
    exact hkey
  · have hjx : ¬freq.entry j ≠ 0 := mt (h j).1 (BitVec.ne_of_lt hj)
    rw [entry_ringTable, if_pos (not_not.1 hjx)] at hheld
    exact absurd hheld.1 (by simp)
  · have hp' : p = [] ∨ p = [false] := by simpa [List.prefix_cons_iff] using hp
    exact absurd hp' (not_or.2 ⟨hne, hne'⟩)

/-- One 0 bit for each symbol is a sequence of whole codes. -/
theorem parses_of_occursAlone (n : Nat) :
    Parses (ringTable freq (buildCodes freq)) (List.replicate n false) (List.replicate n x) := by
  induction n with
  | zero => exact .nil
  | succ n ih =>
    have hsym : ((ringTable freq (buildCodes freq)).entry x).sym = x := by
      rw [entry_ringTable, if_neg ((h x).2 rfl)]
    have hstep := Parses.cons (shortestMatch_of_occursAlone h) ih
    rwa [hsym] at hstep

end

/-- Settles O46: ENC's message has one symbol, and DEC finds its packet and its ring as ENC left them. -/
theorem oneRepeatedByte : Obligations.OneRepeatedByte := by
  intro s x hwf hpos hlen hfits hmessage
  have halone := occursAlone_countSymbols hpos hmessage
  have hbits : encodedBits s.message = List.replicate s.symLen.toNat false :=
    length_message s ▸ encodedBits_of_occursAlone halone
  have hsymbols : s.message = List.replicate s.symLen.toNat x :=
    List.eq_replicate_iff.2 ⟨length_message s, hmessage⟩
  have hb : (encodedBits s.message).length ≤ s.params.bitCap := by rwa [hbits, List.length_replicate]
  obtain ⟨t, henc, ht⟩ := exec_enc_of_fits hwf hpos hlen hb
  obtain ⟨-, -, -, -, hparams, -⟩ := commandChangesOnlyItsOutputs .enc s t henc
  have hparses : Parses t.ring (encodedBits s.message) s.message := by
    rw [ht.ring, hbits, hsymbols]
    exact parses_of_occursAlone (hsymbols ▸ halone) s.symLen.toNat
  obtain ⟨v, hdec, hnone, hv⟩ := exec_dec_of_holdsPacket ht.packet hparses (hparams ▸ hwf) (hparams ▸ hb)
    (by rwa [hparams, length_message])
  refine ⟨t, v, henc, ht.noError, ?_, ht.bitstring.trans hbits, ?_, hdec, hnone, hv⟩
  · rw [ht.code, entry_codeTable, if_neg ((halone x).2 rfl), buildCodes_of_occursAlone halone]
  · rw [ht.bitLen, hbits, List.length_replicate, BitVec.ofNat_toNat, BitVec.setWidth_eq]

end Sys2Proof.Machine
end

