-- ==== Sys2Proof/Proofs/Mapping.lean ====
section
/-! PROOFS. MAP's next state (42_map_and_pack.md R160): the codes of the message one after another, or the first error met
on the way. Settles O31. -/

namespace Sys2Proof.Machine

/-! ### The codes of a message -/

/-- The codes of a message have as many bits as their LEN fields say together (R160). -/
theorem length_flatMap_key (code : Table CodeEntry) (m : List Symbol) :
    (m.flatMap fun x => (code.entry x).key).length = (m.map fun x => (code.entry x).len.toNat).sum := by
  simp [List.length_flatMap]

/-! ### MAP's loop -/

section
variable {code : Table CodeEntry} {cap i : Nat} {b : BitString}

/-- The loop over a message is the loop over a beginning of it, and then over the rest from where that ended. -/
theorem mapLoop_append (p r : List Symbol) :
    mapLoop code cap i b (p ++ r) = (mapLoop code cap i b p).bind fun c => mapLoop code cap (i + p.length) c r := by
  induction p generalizing i b with
  | nil => rfl
  | cons x p ih =>
    simp only [List.cons_append, mapLoop]
    split
    · rfl
    split
    · rfl
    rw [ih, List.length_cons, Nat.add_assoc, Nat.add_comm 1]

/-- A symbol without a code ends the loop at its index, whatever the room left (R229). -/
theorem mapLoop_cons_of_invalid {x : Symbol} (hx : (code.entry x).valid = false) (r : List Symbol) :
    mapLoop code cap i b (x :: r) = .error { err := .noCode, info := BitVec.ofNat 32 i } := by
  simp only [mapLoop, if_pos hx]

/-- Codes that do not all fit end the loop at the first that does not (R160). -/
theorem mapLoop_of_overflow {m : List Symbol} (hv : ∀ x ∈ m, (code.entry x).valid = true) (hb : b.length ≤ cap)
    (hover : cap < (b ++ m.flatMap fun x => (code.entry x).key).length) :
    mapLoop code cap i b m = .error { err := .cap, info := 2 } := by
  induction m generalizing i b with
  | nil =>
    rw [List.flatMap_nil, List.append_nil] at hover
    omega
  | cons x xs ih =>
    obtain ⟨hx, hxs⟩ := List.forall_mem_cons.1 hv
    simp only [mapLoop]
    rw [if_neg (by simp [hx])]
    split
    · rfl
    next hfits =>
      rw [List.flatMap_cons, ← List.append_assoc] at hover
      exact ih hxs (by rw [List.length_append, CodeEntry.length_key]; omega) hover

end

/-! ### MAP -/

theorem mapRule_of_lt {s : State} (h : s.params.symCap < s.symLen.toNat) :
    mapRule s = .error { err := .cap, info := 1 } := by
  rw [mapRule_eq, messageOperand_error h]
  rfl

/-- An error of MAP's loop is MAP's. -/
theorem mapRule_of_mapLoop_error {s : State} {r : Raised} (hlen : s.symLen.toNat ≤ s.params.symCap)
    (h : mapLoop s.code s.params.bitCap 0 [] s.message = .error r) : mapRule s = .error r := by
  rw [mapRule_eq, messageOperand_ok hlen]
  exact congrArg (Except.map s.putBitstring) h

/-- A failed MAP clears BIT_LEN and leaves BITS unspecified (40_control.md R120, 60_exceptions.md R230). -/
theorem exec_map_of_error {s : State} {e : CmdError} {info : Word}
    (h : mapRule (s.cleared (outputsOf .map)) = .error { err := e, info := info }) :
    ∃ n d, FreshDraw s.nextDraw n d ∧
      exec .map s = .next { s.failed e info n with bitLen := 0, bits := Buffer.unspecified d } :=
  ⟨s.nextDraw + 3, s.nextDraw + 1, ⟨by omega, by omega⟩, command_of_error h⟩

/-- Settles O31: MAP's start clears BIT_LEN alone, so its rule reads the message and CODE as they stood. -/
theorem mapConcatenatesTheCodes : Obligations.MapConcatenatesTheCodes := by
  refine ⟨decode_eq_ok_iff.2 rfl, fun s => ?_⟩
  intro total fails
  have htotal (m : List Symbol) : total m = (m.flatMap fun x => (s.code.entry x).key).length :=
    (length_flatMap_key s.code m).symm
  refine ⟨fun hlt => ?_, fun hlen => ⟨fun hv hfits => ?_, fun p r x hm hv hfits => ?_⟩⟩
  · exact exec_map_of_error (mapRule_of_lt (s := s.cleared (outputsOf .map)) hlt)
  · rw [htotal] at hfits ⊢
    have hbytes := s.bits.extended_writeFrom (bytesOf (s.message.flatMap fun x => (s.code.entry x).key))
    refine ⟨_, bitsOf_of_bytesOf hbytes.1, fun j => bitAt_unused_of_bytesOf hbytes.1,
      fun k hk => hbytes.2 k (by rwa [length_bytesOf]), ?_⟩
    exact command_of_ok (mapRule_of_valid (s := s.cleared (outputsOf .map)) hlen hv hfits)
  · have raised {e : CmdError} {info : Word}
        (hloop : mapLoop s.code s.params.bitCap 0 [] s.message = .error { err := e, info := info }) : fails e info :=
      exec_map_of_error (mapRule_of_mapLoop_error (s := s.cleared (outputsOf .map)) hlen hloop)
    refine ⟨fun hx => raised ?_, fun hx hover => raised ?_⟩
    · rw [htotal] at hfits
      rw [hm, mapLoop_append, mapLoop_of_valid hv hfits]
      exact (mapLoop_cons_of_invalid hx r).trans (by rw [Nat.zero_add])
    · rw [htotal] at hover
      have hvx : ∀ y ∈ p ++ [x], (s.code.entry y).valid = true :=
        List.forall_mem_append.2 ⟨hv, List.forall_mem_singleton.2 hx⟩
      rw [hm, List.append_cons, mapLoop_append, mapLoop_of_overflow hvx (Nat.zero_le _) hover]
      rfl

end Sys2Proof.Machine
end

