-- ==== Sys2Proof/Proofs/Packing.lean ====
section
/-! PROOFS. PACK's next state (42_map_and_pack.md R161): the pad length and the padded bitstring, or ERR_CAP(2); and the
arithmetic of the pad length (R162). Settles O32 and O33. -/

namespace Sys2Proof.Machine

/-! ### The pad length -/

/-- Settles O33: a length and its pad are the bits of whole bytes (`eight_mul_bytesFor`), and no shorter pad gets there. -/
theorem padArithmetic : Obligations.PadArithmetic := by
  refine ⟨fun L => ⟨padOf_le L, ?_, fun p hp => ?_⟩, by decide⟩
  · rw [← eight_mul_bytesFor, Nat.mul_mod_right]
  · unfold padOf
    omega

/-! ### The packet -/

/-- The whole bytes of a bitstring hold it and then its pad, bits that are 0 (R161). -/
theorem bitsOf_padded {A : Nat → Byte} {b : BitString} (hA : ∀ k (h : k < (bytesOf b).length), A k = (bytesOf b)[k]) :
    bitsOf A (8 * bytesFor b.length) = b ++ List.replicate (padOf b.length) false := by
  have hlen : (b ++ List.replicate (padOf b.length) false).length = 8 * bytesFor b.length := by
    rw [List.length_append, List.length_replicate, eight_mul_bytesFor]
  refine (bitsOf_eq_iff hlen).2 fun j hj => ?_
  by_cases hin : j < b.length
  · rw [List.getElem_append_left hin]
    exact (bitsOf_eq_iff rfl).1 (bitsOf_of_bytesOf hA) j hin
  · rw [List.getElem_append_right (Nat.not_lt.1 hin), List.getElem_replicate]
    exact bitAt_unused_of_bytesOf hA (Nat.not_lt.1 hin) (hlen ▸ hj)

/-- A bitstring and its pad fill the bytes that the bitstring occupies. -/
theorem padded_div_eight (L : Nat) : (L + padOf L) / 8 = bytesFor L := by
  rw [← eight_mul_bytesFor, Nat.mul_div_cancel_left _ (by decide)]

theorem length_packetOf (b : BitString) : (packetOf b).length = 1 + bytesFor b.length := by
  rw [packetOf_eq, List.length_cons, length_bytesOf, Nat.add_comm]

theorem toNat_ofNat_padOf (L : Nat) : (BitVec.ofNat 8 (padOf L)).toNat = padOf L := by
  have h := padOf_le L
  rw [BitVec.toNat_ofNat, Nat.mod_eq_of_lt (by omega)]

theorem read_zero_putPacket (s : State) (b : BitString) : (s.putPacket b).pkt.read 0 = BitVec.ofNat 8 (padOf b.length) :=
  (s.pkt.extended_writeFrom (packetOf b)).1 0 (Nat.succ_pos _)

theorem read_succ_putPacket (s : State) (b : BitString) (k : Nat) (h : k < (bytesOf b).length) :
    (s.putPacket b).pkt.read (1 + k) = (bytesOf b)[k] := by
  have hk : 1 + k < (packetOf b).length := by
    rw [length_packetOf, ← length_bytesOf]
    omega
  refine ((s.pkt.extended_writeFrom (packetOf b)).1 (1 + k) hk).trans ?_
  simp [packetOf_eq, Nat.add_comm 1 k]

/-! ### PACK -/

theorem packRule_of_le {s : State} (h : s.bitLen.toNat ≤ s.params.bitCap) :
    packRule s = .ok (s.putPacket s.bitstring) := by
  rw [packRule_eq, bitstringOperand_ok h]
  rfl

theorem packRule_of_lt {s : State} (h : s.params.bitCap < s.bitLen.toNat) :
    packRule s = .error { err := .cap, info := 2 } := by
  rw [packRule_eq, bitstringOperand_error h]
  rfl

/-- Settles O32: PACK's start clears PKT_LEN and PAD alone, so its rule reads the bitstring as it stood. -/
theorem packWritesThePacket : Obligations.PackWritesThePacket := by
  refine ⟨decode_eq_ok_iff.2 rfl, fun s => ?_⟩
  intro L pad nb
  have hL : s.bitstring.length = L := length_bitstring s
  have hpad : padOf s.bitstring.length = pad := congrArg padOf hL
  have hbytes : bytesFor s.bitstring.length = nb := (congrArg bytesFor hL).trans (padded_div_eight L).symm
  have hlen : (packetOf s.bitstring).length = 1 + nb := (length_packetOf s.bitstring).trans (congrArg (1 + ·) hbytes)
  refine ⟨fun hle => ⟨(s.putPacket s.bitstring).pkt, ?_, ?_, fun k hk => ?_, ?_⟩, fun hlt => ?_⟩
  · rw [read_zero_putPacket, toNat_ofNat_padOf, hpad]
  · rw [← hbytes, ← hpad]
    exact bitsOf_padded (read_succ_putPacket s s.bitstring)
  · exact (s.pkt.extended_writeFrom (packetOf s.bitstring)).2 k (hlen.trans_le hk)
  · rw [← hpad, ← hlen]
    exact command_of_ok (packRule_of_le (s := s.cleared (outputsOf .pack)) hle)
  · exact ⟨s.nextDraw + 3, s.nextDraw + 2, ⟨by omega, by omega⟩,
      command_of_error (packRule_of_lt (s := s.cleared (outputsOf .pack)) hlt)⟩

end Sys2Proof.Machine
end

