-- ==== Sys2Proof/Proofs/Encoding.lean ====
section
/-! PROOFS. ENC's next state (42_map_and_pack.md R163): the tables, the bitstring and the packet of the message, or its
first error with every output cleared. Settles O34. -/

namespace Sys2Proof.Machine

/-! ### The tables of a message -/

/-- A table with entries for the symbols that HIST counts has them for the symbols of the message. -/
theorem ofFn_countSymbols_message {α : Type} (s : State) (zero : α) (f : Symbol → α) :
    Table.ofFn (fun x => if (countSymbols s.message).entry x = 0 then zero else f x) =
      Table.ofFn fun x => if x ∈ s.message then f x else zero := by
  refine congrArg Table.ofFn (funext fun x => ?_)
  rw [← ite_not]
  exact if_congr entry_countSymbols_message_ne_zero rfl rfl

/-- BUILD's queue has a node for each symbol of the message. -/
theorem length_initialQueue_countSymbols_message (s : State) :
    (initialQueue (countSymbols s.message)).length = (allSymbols.filter fun x => decide (x ∈ s.message)).length := by
  rw [length_initialQueue]
  simp only [entry_countSymbols_message_ne_zero]

/-! ### ENC -/

theorem encRule_of_lt {s : State} (h : s.params.symCap < s.symLen.toNat) :
    encRule s = .error { err := .cap, info := 1 } := by
  rw [encRule_eq, if_pos h]

/-- HIST and BUILD succeed on a message of 1 to SYM_CAP symbols, so that ENC's end is MAP's and PACK's (R163). -/
theorem encRule_of_message {s : State} (hpos : 0 < s.symLen.toNat) (hlen : s.symLen.toNat ≤ s.params.symCap) :
    encRule s = (mapRule (s.putFreq (countSymbols s.message)).putCodes).bind packRule := by
  obtain ⟨x, hx⟩ := List.exists_mem_of_length_pos ((length_message s).symm ▸ hpos)
  have hnode := mem_initialQueue (entry_countSymbols_message_ne_zero.2 hx)
  have hbuild : buildRule (s.putFreq (countSymbols s.message)) = .ok (s.putFreq (countSymbols s.message)).putCodes :=
    buildRule_of_ne_zero (List.length_pos_of_mem hnode).ne'
  rw [encRule_eq, if_neg (by omega), if_neg (by omega), histRule_of_le hlen]
  exact congrArg (fun r => (r >>= mapRule) >>= packRule) hbuild

/-- A bitstring longer than BIT_CAP is an error of ENC's MAP, as each symbol has a code (R163). -/
theorem encRule_of_overflow {s : State} (hpos : 0 < s.symLen.toNat) (hlen : s.symLen.toNat ≤ s.params.symCap)
    (hover : s.params.bitCap < (encodedBits s.message).length) : encRule s = .error { err := .cap, info := 2 } := by
  have hentry {x} (hx : x ∈ s.message) := entry_codeTable_buildCodes (entry_countSymbols_message_ne_zero.2 hx)
  have hbits := List.flatMap_congr fun x (hx : x ∈ s.message) => (hentry hx).2
  have hloop := mapLoop_of_overflow (i := 0) (b := []) (fun x hx => (hentry hx).1) (Nat.zero_le s.params.bitCap)
    (by rwa [List.nil_append, hbits])
  rw [encRule_of_message hpos hlen,
    mapRule_of_mapLoop_error (s := (s.putFreq (countSymbols s.message)).putCodes) hlen hloop]
  rfl

/-- A failed ENC clears every output, whatever its bodies had filled (R163, 60_exceptions.md R230). -/
theorem exec_enc_of_error {s : State} {e : CmdError} {info : Word}
    (h : encRule (s.cleared (outputsOf .enc)) = .error { err := e, info := info }) :
    ∃ n d d', FreshDraw s.nextDraw n d ∧ FreshDraw s.nextDraw n d' ∧
      exec .enc s = .next { s.failed e info n with
        bitLen := 0, pktLen := 0, pad := 0, nsym := 0
        freq := Vector.replicate 256 0
        code := Vector.replicate 256 CodeEntry.zero
        ring := Vector.replicate 256 RingSlot.zero
        bits := Buffer.unspecified d, pkt := Buffer.unspecified d' } :=
  ⟨s.nextDraw + 3, s.nextDraw + 1, s.nextDraw + 2, ⟨by omega, by omega⟩, ⟨by omega, by omega⟩, command_of_error h⟩

/-- The write of a successful ENC, field by field. -/
theorem putEncoded_eq (s : State) :
    s.putEncoded = { s with
      freq := countSymbols s.message
      nsym := BitVec.ofNat 9 (allSymbols.filter fun x => decide (x ∈ s.message)).length
      code := Table.ofFn fun x =>
        if x ∈ s.message then CodeEntry.ofCode (buildCodes (countSymbols s.message) x) else CodeEntry.zero
      ring := Table.ofFn fun x =>
        if x ∈ s.message then { CodeEntry.ofCode (buildCodes (countSymbols s.message) x) with sym := x }
        else RingSlot.zero
      bits := s.bits.writeFrom 0 (bytesOf (encodedBits s.message))
      bitLen := BitVec.ofNat 32 (encodedBits s.message).length
      pkt := s.pkt.writeFrom 0
        (BitVec.ofNat 8 (padOf (encodedBits s.message).length) :: bytesOf (encodedBits s.message))
      pktLen := BitVec.ofNat 32 (1 + bytesFor (encodedBits s.message).length)
      pad := BitVec.ofNat 3 (padOf (encodedBits s.message).length) } := by
  rw [← length_initialQueue_countSymbols_message, ← ofFn_countSymbols_message, ← ofFn_countSymbols_message,
    ← length_packetOf, ← packetOf_eq]
  rfl

/-- Settles O34: ENC's start clears no input, so its rule finds the message as it stood. -/
theorem encCompressesTheMessage : Obligations.EncCompressesTheMessage := by
  refine ⟨decode_eq_ok_iff.2 rfl, fun s hwf => ?_⟩
  let s' := s.cleared (outputsOf .enc)
  refine ⟨fun hlt => exec_enc_of_error (encRule_of_lt (s := s') hlt),
    fun hzero => exec_enc_of_error (encRule_of_symLen_zero (s := s') hzero), fun hpos hlen =>
    ⟨fun hover => exec_enc_of_error (encRule_of_overflow (s := s') hpos hlen hover), fun hfits => ?_⟩⟩
  have hrun := command_of_ok (encRule_of_fits (s := s') hwf hpos hlen hfits)
  rw [putEncoded_eq] at hrun
  exact ⟨_, _, s.bits.extended_writeFrom _, s.pkt.extended_writeFrom _, hrun⟩

end Sys2Proof.Machine
end

