-- ==== Sys2Proof/Proofs/Unpacking.lean ====
section
/-! PROOFS. UNPACK's next state (43_unpack_and_walk.md R190): the payload without its pad bits, or the first error
of the pad check. Settles O37. -/

namespace Sys2Proof.Machine

/-! ### The pad check -/

section
variable {s : State}

theorem packetOperand_of_lt (h : s.params.pktCap < s.pktLen.toNat) :
    s.packetOperand = .error { err := .cap, info := 3 } := by
  simp only [State.packetOperand]
  rw [if_pos h]

theorem packetOperand_of_empty (h : s.pktLen.toNat = 0) :
    s.packetOperand = .error { err := .pad, info := 0xFFFF_FFFF } := by
  simp only [State.packetOperand]
  rw [if_neg (by omega), if_pos h]

/-- A pad length above 7 and one above the payload's bits are reported alike (R190). -/
theorem packetOperand_of_badPad (hpos : 1 ≤ s.pktLen.toNat) (hcap : s.pktLen.toNat ≤ s.params.pktCap)
    (hpad : 7 < (s.pkt.read 0).toNat ∨ 8 * (s.pktLen.toNat - 1) < (s.pkt.read 0).toNat) :
    s.packetOperand = .error { err := .pad, info := (s.pkt.read 0).zeroExtend 32 } := by
  simp only [State.packetOperand]
  rw [if_neg (by omega), if_neg (by omega), BitVec.ofNat_toNat]
  by_cases h7 : 7 < (s.pkt.read 0).toNat
  · exact if_pos h7
  · rw [if_neg h7]
    exact if_pos (hpad.resolve_left h7)

/-! ### UNPACK -/

theorem unpackRule_of_error {r : Raised} (h : s.packetOperand = .error r) : unpackRule s = .error r := by
  rw [unpackRule_eq, h]
  rfl

theorem unpackRule_of_ok {pad L : Nat} (h : s.packetOperand = .ok (pad, L)) :
    unpackRule s = .ok (s.putUnpacked pad (s.payloadBits L)) := by
  rw [unpackRule_eq, h]
  rfl

end

/-- The write of a successful UNPACK, field by field. -/
theorem putUnpacked_payloadBits (s : State) (pad L : Nat) :
    s.putUnpacked pad (s.payloadBits L) = { s with
      bits := s.bits.writeFrom 0 (bytesOf (s.payloadBits L))
      bitLen := BitVec.ofNat 32 L
      pad := BitVec.ofNat 3 pad } := by
  rw [State.putUnpacked, State.putBitstring, length_payloadBits]

/-- Bit `j` of the payload, as R190 writes it. -/
theorem getElem_payloadBits (s : State) {L j : Nat} (h : j < (s.payloadBits L).length) :
    (s.payloadBits L)[j] = ((s.pkt.read (1 + j / 8)) >>> (7 - j % 8)).getLsbD 0 := by
  rw [BitVec.getLsbD_ushiftRight, Nat.add_zero]
  exact getElem_bitsOf _ _ _ h

/-- A failed UNPACK clears BIT_LEN and PAD and leaves BITS unspecified (40_control.md R120, 60_exceptions.md R230). -/
theorem exec_unpack_of_error {s : State} {e : CmdError} {info : Word}
    (h : unpackRule (s.cleared (outputsOf .unpack)) = .error { err := e, info := info }) :
    ∃ n d, FreshDraw s.nextDraw n d ∧
      exec .unpack s = .next { s.failed e info n with bitLen := 0, pad := 0, bits := Buffer.unspecified d } :=
  ⟨s.nextDraw + 3, s.nextDraw + 1, ⟨by omega, by omega⟩, command_of_error h⟩

/-- Settles O37: UNPACK's start clears BIT_LEN and PAD alone, so its rule reads the packet as it stood. -/
theorem unpackDropsThePadBits : Obligations.UnpackDropsThePadBits := by
  refine ⟨decode_eq_ok_iff.2 rfl, fun s _ => ?_⟩
  intro m pad L fails
  let s' := s.cleared (outputsOf .unpack)
  have raised {e : CmdError} {info : Word} (h : s'.packetOperand = .error { err := e, info := info }) : fails e info :=
    exec_unpack_of_error (unpackRule_of_error h)
  refine ⟨fun hlt => raised (packetOperand_of_lt hlt), fun hempty => raised (packetOperand_of_empty hempty),
    fun hpos hcap => ⟨fun hbad => raised (packetOperand_of_badPad hpos hcap hbad), fun h7 hle => ?_⟩⟩
  have hlen : (s.payloadBits L).length = L := length_payloadBits s L
  have hbytes := s.bits.extended_writeFrom (bytesOf (s.payloadBits L))
  have hbits := (bitsOf_eq_iff rfl).1 (bitsOf_of_bytesOf hbytes.1)
  have hrun := command_of_ok (unpackRule_of_ok (packetOperand_ok (s := s') hcap (Nat.pos_iff_ne_zero.1 hpos) h7 hle))
  rw [putUnpacked_payloadBits] at hrun
  refine ⟨_, fun j hj => ?_, fun j hj hj' => ?_, fun k hk => ?_, hrun⟩
  · exact (hbits j (hlen.symm ▸ hj)).trans (getElem_payloadBits s _)
  · exact bitAt_unused_of_bytesOf hbytes.1 (hlen.trans_le hj) (hlen.symm ▸ hj')
  · exact hbytes.2 k (by rwa [length_bytesOf, hlen])

end Sys2Proof.Machine
end

