-- ==== Sys2Proof/Proofs/Walking.lean ====
section
/-! PROOFS. WALK's next state (43_unpack_and_walk.md R191, R192): `match` finds the least holder of a key, and the loop
reads whole codes until the first error met in scan order. Settles O38 and O39. -/

namespace Sys2Proof.Machine

/-! ### The match -/

theorem CodeEntry.key_eq_iff {e : CodeEntry} {acc : BitString} :
    e.key = acc ↔ e.len.toNat = acc.length ∧
      ∀ i (h : i < acc.length), bitAt (fun o => e.bits.toList.getD o 0) i = acc[i] := by
  refine ⟨fun h => ?_, fun ⟨hlen, hbits⟩ => (bitsOf_eq_iff hlen.symm).2 hbits⟩
  have hlen : e.len.toNat = acc.length := by rw [← h, CodeEntry.length_key]
  exact ⟨hlen, (bitsOf_eq_iff hlen.symm).1 h⟩

/-- The slots are looked at in rising order, so the one found is the least holder (R192). -/
theorem matchSlot_eq_some_iff {ring : Table RingSlot} {acc : BitString} {k : Symbol} :
    matchSlot ring acc = some k ↔ LeastHolder ring acc k := by
  refine ⟨fun h => ?_, matchSlot_of_leastHolder⟩
  obtain ⟨hk, before, after, hsplit, hbefore⟩ := List.find?_eq_some_iff_append.1 h
  obtain ⟨hvalid, hkey⟩ := slotHolds_iff.1 hk
  refine ⟨hvalid, hkey, fun j hj hheld => ?_⟩
  have hrising := (List.pairwise_append.1 (hsplit ▸ pairwise_lt_allSymbols)).2.1
  rcases List.mem_append.1 (hsplit ▸ mem_allSymbols j) with hmem | hmem
  · simpa [slotHolds_iff.2 hheld] using hbefore j hmem
  rcases List.mem_cons.1 hmem with rfl | hmem
  · exact BitVec.lt_irrefl j hj
  · exact BitVec.lt_asymm hj ((List.pairwise_cons.1 hrising).1 j hmem)

/-- Settles O38: a key is the accumulator when it has its length and its bits. -/
theorem matchIsTheLeastHolder : Obligations.MatchIsTheLeastHolder := by
  refine fun ring acc => ⟨fun k => ?_, matchSlot_eq_none_iff⟩
  rw [matchSlot_eq_some_iff, LeastHolder, CodeEntry.key_eq_iff, and_assoc]

/-- A key that a slot holds has at most the 255 bits that LEN can count. -/
theorem LeastHolder.length_le {ring : Table RingSlot} {c : BitString} {k : Symbol} (h : LeastHolder ring c k) :
    c.length ≤ 255 := by
  rw [← h.2.1, CodeEntry.length_key]
  exact Nat.le_of_lt_succ (ring.entry k).len.isLt

/-! ### The loop -/

section
variable {ring : Table RingSlot} {cap j : Nat} {b : BitString} {out xs : List Symbol}

/-- WALK goes on from the end of a beginning of whole codes whose symbols fit (R191). -/
theorem walkLoop_append_of_parses (h : Parses ring b xs) (hcap : out.length + xs.length ≤ cap) (r : BitString) :
    walkLoop ring cap [] j j out (b ++ r) =
      walkLoop ring cap [] (j + b.length) (j + b.length) (out ++ xs) r := by
  induction h generalizing j out with
  | nil => simp
  | cons hc _ ih =>
    rw [List.length_cons] at hcap
    rw [List.append_assoc, walkLoop_of_shortestMatch hc rfl hc.1 (by omega),
      ih (by rw [List.length_append, List.length_singleton]; omega), List.length_append, Nat.add_assoc,
      List.append_assoc, List.singleton_append]

/-- WALK keeps in the accumulator the bits no beginning of which is a key, as long as it has room for them (R191). -/
theorem walkLoop_append_of_noHolder {acc p : BitString} {start : Nat} (hlen : (acc ++ p).length ≤ 255)
    (hno : ∀ q, q <+: p → q ≠ [] → NoHolder ring (acc ++ q)) (r : BitString) :
    walkLoop ring cap acc start j out (p ++ r) = walkLoop ring cap (acc ++ p) start (j + p.length) out r := by
  induction p generalizing acc j with
  | nil => simp
  | cons x p ih =>
    have hroom : acc.length ≠ 255 := by
      rw [List.length_append, List.length_cons] at hlen
      omega
    have hx : NoHolder ring (acc ++ [x]) := hno [x] ⟨p, rfl⟩ (by simp)
    have hrest (q : BitString) (hq : q <+: p) (_ : q ≠ []) : NoHolder ring (acc ++ [x] ++ q) := by
      rw [← List.append_cons]
      exact hno (x :: q) (List.cons_prefix_cons.2 ⟨rfl, hq⟩) (by simp)
    rw [List.append_cons] at hlen ⊢
    rw [List.cons_append, walkLoop, if_neg hroom, matchSlot_eq_none_iff.2 hx, List.length_cons, Nat.add_comm p.length,
      ← Nat.add_assoc]
    exact ih hlen hrest

/-- A code that no beginning completes ends WALK at its first bit, where the bits end or at 255 bits (R191). -/
theorem walkLoop_of_noHolder (hb : b ≠ []) (hno : ∀ p, p <+: b → p ≠ [] → NoHolder ring p) :
    walkLoop ring cap [] j j out b = .error { err := .decode, info := BitVec.ofNat 32 j } := by
  have hkept := walkLoop_append_of_noHolder (cap := cap) (start := j) (j := j) (out := out) (acc := [])
    (List.length_take_le 255 b) (fun q hq => hno q (hq.trans (List.take_prefix 255 b))) (b.drop 255)
  rw [List.take_append_drop, List.nil_append] at hkept
  rw [hkept]
  cases hd : b.drop 255 with
  | nil => rw [walkLoop, if_neg (by simpa using hb)]
  | cons x r =>
    have hlong : 255 < b.length := Nat.not_le.1 (mt List.drop_eq_nil_of_le (hd ▸ List.cons_ne_nil x r))
    rw [walkLoop, if_pos (by rw [List.length_take]; omega)]

/-- A code completed when SYM is full ends WALK (R191). -/
theorem walkLoop_of_full {c : BitString} {k : Symbol} (hc : ShortestMatch ring c k) (hcap : out.length = cap)
    (r : BitString) : walkLoop ring cap [] j j out (c ++ r) = .error { err := .cap, info := 4 } := by
  obtain ⟨hne, hholder, hshortest⟩ := hc
  obtain ⟨p, x, rfl⟩ := (List.eq_nil_or_concat' c).resolve_left hne
  have hlen := hholder.length_le
  rw [List.length_append, List.length_singleton] at hlen
  have hno (q : BitString) (hq : q <+: p) (hq' : q ≠ []) : NoHolder ring ([] ++ q) := by
    refine hshortest q (hq.trans (List.prefix_append _ _)) hq' fun he => ?_
    simpa [he] using hq.length_le
  rw [List.append_assoc, walkLoop_append_of_noHolder (by rw [List.nil_append]; omega) hno, List.nil_append,
    List.singleton_append, walkLoop, if_neg (by omega), matchSlot_of_leastHolder hholder]
  exact if_pos hcap

/-- A result of WALK is the symbols of whole codes, where no beginning of the accumulator is a key (R191). -/
theorem parses_of_walkLoop {acc : BitString} {start : Nat} {m : List Symbol}
    (hno : ∀ p, p <+: acc → p ≠ [] → NoHolder ring p) (h : walkLoop ring cap acc start j out b = .ok m) :
    ∃ xs, m = out ++ xs ∧ Parses ring (acc ++ b) xs := by
  induction b generalizing acc start j out with
  | nil =>
    rw [walkLoop] at h
    split at h
    next hacc =>
      subst hacc
      cases h
      exact ⟨[], (List.append_nil _).symm, .nil⟩
    · cases h
  | cons x b ih =>
    rw [walkLoop] at h
    split at h
    · cases h
    split at h
    next hnone =>
      rw [List.append_cons]
      refine ih (fun p hp hne => ?_) h
      rcases List.prefix_concat_iff.1 hp with rfl | hp
      · exact matchSlot_eq_none_iff.1 hnone
      · exact hno p hp hne
    next k hsome =>
      split at h
      · cases h
      obtain ⟨xs, rfl, hxs⟩ := ih (fun p hp hne => absurd (List.prefix_nil.1 hp) hne) h
      have hcode : ShortestMatch ring (acc ++ [x]) k :=
        ⟨by simp, matchSlot_eq_some_iff.1 hsome, fun p hp hne hproper =>
          hno p ((List.prefix_concat_iff.1 hp).resolve_left hproper) hne⟩
      rw [List.append_cons acc]
      exact ⟨(ring.entry k).sym :: xs, (List.append_cons ..).symm, .cons hcode hxs⟩

/-- Each symbol has a code of one bit or more. -/
theorem Parses.length_le (h : Parses ring b xs) : xs.length ≤ b.length := by
  induction h with
  | nil => exact le_rfl
  | cons hc _ ih =>
    have hpos := List.length_pos_iff.2 hc.1
    rw [List.length_cons, List.length_append]
    omega

/-! ### The errors of a scan -/

variable {start : Nat} (h : Parses ring (b.take start) xs)
include h

/-- A scan of whole codes up to `start` goes on there with their symbols. -/
theorem walkLoop_of_parses_take (hcap : xs.length ≤ cap) :
    walkLoop ring cap [] 0 0 [] b =
      walkLoop ring cap [] (b.take start).length (b.take start).length xs (b.drop start) := by
  have hscan := walkLoop_append_of_parses (cap := cap) (j := 0) (out := []) h (by rwa [List.length_nil, Nat.zero_add])
    (b.drop start)
  rwa [List.take_append_drop, Nat.zero_add, List.nil_append] at hscan

theorem walkLoop_of_cut (hcap : xs.length ≤ cap) (hstart : start < b.length)
    (hno : ∀ p, p <+: b.drop start → p ≠ [] → NoHolder ring p) :
    walkLoop ring cap [] 0 0 [] b = .error { err := .decode, info := BitVec.ofNat 32 start } := by
  rw [walkLoop_of_parses_take h hcap, walkLoop_of_noHolder (by simpa using hstart) hno,
    List.length_take_of_le hstart.le]

theorem walkLoop_of_overflow {c : BitString} {k : Symbol} (hcap : xs.length = cap) (hc : c <+: b.drop start)
    (hmatch : ShortestMatch ring c k) : walkLoop ring cap [] 0 0 [] b = .error { err := .cap, info := 4 } := by
  obtain ⟨r, hr⟩ := hc
  rw [walkLoop_of_parses_take h hcap.le, ← hr, walkLoop_of_full hmatch hcap]

end

/-! ### WALK -/

section
variable {s : State}

theorem walkRule_of_lt (h : s.params.bitCap < s.bitLen.toNat) : walkRule s = .error { err := .cap, info := 2 } := by
  rw [walkRule_eq, bitstringOperand_error h]
  rfl

/-- An error of WALK's loop is WALK's. -/
theorem walkRule_of_walkLoop_error {r : Raised} (hbits : s.bitLen.toNat ≤ s.params.bitCap)
    (h : walkLoop s.ring s.params.symCap [] 0 0 [] s.bitstring = .error r) : walkRule s = .error r := by
  rw [walkRule_eq, bitstringOperand_ok hbits]
  exact congrArg (Except.map s.putMessage) h

/-- WALK succeeds on a bitstring of whole codes alone, and leaves their symbols in SYM (R191). -/
theorem parses_of_walkRule {u : State} (hbits : s.bitLen.toNat ≤ s.params.bitCap) (hu : walkRule s = .ok u) :
    Parses s.ring s.bitstring u.message := by
  rw [walkRule_eq, bitstringOperand_ok hbits] at hu
  obtain ⟨m, hloop, rfl⟩ := map_eq_ok hu
  obtain ⟨xs, rfl, hxs⟩ := parses_of_walkLoop (fun p hp hne => absurd (List.prefix_nil.1 hp) hne) hloop
  have hlen := length_bitstring s ▸ hxs.length_le
  rwa [message_putMessage (hlen.trans_lt s.bitLen.isLt)]

/-- A failed WALK clears SYM_LEN and leaves SYM unspecified (40_control.md R120, 60_exceptions.md R230). -/
theorem exec_walk_of_error {e : CmdError} {info : Word}
    (h : walkRule (s.cleared (outputsOf .walk)) = .error { err := e, info := info }) :
    ∃ n d, FreshDraw s.nextDraw n d ∧
      exec .walk s = .next { s.failed e info n with symLen := 0, sym := Buffer.unspecified d } :=
  ⟨s.nextDraw + 3, s.nextDraw, ⟨by omega, by omega⟩, command_of_error h⟩

end

/-- Settles O39: WALK's start clears SYM_LEN alone, so its rule reads the bitstring and the ring as they stood. -/
theorem walkDecodesWholeCodes : Obligations.WalkDecodesWholeCodes := by
  refine ⟨decode_eq_ok_iff.2 rfl, fun s => ?_⟩
  intro fails
  let s' := s.cleared (outputsOf .walk)
  refine ⟨fun hlt => exec_walk_of_error (walkRule_of_lt (s := s') hlt), fun hbits => ?_⟩
  have raised {e : CmdError} {info : Word}
      (hloop : walkLoop s.ring s.params.symCap [] 0 0 [] s.bitstring = .error { err := e, info := info }) :
      fails e info :=
    exec_walk_of_error (walkRule_of_walkLoop_error (s := s') hbits hloop)
  refine ⟨fun xs hxs hcap => ⟨_, s.sym.extended_writeFrom xs, ?_⟩, fun start xs hstart hxs hcap hno => ?_,
    fun start xs c k hxs hcap hc hmatch => ?_, fun t ht hnone => ?_⟩
  · exact command_of_ok (walkRule_of_parses (s := s') hxs hbits hcap)
  · exact raised (walkLoop_of_cut hxs hcap (by rwa [length_bitstring]) hno)
  · exact raised (walkLoop_of_overflow hxs hcap hc hmatch)
  · obtain ⟨u, hu, rfl⟩ := command_success ht hnone
    exact parses_of_walkRule (s := s') (u := u) hbits hu

end Sys2Proof.Machine
end

