-- ==== Sys2Proof/Proofs/Decoding.lean ====
section
/-! PROOFS. DEC's next state (43_unpack_and_walk.md R194): UNPACK's and then WALK's, or the first error of either with
every output of both cleared. Settles O42 and O43. -/

namespace Sys2Proof.Machine

/-! ### DEC after the pad check -/

section
variable {s : State} {pad L : Nat}

/-- The payload of a packet that fits into PKT fits into BITS (00_scope.md R5). -/
theorem le_bitCap_of_packetOperand (h : s.packetOperand = .ok (pad, L)) : L ≤ s.params.bitCap := by
  obtain ⟨hcap, -, hL⟩ := packetOperand_eq_ok h
  unfold Params.pktCap at hcap
  omega

theorem decRule_of_packetOperand_error {r : Raised} (h : s.packetOperand = .error r) : decRule s = .error r := by
  rw [decRule_eq, unpackRule_of_error h]
  rfl

theorem decRule_of_packetOperand_ok (h : s.packetOperand = .ok (pad, L)) :
    decRule s = walkRule (s.putUnpacked pad (s.payloadBits L)) := by
  rw [decRule_eq, unpackRule_of_ok h]
  rfl

end

/-- A failed DEC clears the outputs of UNPACK too, whether or not that had succeeded (R194, 60_exceptions.md R230). -/
theorem exec_dec_of_error {s : State} {e : CmdError} {info : Word}
    (h : decRule (s.cleared (outputsOf .dec)) = .error { err := e, info := info }) :
    ∃ n d d', FreshDraw s.nextDraw n d ∧ FreshDraw s.nextDraw n d' ∧
      exec .dec s = .next { s.failed e info n with
        bitLen := 0, pad := 0, symLen := 0, bits := Buffer.unspecified d, sym := Buffer.unspecified d' } :=
  ⟨s.nextDraw + 3, s.nextDraw + 1, s.nextDraw, ⟨by omega, by omega⟩, ⟨by omega, by omega⟩, command_of_error h⟩

/-- Settles O42: DEC's start clears neither the packet nor the ring, and WALK finds the bitstring that UNPACK wrote. -/
theorem decDecompressesThePacket : Obligations.DecDecompressesThePacket := by
  refine ⟨decode_eq_ok_iff.2 rfl, fun s hwf => ?_⟩
  intro m pad L b fails
  let s' := s.cleared (outputsOf .dec)
  have raised {e : CmdError} {info : Word} (h : s'.packetOperand = .error { err := e, info := info }) : fails e info :=
    exec_dec_of_error (decRule_of_packetOperand_error h)
  refine ⟨fun hlt => raised (packetOperand_of_lt hlt), fun hempty => raised (packetOperand_of_empty hempty),
    fun hpos hcap hbad => raised (packetOperand_of_badPad hpos hcap hbad), fun hpos hcap h7 hle => ?_⟩
  have hpacket : s'.packetOperand = .ok (pad, L) := packetOperand_ok hcap (Nat.pos_iff_ne_zero.1 hpos) h7 hle
  let u := s'.putUnpacked pad b
  have hlen : b.length = L := length_payloadBits s L
  have hmax := (Params.caps_le_of_wf hwf).2
  have hL : L ≤ s.params.bitCap := le_bitCap_of_packetOperand hpacket
  have hu : u.bitLen.toNat ≤ u.params.bitCap := (toNat_ofNat_le b.length).trans (hlen.trans_le hL)
  have hb : u.bitstring = b := bitstring_putBitstring (s := s') (by omega)
  have scanned {e : CmdError} {info : Word}
      (hloop : walkLoop s.ring s.params.symCap [] 0 0 [] b = .error { err := e, info := info }) : fails e info :=
    exec_dec_of_error ((decRule_of_packetOperand_ok hpacket).trans (walkRule_of_walkLoop_error hu (hb.symm ▸ hloop)))
  refine ⟨fun xs hxs hsym => ?_, fun start xs hstart hxs hsym hno => ?_, fun start xs c k hxs hsym hc hmatch => ?_⟩
  · have hrun := command_of_ok
      ((decRule_of_packetOperand_ok hpacket).trans (walkRule_of_parses (s := u) (hb.symm ▸ hxs) hu hsym))
    rw [show u = _ from putUnpacked_payloadBits s' pad L] at hrun
    exact ⟨_, _, s.bits.extended_writeFrom _, s.sym.extended_writeFrom _, hrun⟩
  · exact scanned (walkLoop_of_cut hxs hsym (hlen.symm ▸ hstart) hno)
  · exact scanned (walkLoop_of_overflow hxs hsym hc hmatch)

/-! ### DEC and the two commands -/

/-- UNPACK does not look at what WALK's start clears. -/
theorem unpackRule_cleared_walk (s : State) :
    unpackRule (s.cleared (outputsOf .walk)) = (unpackRule s).map fun u => u.cleared (outputsOf .walk) := by
  rw [unpackRule_eq, unpackRule_eq]
  cases h : s.packetOperand with
  | error r => exact unpackRule_of_error (s := s.cleared (outputsOf .walk)) h
  | ok p => exact unpackRule_of_ok (s := s.cleared (outputsOf .walk)) h

/-- DEC's start is UNPACK's and WALK's, which may as well come after UNPACK's body. -/
theorem decRule_cleared (s : State) :
    decRule (s.cleared (outputsOf .dec)) =
      (unpackRule (s.cleared (outputsOf .unpack))).bind fun u => walkRule (u.cleared (outputsOf .walk)) := by
  have hstart : s.cleared (outputsOf .dec) = (s.cleared (outputsOf .unpack)).cleared (outputsOf .walk) := rfl
  rw [decRule_eq, hstart, unpackRule_cleared_walk]
  cases unpackRule (s.cleared (outputsOf .unpack)) <;> rfl

/-- WALK does not look at the flags. -/
theorem walkRule_ended (s : State) (e : Option CmdError) (info : Word) :
    walkRule (s.ended e info) = (walkRule s).map fun u => u.ended e info := by
  rw [walkRule_eq, walkRule_eq]
  change Except.map _ (s.bitstringOperand.bind (walkLoop s.ring s.params.symCap [] 0 0 [])) = _
  cases s.bitstringOperand.bind (walkLoop s.ring s.params.symCap [] 0 0 []) <;> rfl

/-- Settles O43: DEC's body is UNPACK's and then WALK's, and the flags that UNPACK ends with are not looked at. -/
theorem decEqualsUnpackThenWalk : Obligations.DecEqualsUnpackThenWalk := by
  intro s t t1 t2 _ hdec hunpack hwalk
  have hboth := decRule_cleared s
  cases hu : unpackRule (s.cleared (outputsOf .unpack)) with
  | error r =>
    rw [hu] at hboth
    obtain rfl := Host.Outcome.next.inj (hunpack.symm.trans (command_of_error hu))
    obtain rfl := Host.Outcome.next.inj (hdec.symm.trans (command_of_error hboth))
    exact ⟨fun _ => ⟨rfl, rfl⟩, nofun, nofun, nofun⟩
  | ok u =>
    rw [hu] at hboth
    obtain rfl := Host.Outcome.next.inj (hunpack.symm.trans (command_of_ok hu))
    have hsecond := walkRule_ended (u.cleared (outputsOf .walk)) none 0
    cases hw : walkRule (u.cleared (outputsOf .walk)) with
    | error r =>
      rw [hw] at hsecond
      obtain rfl := Host.Outcome.next.inj (hwalk.symm.trans (command_of_error hsecond))
      obtain rfl := Host.Outcome.next.inj (hdec.symm.trans (command_of_error (hboth.trans hw)))
      exact ⟨fun h => absurd rfl h, fun _ _ => ⟨rfl, rfl⟩, nofun, nofun⟩
    | ok v =>
      rw [hw] at hsecond
      obtain rfl := Host.Outcome.next.inj (hwalk.symm.trans (command_of_ok hsecond))
      obtain rfl := Host.Outcome.next.inj (hdec.symm.trans (command_of_ok (hboth.trans hw)))
      exact ⟨fun h => absurd rfl h, fun _ h => absurd rfl h, fun _ _ => rfl, fun _ => ⟨rfl, rfl⟩⟩

end Sys2Proof.Machine
end

