-- ==== Sys2Proof/Proofs/Failures.lean ====
section
/-! PROOFS. How a failure is taken (60_exceptions.md): an illegal word in the flags alone (R227), a command error in the
flags and the outputs (R230), and again in the same way (R231). Settles O5, O9 and O10. -/

namespace Sys2Proof.Machine

/-! ### Illegal words -/

/-- A word that is no command's ends with ERR_ILLCMD. -/
theorem runWord_of_no_command {w : Word} (h : ∀ i : Instr, encode i ≠ w) (s : State) :
    runWord w s = .next (s.illegal w) := by
  cases hw : decode w with
  | ok i => exact absurd (decode_eq_ok_iff.1 hw).symm (h i)
  | error e => exact runWord_of_error hw s

/-- Settles O5: the next event is the write, which the idle block runs as its word, and taking ERR_ILLCMD writes the
flags alone. -/
theorem illegalWordChangesOnlyStatus : Obligations.IllegalWordChangesOnlyStatus := by
  intro s es w hscript hbusy hw
  calc
    step s = hostAccess (.write 0 4 w) { s with script := es } := step_cons hscript
    _ = runWord w { s with script := es } := hostAccess_cmd (s := { s with script := es }) hbusy w
    _ = .next (State.illegal { s with script := es } w) := runWord_of_no_command hw _

/-! ### Command errors -/

/-- A command that ended with an error raised it from its cleared start, and had it taken. -/
theorem exec_failure {i : Instr} {s t : State} (h : exec i s = .next t) (he : t.err ≠ none) :
    ∃ r, ruleOf i (s.cleared (outputsOf i)) = .error r ∧ t = s.errorTaken (outputsOf i) r :=
  command_failure (exec_eq_command i s ▸ h) he

section
variable (s : State) (o : Items) (r : Raised)

/-- An output register reads 0 after an error, and every other register as before. -/
theorem reg_errorTaken (x : Reg) : (s.errorTaken o r).reg x = if x ∈ o.regs then 0 else s.reg x := by
  cases x with
  | symLen => rfl
  | bitLen => rfl
  | pktLen => rfl
  | pad => exact apply_ite (BitVec.zeroExtend 32) _ 0 s.pad
  | nsym => exact apply_ite (BitVec.zeroExtend 32) _ 0 s.nsym

/-- An output buffer has the contents of a draw made when the error is taken. -/
theorem buf_errorTaken_of_mem {b : Buf} (hb : b ∈ o.bufs) :
    ∃ d, FreshDraw s.nextDraw (s.errorTaken o r).nextDraw d ∧ (s.errorTaken o r).buf b = Buffer.unspecified d := by
  cases b with
  | sym => exact ⟨s.nextDraw, ⟨by omega, by simp⟩, if_pos hb⟩
  | bits => exact ⟨s.nextDraw + 1, ⟨by omega, by simp⟩, if_pos hb⟩
  | pkt => exact ⟨s.nextDraw + 2, ⟨by omega, by simp⟩, if_pos hb⟩

end

/-- A table cleared or not, entry by entry. -/
theorem Table.entry_ite_replicate {α : Type} (c : Prop) [Decidable c] (v : α) (t : Table α) (x : Symbol) :
    Table.entry (if c then Vector.replicate 256 v else t) x = if c then v else t.entry x := by
  split
  · exact Table.entry_replicate v x
  · rfl

/-- Settles O9: the state is the one in which the error was taken, which is given item by item. -/
theorem failedCommandClearsItsOutputs : Obligations.FailedCommandClearsItsOutputs := by
  intro i s t ht he
  obtain ⟨r, -, rfl⟩ := exec_failure ht he
  refine ⟨reg_errorTaken s _ r, Table.entry_ite_replicate _ 0 s.freq, Table.entry_ite_replicate _ CodeEntry.zero s.code,
    Table.entry_ite_replicate _ RingSlot.zero s.ring, fun b hb => ?_, (changesOnly_errorTaken s _ r).bufs,
    toNat_statusWord_ended _ (some r.err) r.info⟩
  obtain ⟨d, hd, hbuf⟩ := buf_errorTaken_of_mem s _ r hb
  exact ⟨d, hd, fun k => congrArg (Buffer.read · k) hbuf⟩

/-! ### Failing again -/

/-- A change of other items is not seen. -/
theorem ChangesOnly.agreeOn {p o : Items} {s t : State} (h : ChangesOnly p s t)
    (hregs : ∀ r ∈ o.regs, r ∉ p.regs) (htabs : ∀ x ∈ o.tabs, x ∉ p.tabs) (hbufs : ∀ b ∈ o.bufs, b ∉ p.bufs) :
    AgreeOn o s t where
  params := h.params.symm
  regs r hr := (h.regs r (hregs r hr)).symm
  tabs x hx := h.tabs x (htabs x hx)
  bufs b hb k _ := by rw [h.bufs b (hbufs b hb)]

/-- Settles O10: taking the error changes outputs alone (R120: no command's input is among them), so the command finds
the inputs it failed on, and its results depend on nothing else. -/
theorem failureRepeats : Obligations.FailureRepeats := by
  intro i s t ht he
  obtain ⟨u, hu⟩ := exists_exec_eq_next i t
  obtain ⟨r, -, htaken⟩ := exec_failure ht he
  obtain ⟨hregs, htabs, hbufs⟩ := inputsAndOutputsAreDisjoint i
  have hsame : AgreeOn (inputsOf i) s t := by
    rw [htaken]
    exact (changesOnly_errorTaken s (outputsOf i) r).agreeOn hregs htabs hbufs
  obtain ⟨herr, hinfo, -⟩ := commandDependsOnItsInputsAlone i s t t u hsame ht hu
  exact ⟨u, hu, herr.symm, hinfo.symm⟩

end Sys2Proof.Machine
end

