-- ==== Sys2Proof/Proofs/Hazards.lean ====
section
/-! PROOFS. What the host meets while a command is in progress (70_reset_and_hazards.md R254), and what the reset input
leaves of it (R250). Settles O13 and O16. -/

namespace Sys2Proof.Machine

/-! ### Accesses while BUSY = 1 -/

/-- While a command is in progress no other can be issued. -/
theorem issueCommand_busy {s : State} (hb : s.busy = true) (w : Word) :
    issueCommand w s = .refused .accessWhileBusy := if_pos hb

/-- The one access with a meaning while a command is in progress: the host gets STATUS. -/
theorem hostAccess_status_busy {s : State} (hb : s.busy = true) :
    hostAccess (.read 4 4) s = .next { s with reads := s.reads ++ [s.statusWord] } := by
  have hstatus : s.hostRead RegName.status.offset = { s with reads := s.reads ++ [s.statusWord] } := by
    rw [State.hostRead, locate_register]
    rfl
  rw [hostAccess_read_busy hb, ← hstatus]
  exact if_pos ⟨rfl, rfl⟩

/-- Any other read is refused. -/
theorem hostAccess_read_busy_refused {s : State} (hb : s.busy = true) {a : Addr} {n : Nat} (h : ¬(a = 4 ∧ n = 4)) :
    hostAccess (.read a n) s = .refused .accessWhileBusy := by
  rw [hostAccess_read_busy hb]
  exact if_neg fun ⟨ha, hn⟩ => h ⟨BitVec.eq_of_toNat_eq ha, hn⟩

/-- STATUS is 0x01 while a command is in progress: DONE and ERR are 0 from its start (40_control.md R120). -/
theorem statusWord_busy {s : State} (hb : s.busy = true) (hd : s.done = false) (he : s.err = none) :
    s.statusWord = 1 := by
  simp [State.statusWord, hb, hd, he, errNumber]

/-- Settles O13: the next event is the access, and a block that is busy stays so when it is taken off the script. -/
theorem busyAllowsOnlyStatusReads : Obligations.BusyAllowsOnlyStatusReads := by
  intro s es hb
  have busy : ({ s with script := es } : State).busy = true := hb
  refine ⟨fun h => ?_, statusWord_busy hb, fun a n h hn => ?_, fun a n v h => ?_, fun w h => ?_⟩
  · exact (step_cons h).trans (hostAccess_status_busy busy)
  · exact (step_cons h).trans (hostAccess_read_busy_refused busy hn)
  · exact (step_cons h).trans (hostAccess_write_busy busy a n v)
  · exact (step_cons h).trans (issueCommand_busy busy w)

/-! ### The reset input -/

section
variable (s : State)

theorem statusWord_resetBlock : s.resetBlock.statusWord = 0 := by
  simp [State.statusWord, errNumber]

theorem reg_resetBlock (r : Reg) : s.resetBlock.reg r = 0 := by
  cases r <;> rfl

/-- Each buffer has the contents of a draw made by the reset. -/
theorem buf_resetBlock (b : Buf) :
    ∃ d, FreshDraw s.nextDraw s.resetBlock.nextDraw d ∧ s.resetBlock.buf b = Buffer.unspecified d := by
  cases b with
  | sym => exact ⟨s.nextDraw, ⟨by omega, by simp⟩, rfl⟩
  | bits => exact ⟨s.nextDraw + 1, ⟨by omega, by simp⟩, rfl⟩
  | pkt => exact ⟨s.nextDraw + 2, ⟨by omega, by simp⟩, rfl⟩

end

/-- Settles O16: the step is `resetBlock`, busy or not, which keeps of the block its parameters and the host's two lists
alone. -/
theorem resetInputResets : Obligations.ResetInputResets := by
  intro s es hscript
  refine ⟨State.resetBlock { s with script := es }, step_cons hscript, statusWord_resetBlock _, rfl, rfl,
    reg_resetBlock _, Table.entry_replicate 0, Table.entry_replicate CodeEntry.zero, Table.entry_replicate RingSlot.zero,
    fun b => ?_, rfl, rfl, rfl⟩
  obtain ⟨d, hd, hbuf⟩ := buf_resetBlock { s with script := es } b
  exact ⟨d, hd, fun k => congrArg (Buffer.read · k) hbuf⟩

end Sys2Proof.Machine
end

