-- ==== Sys2Proof/Proofs/Successes.lean ====
section
/-! PROOFS. When HIST, BUILD, MAP, PACK and ENC succeed, and what each then leaves (41_frequency_and_tree.md R130, R132;
42_map_and_pack.md R160 to R163): ENC is the other four in sequence. Settles O35. -/

namespace Sys2Proof.Machine

/-! ### When a rule has a result -/

section
variable {s u : State}

theorem histRule_eq_ok_iff :
    histRule s = .ok u ↔ s.symLen.toNat ≤ s.params.symCap ∧ u = s.putFreq (countSymbols s.message) := by
  rcases Nat.lt_or_ge s.params.symCap s.symLen.toNat with hlt | hle
  · simp [histRule_of_lt hlt, hlt]
  · simp [histRule_of_le hle, hle, eq_comm]

theorem length_initialQueue_ne_zero_iff {freq : Table Word} :
    (initialQueue freq).length ≠ 0 ↔ ∃ x, freq.entry x ≠ 0 := by
  refine ⟨fun h => ?_, fun ⟨x, hx⟩ => (List.length_pos_of_mem (mem_initialQueue hx)).ne'⟩
  by_contra hnone
  exact h (length_initialQueue_of_none fun x => not_not.1 (not_exists.1 hnone x))

theorem buildRule_eq_ok_iff : buildRule s = .ok u ↔ (∃ x, s.freq.entry x ≠ 0) ∧ u = s.putCodes := by
  rw [← length_initialQueue_ne_zero_iff]
  by_cases h : (initialQueue s.freq).length = 0
  · rw [buildRule_of_eq_zero h]
    simp [h]
  · rw [buildRule_of_ne_zero h]
    simp [h, eq_comm]

theorem mapRule_eq_ok_iff :
    mapRule s = .ok u ↔ s.symLen.toNat ≤ s.params.symCap ∧
      ∃ b, mapLoop s.code s.params.bitCap 0 [] s.message = .ok b ∧ u = s.putBitstring b := by
  rcases Nat.lt_or_ge s.params.symCap s.symLen.toNat with hlt | hle
  · simp [mapRule_of_lt hlt, hlt]
  · have hmap : mapRule s = (mapLoop s.code s.params.bitCap 0 [] s.message).map s.putBitstring := by
      rw [mapRule_eq, messageOperand_ok hle]
      rfl
    rw [hmap]
    cases mapLoop s.code s.params.bitCap 0 [] s.message <;> simp [Except.map, hle, eq_comm]

theorem packRule_eq_ok_iff :
    packRule s = .ok u ↔ s.bitLen.toNat ≤ s.params.bitCap ∧ u = s.putPacket s.bitstring := by
  rcases Nat.lt_or_ge s.params.bitCap s.bitLen.toNat with hlt | hle
  · simp [packRule_of_lt hlt, hlt]
  · simp [packRule_of_le hle, hle, eq_comm]

end

/-! ### When a command succeeds -/

section
variable {s t : State}

/-- A command succeeds exactly when its rule has a result from the state with its outputs cleared (40_control.md R120). -/
theorem exec_success_iff {i : Instr} :
    exec i s = .next t ∧ t.err = none ↔ ∃ u, ruleOf i (s.cleared (outputsOf i)) = .ok u ∧ t = u.succeeded := by
  rw [exec_eq_command]
  refine ⟨fun ⟨h, he⟩ => command_success h he, ?_⟩
  rintro ⟨u, hu, rfl⟩
  exact ⟨command_of_ok hu, rfl⟩

/-- Where the rule has one result at most, the command succeeds under its condition and leaves that result. -/
theorem exec_success_iff_of_rule {i : Instr} {P : Prop} {w : State}
    (h : ∀ u, ruleOf i (s.cleared (outputsOf i)) = .ok u ↔ P ∧ u = w) :
    exec i s = .next t ∧ t.err = none ↔ P ∧ t = w.succeeded := by
  rw [exec_success_iff]
  constructor
  · rintro ⟨u, hu, rfl⟩
    obtain ⟨hP, rfl⟩ := (h u).1 hu
    exact ⟨hP, rfl⟩
  · rintro ⟨hP, rfl⟩
    exact ⟨w, (h w).2 ⟨hP, rfl⟩, rfl⟩

theorem exec_hist_success_iff :
    exec .hist s = .next t ∧ t.err = none ↔
      s.symLen.toNat ≤ s.params.symCap ∧ t = (s.putFreq (countSymbols s.message)).succeeded :=
  exec_success_iff_of_rule fun _ => histRule_eq_ok_iff (s := s.cleared (outputsOf .hist))

theorem exec_build_success_iff :
    exec .build s = .next t ∧ t.err = none ↔ (∃ x, s.freq.entry x ≠ 0) ∧ t = s.putCodes.succeeded :=
  exec_success_iff_of_rule fun _ => buildRule_eq_ok_iff (s := s.cleared (outputsOf .build))

theorem exec_map_success_iff :
    exec .map s = .next t ∧ t.err = none ↔ s.symLen.toNat ≤ s.params.symCap ∧
      ∃ b, mapLoop s.code s.params.bitCap 0 [] s.message = .ok b ∧ t = (s.putBitstring b).succeeded := by
  simp only [exec_success_iff, ruleOf, mapRule_eq_ok_iff]
  exact ⟨fun ⟨_, ⟨hle, b, hb, hu⟩, ht⟩ => ⟨hle, b, hb, ht.trans (congrArg _ hu)⟩,
    fun ⟨hle, b, hb, ht⟩ => ⟨_, ⟨hle, b, hb, rfl⟩, ht⟩⟩

theorem exec_pack_success_iff :
    exec .pack s = .next t ∧ t.err = none ↔
      s.bitLen.toNat ≤ s.params.bitCap ∧ t = (s.putPacket s.bitstring).succeeded :=
  exec_success_iff_of_rule fun _ => packRule_eq_ok_iff (s := s.cleared (outputsOf .pack))

end

/-! ### The commands in sequence -/

/-- The message has 1 to SYM_CAP symbols, and its code bits fit into BIT_CAP (R163). -/
structure State.Encodable (s : State) : Prop where
  pos : 0 < s.symLen.toNat
  symFits : s.symLen.toNat ≤ s.params.symCap
  bitsFit : (encodedBits s.message).length ≤ s.params.bitCap

/-- What HIST, BUILD and MAP write for an encodable message. -/
def State.putMapped (s : State) : State :=
  ((s.putFreq (countSymbols s.message)).putCodes).putBitstring (encodedBits s.message)

section
variable {s t : State}

/-- HIST counts a symbol exactly when the message has one. -/
theorem exists_countSymbols_message_ne_zero_iff :
    (∃ x, (countSymbols s.message).entry x ≠ 0) ↔ 0 < s.symLen.toNat := by
  simp only [entry_countSymbols_message_ne_zero]
  rw [← length_message, List.length_pos_iff_exists_mem]

/-- With BUILD's codes for the message's own counts every symbol has one, so room is all that MAP can lack. -/
theorem mapLoop_buildCodes_eq_ok_iff {cap : Nat} {b : BitString} :
    mapLoop (codeTable (countSymbols s.message) (buildCodes (countSymbols s.message))) cap 0 [] s.message = .ok b ↔
      (encodedBits s.message).length ≤ cap ∧ b = encodedBits s.message := by
  have hentry {x} (hx : x ∈ s.message) := entry_codeTable_buildCodes (entry_countSymbols_message_ne_zero.2 hx)
  have hvalid := fun x (hx : x ∈ s.message) => (hentry hx).1
  have hbits : (s.message.flatMap fun x =>
      ((codeTable (countSymbols s.message) (buildCodes (countSymbols s.message))).entry x).key) =
        encodedBits s.message := List.flatMap_congr fun x hx => (hentry hx).2
  rcases Nat.lt_or_ge cap (encodedBits s.message).length with hover | hfits
  · rw [mapLoop_of_overflow hvalid (Nat.zero_le cap) (by rwa [List.nil_append, hbits])]
    simp [hover]
  · rw [mapLoop_of_valid hvalid (by rwa [List.nil_append, hbits]), List.nil_append, hbits]
    simp [hfits, eq_comm]

/-- BIT_LEN counts no more bits than MAP wrote. -/
theorem State.Encodable.bitLen_putMapped_le (h : s.Encodable) : s.putMapped.bitLen.toNat ≤ s.params.bitCap :=
  (toNat_ofNat_le _).trans h.bitsFit

/-- HIST, BUILD and MAP one after another succeed exactly on an encodable message. -/
theorem exec_hist_build_map_success_iff :
    (∃ t1 t2, (exec .hist s = .next t1 ∧ t1.err = none) ∧ (exec .build t1 = .next t2 ∧ t2.err = none) ∧
      exec .map t2 = .next t ∧ t.err = none) ↔ s.Encodable ∧ t = s.putMapped.succeeded := by
  constructor
  · rintro ⟨t1, t2, hhist, hbuild, hmap⟩
    obtain ⟨hlen, rfl⟩ := exec_hist_success_iff.1 hhist
    obtain ⟨hsome, rfl⟩ := exec_build_success_iff.1 hbuild
    obtain ⟨-, b, hloop, rfl⟩ := exec_map_success_iff.1 hmap
    obtain ⟨hfits, rfl⟩ := mapLoop_buildCodes_eq_ok_iff.1 hloop
    exact ⟨⟨exists_countSymbols_message_ne_zero_iff.1 hsome, hlen, hfits⟩, rfl⟩
  · rintro ⟨h, rfl⟩
    exact ⟨_, _, exec_hist_success_iff.2 ⟨h.symFits, rfl⟩,
      exec_build_success_iff.2 ⟨exists_countSymbols_message_ne_zero_iff.2 h.pos, rfl⟩,
      exec_map_success_iff.2 ⟨h.symFits, _, mapLoop_buildCodes_eq_ok_iff.2 ⟨h.bitsFit, rfl⟩, rfl⟩⟩

/-- ENC's four bodies: its own two checks are those of HIST and of BUILD (R163). -/
theorem encRule_eq_ok_iff {u : State} :
    encRule s = .ok u ↔ s.Encodable ∧ u = s.putMapped.putPacket s.putMapped.bitstring := by
  constructor
  · intro hu
    obtain ⟨s1, s2, s3, hhist, hbuild, hmap, hpack⟩ := encRule_eq_ok hu
    obtain ⟨hlen, rfl⟩ := histRule_eq_ok_iff.1 hhist
    obtain ⟨hsome, rfl⟩ := buildRule_eq_ok_iff.1 hbuild
    obtain ⟨-, b, hloop, rfl⟩ := mapRule_eq_ok_iff.1 hmap
    obtain ⟨hfits, rfl⟩ := mapLoop_buildCodes_eq_ok_iff.1 hloop
    obtain ⟨-, rfl⟩ := packRule_eq_ok_iff.1 hpack
    exact ⟨⟨exists_countSymbols_message_ne_zero_iff.1 hsome, hlen, hfits⟩, rfl⟩
  · rintro ⟨h, rfl⟩
    have hmap : mapRule (s.putFreq (countSymbols s.message)).putCodes = .ok s.putMapped :=
      mapRule_eq_ok_iff.2 ⟨h.symFits, _, mapLoop_buildCodes_eq_ok_iff.2 ⟨h.bitsFit, rfl⟩, rfl⟩
    rw [encRule_of_message h.pos h.symFits, hmap]
    exact packRule_eq_ok_iff.2 ⟨h.bitLen_putMapped_le, rfl⟩

/-- ENC succeeds exactly on an encodable message; what its start clears, its bodies write. -/
theorem exec_enc_success_iff :
    exec .enc s = .next t ∧ t.err = none ↔
      s.Encodable ∧ t = (s.putMapped.putPacket s.putMapped.bitstring).succeeded := by
  simp only [exec_success_iff, ruleOf, encRule_eq_ok_iff]
  constructor
  · rintro ⟨u, ⟨⟨hpos, hlen, hfits⟩, rfl⟩, rfl⟩
    exact ⟨⟨hpos, hlen, hfits⟩, rfl⟩
  · rintro ⟨⟨hpos, hlen, hfits⟩, rfl⟩
    exact ⟨_, ⟨⟨hpos, hlen, hfits⟩, rfl⟩, rfl⟩

end

/-- Settles O35: both succeed on the encodable messages, and PACK's check cannot fail after MAP's. -/
theorem encEqualsTheFourCommands : Obligations.EncEqualsTheFourCommands := by
  intro s t
  rw [exec_enc_success_iff]
  constructor
  · rintro ⟨h, rfl⟩
    obtain ⟨t1, t2, ⟨hhist, he1⟩, ⟨hbuild, he2⟩, hmap, he3⟩ := exec_hist_build_map_success_iff.2 ⟨h, rfl⟩
    exact ⟨t1, t2, _, hhist, he1, hbuild, he2, hmap, he3, exec_pack_success_iff.2 ⟨h.bitLen_putMapped_le, rfl⟩⟩
  · rintro ⟨t1, t2, t3, hhist, he1, hbuild, he2, hmap, he3, hpack⟩
    obtain ⟨h, rfl⟩ := exec_hist_build_map_success_iff.1 ⟨t1, t2, ⟨hhist, he1⟩, ⟨hbuild, he2⟩, hmap, he3⟩
    obtain ⟨-, rfl⟩ := exec_pack_success_iff.1 hpack
    exact ⟨h, rfl⟩

end Sys2Proof.Machine
end

