-- ==== Sys2Proof/Proofs/PrefixCode.lean ====
section
/-! PROOFS. BUILD's codes as WALK finds them in the ring (41_frequency_and_tree.md section 4): each slot that is valid holds
its own symbol's code and no other's beginning, so a message's codes are read back. Settles O29. -/

namespace Sys2Proof.Machine

section
variable {freq : Table Word} {x y : Symbol}

/-! ### The codes -/

/-- Of the symbols that occur, a code begins another's only if the two are one (10_state.md R32). -/
theorem eq_of_buildCodes_prefix (hx : freq.entry x ≠ 0) (hy : freq.entry y ≠ 0)
    (h : buildCodes freq x <+: buildCodes freq y) : x = y := by
  by_contra hne
  exact prefixFreeOn_buildCodes freq x (mem_occurring.2 hx) y (mem_occurring.2 hy) hne h

/-- A code is shorter than the queue is long, but for the lone symbol's. -/
theorem length_buildCodes_le (hx : freq.entry x ≠ 0) :
    (buildCodes freq x).length ≤ max 1 ((initialQueue freq).length - 1) := by
  have hmem := mem_initialQueue hx
  by_cases hone : (initialQueue freq).length = 1
  · rw [buildCodes, if_pos hone]
    exact le_max_left _ _
  · have hpos := List.length_pos_of_mem hmem
    have hlt := length_mergeLoop_lt le_rfl (List.ne_nil_of_mem hmem) x
    rw [buildCodes_of_two_le (by omega)]
    omega

/-! ### CODE and the ring -/

theorem valid_codeTable_iff (c : Symbol → BitString) :
    ((codeTable freq c).entry x).valid = true ↔ freq.entry x ≠ 0 := by
  rw [entry_codeTable]
  split <;> simp_all

/-- The ring is the inverse of CODE (R132). -/
theorem entry_ringTable_of_ne (c : Symbol → BitString) (hx : freq.entry x ≠ 0) :
    (ringTable freq c).entry x = { (codeTable freq c).entry x with sym := x } := by
  rw [entry_ringTable, entry_codeTable, if_neg hx, if_neg hx]

/-- Slot `x` of BUILD's ring holds the code of `x`, when it occurs, and nothing else. -/
theorem holds_ringTable_iff {b : BitString} :
    ((ringTable freq (buildCodes freq)).entry x).valid = true ∧ ((ringTable freq (buildCodes freq)).entry x).key = b ↔
      freq.entry x ≠ 0 ∧ buildCodes freq x = b := by
  by_cases hx : freq.entry x = 0
  · simp [entry_ringTable, hx]
  · obtain ⟨hvalid, hkey⟩ := entry_codeTable_buildCodes hx
    rw [entry_ringTable_of_ne _ hx, hkey]
    exact and_congr_left' (iff_of_true hvalid hx)

/-! ### WALK on a message's codes -/

/-- WALK reads the code of a symbol that occurs as that symbol's: no other slot holds it or a beginning of it. -/
theorem shortestMatch_buildCodes (hx : freq.entry x ≠ 0) :
    ShortestMatch (ringTable freq (buildCodes freq)) (buildCodes freq x) x := by
  obtain ⟨hvalid, hkey⟩ := holds_ringTable_iff.2 ⟨hx, rfl⟩
  refine ⟨(buildCodes_bounds hx).1, ⟨hvalid, hkey, fun y hyx hheld => ?_⟩, fun p hp _ hne y hheld => ?_⟩
  · obtain ⟨hy, hyc⟩ := holds_ringTable_iff.1 hheld
    exact BitVec.ne_of_lt hyx (eq_of_buildCodes_prefix hy hx (hyc ▸ List.prefix_rfl))
  · obtain ⟨hy, rfl⟩ := holds_ringTable_iff.1 hheld
    exact hne (congrArg _ (eq_of_buildCodes_prefix hy hx hp))

/-- The codes of symbols that occur are a sequence of whole codes, which map to those symbols. -/
theorem parses_flatMap_buildCodes {m : List Symbol} (hm : ∀ x ∈ m, freq.entry x ≠ 0) :
    Parses (ringTable freq (buildCodes freq)) (m.flatMap (buildCodes freq)) m := by
  induction m with
  | nil => exact .nil
  | cons x m ih =>
    obtain ⟨hx, hm⟩ := List.forall_mem_cons.1 hm
    have hsym : ((ringTable freq (buildCodes freq)).entry x).sym = x := by rw [entry_ringTable_of_ne _ hx]
    have hstep := Parses.cons (shortestMatch_buildCodes hx) (ih hm)
    rwa [hsym] at hstep

end

/-- Settles O29: BUILD's tables hold the merges' codes, each in its symbol's entry and slot. -/
theorem buildGivesAPrefixCode : Obligations.BuildGivesAPrefixCode := by
  intro s hsome
  have hnsym : s.putCodes.nsym.toNat = (initialQueue s.freq).length := by
    rw [length_initialQueue, ← codedSymbols_codeTable]
    exact toNat_nsym_codeTable s.freq (buildCodes s.freq)
  obtain ⟨hbuild, hnone⟩ := exec_build_success_iff.2 ⟨hsome, rfl⟩
  refine ⟨s.putCodes.succeeded, hbuild, hnone, hnsym.trans (length_initialQueue s.freq),
    fun x => valid_codeTable_iff _, prefixFree_codeTable s.freq, fun x hx => ?_, fun x hx => ?_, fun x hx => ?_,
    fun x y hx hy hkey => ?_⟩
  · have hx := (valid_codeTable_iff _).1 hx
    obtain ⟨hne, -⟩ := buildCodes_bounds hx
    have hlen : (s.putCodes.code.entry x).len.toNat = (buildCodes s.freq x).length := by
      rw [← CodeEntry.length_key]
      exact congrArg _ (entry_codeTable_buildCodes hx).2
    rw [show s.putCodes.succeeded.code = s.putCodes.code from rfl, hlen]
    exact ⟨List.length_pos_of_ne_nil hne, hnsym.symm ▸ length_buildCodes_le hx⟩
  · exact entry_ringTable_of_ne _ ((valid_codeTable_iff _).1 hx)
  · have hx0 : ¬s.freq.entry x ≠ 0 := mt (valid_codeTable_iff (buildCodes s.freq)).2 (Bool.eq_false_iff.1 hx)
    exact (entry_ringTable _ _ x).trans (if_pos (not_not.1 hx0))
  · obtain ⟨hx, hxc⟩ := holds_ringTable_iff.1 ⟨hx, hkey⟩
    obtain ⟨hy, hyc⟩ := holds_ringTable_iff.1 ⟨hy, rfl⟩
    exact eq_of_buildCodes_prefix hx hy ((hxc.trans hyc.symm) ▸ List.prefix_rfl)

end Sys2Proof.Machine
end

