-- ==== Sys2Proof/Proofs/RoundTrip.lean ====
section
/-! PROOFS. The round trips (43_unpack_and_walk.md section 5): WALK reads back the codes that MAP wrote, and DEC the packet
that ENC wrote. Settles O44 and O45. -/

namespace Sys2Proof.Machine

/-- The encoding of a message is a sequence of whole codes of the ring that BUILD makes of its counts. -/
theorem parses_encodedBits (s : State) :
    Parses (ringTable (countSymbols s.message) (buildCodes (countSymbols s.message))) (encodedBits s.message) s.message :=
  parses_flatMap_buildCodes fun _ => entry_countSymbols_message_ne_zero.2

/-- SYM_LEN is the length of the message. -/
theorem ofNat_length_message (s : State) : BitVec.ofNat 32 s.message.length = s.symLen := by simp

theorem State.Encodable.length_lt {s : State} (h : s.Encodable) (hwf : s.params.wf = true) :
    (encodedBits s.message).length < 2 ^ 32 :=
  have hcap := (Params.caps_le_of_wf hwf).2
  h.bitsFit.trans_lt (by omega)

theorem bitstring_putMapped {s : State} (h : s.Encodable) (hwf : s.params.wf = true) :
    s.putMapped.bitstring = encodedBits s.message :=
  bitstring_putBitstring (s := (s.putFreq (countSymbols s.message)).putCodes) (h.length_lt hwf)

/-- Within R5's constraints no length wraps, and PACK packs what MAP wrote. -/
theorem exec_enc_success {s t : State} (hwf : s.params.wf = true) (ht : exec .enc s = .next t) (he : t.err = none) :
    s.Encodable ∧ t = s.putEncoded.succeeded := by
  obtain ⟨h, rfl⟩ := exec_enc_success_iff.1 ⟨ht, he⟩
  rw [bitstring_putMapped h hwf]
  exact ⟨h, rfl⟩

/-- Settles O44: HIST, BUILD and MAP leave the codes of the message and the ring that WALK reads them with. -/
theorem roundTripOfBits : Obligations.RoundTripOfBits := by
  intro s t1 t2 t3 hwf hhist he1 hbuild he2 hmap he3
  obtain ⟨h, rfl⟩ := exec_hist_build_map_success_iff.1 ⟨t1, t2, ⟨hhist, he1⟩, ⟨hbuild, he2⟩, hmap, he3⟩
  let s' := s.putMapped.succeeded.cleared (outputsOf .walk)
  have hbits : s'.bitstring = encodedBits s.message := bitstring_putMapped h hwf
  have hparses : Parses s'.ring s'.bitstring s.message := hbits ▸ parses_encodedBits s
  have hwalk : walkRule s' = .ok (s'.putMessage s.message) :=
    walkRule_of_parses hparses h.bitLen_putMapped_le ((length_message s).trans_le h.symFits)
  exact ⟨_, command_of_ok hwalk, rfl, ofNat_length_message s,
    message_putMessage (s := s') ((length_message s).trans_lt s.symLen.isLt)⟩

/-- Settles O45: the packet is the bitstring's, so DEC's UNPACK writes the bytes that ENC's MAP wrote, and its WALK reads
them with ENC's ring. -/
theorem roundTripOfPackets : Obligations.RoundTripOfPackets := by
  intro s t u hwf henc he hparams hring hlen hpkt
  obtain ⟨h, rfl⟩ := exec_enc_success hwf henc he
  let b := encodedBits s.message
  let u' := u.cleared (outputsOf .dec)
  have hsent : s.putEncoded.HoldsPacket b := (holdsEncoding_putEncoded (h.length_lt hwf)).packet
  have hbound : (packetOf b).length < 2 ^ 32 := by
    have hb : b.length ≤ s.params.bitCap := h.bitsFit
    have hcap := (Params.caps_le_of_wf hwf).2
    rw [length_packetOf, bytesFor]
    omega
  have hpacket : u'.HoldsPacket b :=
    ⟨hlen, fun k hk => (hpkt k (hk.trans_eq (toNat_ofNat_of_lt hbound).symm)).trans (hsent.2 k hk)⟩
  have hparses : Parses u'.ring b s.message := by
    rw [show u'.ring = _ from hring]
    exact parses_encodedBits s
  have hp : u'.params = s.params := hparams
  have hdec := decRule_of_holdsPacket hpacket hparses (hp ▸ hwf) (hp ▸ h.bitsFit)
    ((length_message s).trans_le (hp ▸ h.symFits))
  refine ⟨_, command_of_ok hdec, rfl, ofNat_length_message s,
    message_putMessage (s := u'.putUnpacked (padOf b.length) b) ((length_message s).trans_lt s.symLen.isLt), rfl, rfl,
    fun k hk => ?_⟩
  refine Buffer.read_writeFrom_congr u.bits s.bits ?_
  rw [length_bytesOf]
  rwa [← toNat_ofNat_of_lt (h.length_lt hwf)]

end Sys2Proof.Machine
end

