-- ==== Sys2Proof/Proofs/Sizes.lean ====
section
/-! PROOFS. The sizes that a successful ENC leaves (42_map_and_pack.md section 3, 30_encoding.md section 2). Settles O36. -/

namespace Sys2Proof.Machine

/-- A sum over a message, symbol by symbol of the 256. -/
theorem sum_map_eq_sum_count (m : List Symbol) (f : Symbol → Nat) :
    (m.map f).sum = (allSymbols.map fun x => m.count x * f x).sum := by
  rw [Finset.sum_list_map_count, ← List.sum_toFinset _ nodup_allSymbols]
  refine Finset.sum_subset (fun x _ => List.mem_toFinset.2 (mem_allSymbols x)) fun x _ hx => ?_
  rw [List.count_eq_zero.2 (mt List.mem_toFinset.2 hx), zero_smul]

section
variable (s : State)

/-- The encoding has each code as often as its symbol is counted (R163). -/
theorem length_encodedBits :
    (encodedBits s.message).length = (allSymbols.map fun x =>
      (s.putEncoded.freq.entry x).toNat * (s.putEncoded.code.entry x).len.toNat).sum := by
  have hkeys : encodedBits s.message = s.message.flatMap fun x => (s.putEncoded.code.entry x).key :=
    List.flatMap_congr fun x hx =>
      (entry_codeTable_buildCodes (entry_countSymbols_message_ne_zero.2 hx)).2.symm
  have hcounts (x : Symbol) : (s.putEncoded.freq.entry x).toNat = s.message.count x :=
    toNat_entry_countSymbols_message s x
  simp only [hcounts]
  rw [hkeys, length_flatMap_key, sum_map_eq_sum_count]

/-- The payload bytes are the bytes of BITS (30_encoding.md R98). -/
theorem read_pkt_putEncoded {k : Nat} (hk : k < bytesFor (encodedBits s.message).length) :
    s.putEncoded.pkt.read (1 + k) = s.putEncoded.bits.read k := by
  have hk' : k < (bytesOf (encodedBits s.message)).length := by rwa [length_bytesOf]
  exact (read_succ_putPacket s.putMapped _ k hk').trans ((s.bits.extended_writeFrom _).1 k hk').symm

end

/-- PAD has room for a pad length. -/
theorem toNat_ofNat_three_padOf (L : Nat) : (BitVec.ofNat 3 (padOf L)).toNat = padOf L := by
  have h := padOf_le L
  rw [BitVec.toNat_ofNat, Nat.mod_eq_of_lt (by omega)]

/-- Settles O36: no code is empty, so there are as many bits as symbols at least, and the pad fills the last byte. -/
theorem encSizes : Obligations.EncSizes := by
  intro s t hwf henc he
  obtain ⟨h, rfl⟩ := exec_enc_success hwf henc he
  have hbits : s.putEncoded.succeeded.bitLen.toNat = (encodedBits s.message).length := toNat_ofNat_of_lt (h.length_lt hwf)
  have hpad : s.putEncoded.succeeded.pad.toNat = padOf (encodedBits s.message).length := toNat_ofNat_three_padOf _
  have hpkt : s.putEncoded.succeeded.pktLen.toNat = 1 + bytesFor (encodedBits s.message).length := by
    have hcap := (Params.caps_le_of_wf hwf).2
    have hfits := h.bitsFit
    have hlt : (packetOf (encodedBits s.message)).length < 2 ^ 32 := by
      rw [length_packetOf, bytesFor]
      omega
    exact (toNat_ofNat_of_lt hlt).trans (length_packetOf _)
  have hlong : s.symLen.toNat ≤ (encodedBits s.message).length := length_message s ▸ (parses_encodedBits s).length_le
  have hpos := h.pos
  rw [hbits, hpad, hpkt]
  refine ⟨length_encodedBits s, hlong, rfl, ?_, ?_, ?_, fun k => read_pkt_putEncoded s⟩
  · rw [bytesFor]
    omega
  · rw [← eight_mul_bytesFor, Nat.mul_mod_right]
  · exact (congrArg BitVec.toNat (read_zero_putPacket s.putMapped _)).trans (toNat_ofNat_padOf _)

end Sys2Proof.Machine
end

