-- ==== Sys2Proof/Proofs/Accumulator.lean ====
section
/-! PROOFS. Two other views of WALK's scan (43_unpack_and_walk.md): without the 255-bit limit (R193), and as a walk of the
trie of the ring's keys (R195). Settles O40 and O41. -/

namespace Sys2Proof.Machine

variable {ring : Table RingSlot} {cap start j : Nat} {acc b : BitString} {out : List Symbol}

/-! ### Without the limit -/

/-- No key is longer than the 255 bits that LEN can count. -/
theorem matchSlot_of_long (h : 255 < acc.length) : matchSlot ring acc = none := by
  refine matchSlot_eq_none_iff.2 fun k ⟨_, hkey⟩ => ?_
  have hlen := (ring.entry k).len.isLt
  rw [← hkey, CodeEntry.length_key] at h
  omega

/-- Past 255 bits the unlimited scan finds no key, whatever is left, and fails where the accumulator began. -/
theorem walkUnbounded_of_long (h : 255 < acc.length) :
    walkUnbounded ring cap acc start j out b = .error { err := .decode, info := BitVec.ofNat 32 start } := by
  induction b generalizing acc j with
  | nil =>
    have hne : acc ≠ [] := fun he => by simp [he] at h
    rw [walkUnbounded, if_neg hne]
  | cons x b ih =>
    have hlong : 255 < (acc ++ [x]).length := by
      rw [List.length_append]
      omega
    rw [walkUnbounded, matchSlot_of_long hlong]
    exact ih hlong

theorem walkLoop_eq_walkUnbounded :
    walkLoop ring cap acc start j out b = walkUnbounded ring cap acc start j out b := by
  induction b generalizing acc start j out with
  | nil => rw [walkLoop, walkUnbounded]
  | cons x b ih =>
    rw [walkLoop, walkUnbounded]
    split
    next hfull =>
      have hlong : 255 < (acc ++ [x]).length := by
        rw [List.length_append, List.length_singleton]
        omega
      rw [matchSlot_of_long hlong]
      exact (walkUnbounded_of_long hlong).symm
    next => cases matchSlot ring (acc ++ [x]) <;> simp only [ih]

/-- Settles O40: where the limit ends the scan, no key can be found any more. -/
theorem accumulatorLimitChangesNothing : Obligations.AccumulatorLimitChangesNothing :=
  fun _ _ _ => walkLoop_eq_walkUnbounded

/-! ### The trie -/

/-- The node reached from a node along a bit string. -/
def Trie.descend (t : Trie) (p : BitString) : Trie := p.foldl Trie.child t

@[simp] theorem Trie.descend_nil (t : Trie) : t.descend [] = t := rfl

@[simp] theorem Trie.descend_cons (t : Trie) (x : Bool) (p : BitString) : t.descend (x :: p) = (t.child x).descend p := rfl

theorem Trie.descend_concat (t : Trie) (p : BitString) (x : Bool) : t.descend (p ++ [x]) = (t.descend p).child x :=
  List.foldl_concat ..

theorem Trie.descend_empty (p : BitString) : Trie.empty.descend p = .empty := by
  induction p with
  | nil => rfl
  | cons x p ih => exact ih

@[simp] theorem Trie.mark?_insert_nil (x : Symbol) (t : Trie) : (t.insert x []).mark? = some x := rfl

@[simp] theorem Trie.mark?_insert_cons (x : Symbol) (t : Trie) (y : Bool) (c : BitString) :
    (t.insert x (y :: c)).mark? = t.mark? := by
  cases y <;> rfl

@[simp] theorem Trie.child_insert_nil (x : Symbol) (t : Trie) (y : Bool) : (t.insert x []).child y = t.child y := by
  cases y <;> rfl

theorem Trie.child_insert_cons (x : Symbol) (t : Trie) (y z : Bool) (c : BitString) :
    (t.insert x (y :: c)).child z = if z = y then (t.child z).insert x c else t.child z := by
  cases y <;> cases z <;> rfl

/-- Inserting a key marks its node and leaves the other marks. -/
theorem Trie.mark?_descend_insert (x : Symbol) (c p : BitString) (t : Trie) :
    ((t.insert x c).descend p).mark? = if c = p then some x else (t.descend p).mark? := by
  induction p generalizing c t with
  | nil => cases c <;> simp
  | cons z p ih =>
    cases c with
    | nil => simp
    | cons y c =>
      rw [descend_cons, child_insert_cons, descend_cons]
      by_cases hzy : z = y
      · simp [hzy, ih]
      · simp [hzy, Ne.symm hzy]

/-- The slots being entered from the highest down, a node's mark is that of the least slot that holds its key (R195). -/
theorem mark?_descend_ringTrie :
    ((ringTrie ring).descend acc).mark? = (matchSlot ring acc).map fun k => (ring.entry k).sym := by
  rw [ringTrie, matchSlot]
  induction allSymbols with
  | nil => rw [List.foldr_nil, Trie.descend_empty]; rfl
  | cons k ks ih =>
    rw [List.foldr_cons, List.find?_cons]
    by_cases hvalid : (ring.entry k).valid
    · rw [if_pos hvalid, Trie.mark?_descend_insert, ih]
      by_cases hkey : (ring.entry k).key = acc <;> simp [slotHolds, hvalid, hkey]
    · rw [if_neg hvalid, ih]
      simp [slotHolds, hvalid]

/-- WALK at an accumulator stands at the accumulator's node, as deep as it is long. -/
theorem walkLoop_eq_trieWalk :
    walkLoop ring cap acc start j out b =
      trieWalk (ringTrie ring) cap ((ringTrie ring).descend acc) acc.length start j out b := by
  induction b generalizing acc start j out with
  | nil => simp only [walkLoop, trieWalk, List.length_eq_zero_iff]
  | cons x b ih =>
    rw [walkLoop, trieWalk, ← Trie.descend_concat, mark?_descend_ringTrie]
    split
    · rfl
    cases matchSlot ring (acc ++ [x]) with
    | none => simpa using ih (acc := acc ++ [x])
    | some k => simpa using if_congr Iff.rfl rfl (ih (acc := []))

/-- Settles O41: the scan begins with an empty accumulator, at the root. -/
theorem walkIsTheTrieWalk : Obligations.WalkIsTheTrieWalk :=
  fun _ _ _ => walkLoop_eq_trieWalk

end Sys2Proof.Machine
end

