-- ==== Sys2Proof/Proofs/WordsAndCommands.lean ====
section
/-! PROOFS. The command words and the commands stand for each other (30_encoding.md R92). Settles O2. -/

namespace Sys2Proof

/-- Settles O2: a command's word is the one word that decodes to it. -/
theorem decodeAndEncodeAgree : Obligations.DecodeAndEncodeAgree :=
  ⟨fun _ _ => decode_eq_ok_iff.2 rfl, fun _ _ h => (decode_eq_ok_iff.1 h).symm⟩

end Sys2Proof
end

