-- ==== Sys2Proof/Proofs/CodeTrees.lean ====
section
/-! PROOFS. The code tree of BUILD's merges (41_frequency_and_tree.md R136): each turn makes a node of two trees, whose
leaves get the bits that the turn prepends. Settles O30. -/

namespace Sys2Proof.Machine

/-! ### A turn of the codes -/

section
variable {g g1 g2 : List Symbol} {c : Symbol → BitString} {x : Symbol}

theorem prependBits_of_mem_left (hx : x ∈ g1) : prependBits g1 g2 c x = false :: c x := if_pos hx

theorem prependBits_of_mem_right (hd : g1.Disjoint g2) (hx : x ∈ g2) : prependBits g1 g2 c x = true :: c x :=
  (if_neg fun h => hd h hx).trans (if_pos hx)

theorem prependBits_of_not_mem (hx : x ∉ g1 ++ g2) : prependBits g1 g2 c x = c x := by
  obtain ⟨h1, h2⟩ := not_or.1 (mt List.mem_append.2 hx)
  exact (if_neg h1).trans (if_neg h2)

/-! ### Trees of groups -/

/-- The leaves of a tree with their root paths are the symbols of a group with their codes so far. -/
def CodeTree.Holds (T : CodeTree) (g : List Symbol) (c : Symbol → BitString) : Prop :=
  ∀ x b, (x, b) ∈ T.paths ↔ x ∈ g ∧ c x = b

theorem CodeTree.holds_leaf (x : Symbol) : (CodeTree.leaf x).Holds [x] fun _ => [] := by
  intro y b
  simp [CodeTree.paths, eq_comm]

theorem CodeTree.holds_lone (x : Symbol) : (CodeTree.lone x).Holds [x] fun _ => [false] := by
  intro y b
  simp [CodeTree.paths, eq_comm]

/-- The paths of a node's leaves are those in its children, after the label of the edge to the child. -/
theorem CodeTree.mem_paths_node {z o : CodeTree} {b : BitString} :
    (x, b) ∈ (CodeTree.node z o).paths ↔
      (∃ d, (x, d) ∈ z.paths ∧ false :: d = b) ∨ ∃ d, (x, d) ∈ o.paths ∧ true :: d = b := by
  simp [CodeTree.paths]

/-- The node of a merge holds the two groups with the bits prepended. -/
theorem CodeTree.Holds.merged {z o : CodeTree} (hd : g1.Disjoint g2) (hz : z.Holds g1 c) (ho : o.Holds g2 c) :
    (CodeTree.node z o).Holds (g1 ++ g2) (prependBits g1 g2 c) := by
  intro x b
  have zero : (∃ d, (x, d) ∈ z.paths ∧ false :: d = b) ↔ x ∈ g1 ∧ prependBits g1 g2 c x = b := by
    simp only [hz x]
    constructor
    · rintro ⟨_, ⟨hx, rfl⟩, rfl⟩
      exact ⟨hx, prependBits_of_mem_left hx⟩
    · rintro ⟨hx, rfl⟩
      exact ⟨c x, ⟨hx, rfl⟩, (prependBits_of_mem_left hx).symm⟩
  have one : (∃ d, (x, d) ∈ o.paths ∧ true :: d = b) ↔ x ∈ g2 ∧ prependBits g1 g2 c x = b := by
    simp only [ho x]
    constructor
    · rintro ⟨_, ⟨hx, rfl⟩, rfl⟩
      exact ⟨hx, prependBits_of_mem_right hd hx⟩
    · rintro ⟨hx, rfl⟩
      exact ⟨c x, ⟨hx, rfl⟩, (prependBits_of_mem_right hd hx).symm⟩
  rw [CodeTree.mem_paths_node, zero, one, ← or_and_right, List.mem_append]

/-- A merge leaves the trees of the other groups alone. -/
theorem CodeTree.Holds.unmerged {T : CodeTree} (hd : (g1 ++ g2).Disjoint g) (h : T.Holds g c) :
    T.Holds g (prependBits g1 g2 c) := by
  intro x b
  rw [h x b]
  exact and_congr_right fun hx => by rw [prependBits_of_not_mem fun hx' => hd hx' hx]

end

/-! ### A turn of the trees -/

/-- The trees after a merge (R136). -/
def mergeTrees (g1 g2 : List Symbol) (tr : List Symbol → CodeTree) : List Symbol → CodeTree := fun g =>
  if g = g1 ++ g2 then .node (tr g1) (tr g2) else tr g

theorem mergeTrees_self (g1 g2 : List Symbol) (tr : List Symbol → CodeTree) :
    mergeTrees g1 g2 tr (g1 ++ g2) = .node (tr g1) (tr g2) := if_pos rfl

theorem mergeTrees_other {g g1 g2 : List Symbol} (h : g ≠ g1 ++ g2) (tr : List Symbol → CodeTree) :
    mergeTrees g1 g2 tr g = tr g := if_neg h

section
variable {l : List Symbol} {q q1 r : List Node} {n1 n2 : Node} {c : Symbol → BitString} {tr : List Symbol → CodeTree}

theorem treeLoop_turn (h1 : popMin q = some (n1, q1)) (h2 : popMin q1 = some (n2, r)) (fuel : Nat) :
    treeLoop (fuel + 1) q tr = treeLoop fuel (mergeNodes n1 n2 :: r) (mergeTrees n1.group n2.group tr) := by
  simp only [treeLoop, h1, h2]
  rfl

theorem treeLoop_singleton (fuel : Nat) (n : Node) : treeLoop fuel [n] tr = some (tr n.group) := by
  cases fuel <;> rfl

/-- The queue's groups share out the symbols of `l`, none of them empty, and the tree of each holds its symbols with
their codes so far. -/
structure TreesHold (l : List Symbol) (q : List Node) (c : Symbol → BitString) (tr : List Symbol → CodeTree) : Prop where
  share : (q.flatMap Node.group).Perm l
  group_ne_nil : ∀ n ∈ q, n.group ≠ []
  holds : ∀ n ∈ q, (tr n.group).Holds n.group c

theorem TreesHold.turn (hl : l.Nodup) (h1 : popMin q = some (n1, q1)) (h2 : popMin q1 = some (n2, r))
    (h : TreesHold l q c tr) :
    TreesHold l (mergeNodes n1 n2 :: r) (prependBits n1.group n2.group c) (mergeTrees n1.group n2.group tr) := by
  have hq : q.Perm (n1 :: n2 :: r) := (popMin_perm h1).trans ((popMin_perm h2).cons n1)
  have hshare : ((n1.group ++ n2.group) ++ r.flatMap Node.group).Perm l := by
    simpa using (hq.flatMap_right Node.group).symm.trans h.share
  have hnodup := hshare.nodup_iff.2 hl
  have old {n} (hn : n ∈ n1 :: n2 :: r) := hq.mem_iff.2 hn
  have hn1 := old List.mem_cons_self
  have hn2 := old (List.mem_cons_of_mem _ List.mem_cons_self)
  have hrest {n} (hn : n ∈ r) := old (List.mem_cons_of_mem _ (List.mem_cons_of_mem _ hn))
  have apart {n} (hn : n ∈ r) : (n1.group ++ n2.group).Disjoint n.group := fun x hx hx' =>
    List.disjoint_of_nodup_append hnodup hx (List.mem_flatMap.2 ⟨n, hn, hx'⟩)
  refine ⟨hshare, List.forall_mem_cons.2 ⟨?_, fun n hn => h.group_ne_nil n (hrest hn)⟩,
    List.forall_mem_cons.2 ⟨?_, fun n hn => ?_⟩⟩
  · exact List.append_ne_nil_of_left_ne_nil (h.group_ne_nil n1 hn1) _
  · rw [show (mergeNodes n1 n2).group = n1.group ++ n2.group from rfl, mergeTrees_self]
    exact .merged (List.disjoint_of_nodup_append hnodup.of_append_left) (h.holds n1 hn1) (h.holds n2 hn2)
  · have hne : n.group ≠ n1.group ++ n2.group := fun he => by
      obtain ⟨x, hx⟩ := List.exists_mem_of_ne_nil _ (h.group_ne_nil n (hrest hn))
      exact apart hn (he ▸ hx) hx
    rw [mergeTrees_other hne]
    exact .unmerged (apart hn) (h.holds n (hrest hn))

/-- The tree loop has come to the queue `q`, with trees that hold its groups' codes so far. -/
def TreeLoopAt (l : List Symbol) (T : Option CodeTree) (q : List Node) (c : Symbol → BitString) : Prop :=
  ∃ fuel tr, q.length ≤ fuel ∧ T = treeLoop fuel q tr ∧ TreesHold l q c tr

theorem TreeLoopAt.turn {T : Option CodeTree} (hl : l.Nodup) (h1 : popMin q = some (n1, q1))
    (h2 : popMin q1 = some (n2, r)) (h : TreeLoopAt l T q c) :
    TreeLoopAt l T (mergeNodes n1 n2 :: r) (prependBits n1.group n2.group c) := by
  obtain ⟨fuel, tr, hfuel, rfl, hold⟩ := h
  have hl1 := length_popMin h1
  have hl2 := length_popMin h2
  obtain ⟨fuel, rfl⟩ := Nat.exists_eq_add_one_of_ne_zero (show fuel ≠ 0 by omega)
  exact ⟨fuel, _, by rw [List.length_cons]; omega, treeLoop_turn h1 h2 fuel, hold.turn hl h1 h2⟩

/-- The tree loop ends with a tree that holds the codes the merges end with. -/
theorem exists_treeLoop_holds (hl : l.Nodup) (hne : l ≠ []) (h : TreesHold l q c tr) :
    ∃ T, treeLoop q.length q tr = some T ∧ T.Holds l (mergeLoop q.length q c) := by
  obtain ⟨q', hlen, fuel, tr', -, hT, hold⟩ := mergeLoop_induction (fun h1 h2 h => TreeLoopAt.turn hl h1 h2 h) le_rfl
    (⟨q.length, tr, le_rfl, rfl, h⟩ : TreeLoopAt l (treeLoop q.length q tr) q c)
  match q', hlen with
  | [], _ => exact absurd hold.share.nil_eq.symm hne
  | [n], _ =>
    refine ⟨tr' n.group, hT.trans (treeLoop_singleton fuel n), fun x b => ?_⟩
    have hmem : x ∈ n.group ↔ x ∈ l := by simpa using hold.share.mem_iff (a := x)
    rw [hold.holds n List.mem_cons_self, hmem]

end

/-! ### The code tree of a frequency table -/

section
variable {freq : Table Word}

theorem treesHold_initialQueue :
    TreesHold (occurring freq) (initialQueue freq) (fun _ => []) fun g => .leaf (g.headD 0) := by
  refine ⟨.of_eq (flatMap_group_initialQueue freq), fun n hn => ?_, fun n hn => ?_⟩
  · obtain ⟨x, hx⟩ := group_of_mem_initialQueue hn
    simp [hx]
  · obtain ⟨x, hx⟩ := group_of_mem_initialQueue hn
    rw [hx]
    exact CodeTree.holds_leaf x

theorem codeTree_of_two_le (h : 2 ≤ (initialQueue freq).length) :
    codeTree freq = treeLoop (initialQueue freq).length (initialQueue freq) fun g => .leaf (g.headD 0) := by
  rw [codeTree]
  split <;> simp_all

/-- BUILD's codes are the root paths of the leaves of the code tree (41_frequency_and_tree.md section 4). -/
theorem exists_codeTree_holds (h : ∃ x, freq.entry x ≠ 0) :
    ∃ T, codeTree freq = some T ∧ T.Holds (occurring freq) (buildCodes freq) := by
  obtain ⟨x, hx⟩ := h
  have hmem := mem_initialQueue hx
  match hq : initialQueue freq with
  | [] => simp [hq] at hmem
  | [n] =>
    obtain ⟨y, hy⟩ := group_of_mem_initialQueue (hq ▸ List.mem_singleton_self n)
    have hone : occurring freq = [y] := by rw [← flatMap_group_initialQueue, hq]; simp [hy]
    refine ⟨.lone y, by simp [codeTree, hq, hy], ?_⟩
    rw [hone, buildCodes, hq]
    exact CodeTree.holds_lone y
  | n :: m :: q =>
    have htwo : 2 ≤ (initialQueue freq).length := by simp [hq]
    rw [codeTree_of_two_le htwo, buildCodes_of_two_le htwo]
    exact exists_treeLoop_holds (nodup_occurring freq) (List.ne_nil_of_mem (mem_occurring.2 hx)) treesHold_initialQueue

end

/-- Settles O30: CODE holds the codes of the symbols that occur, which are the leaves. -/
theorem codesAreThePathsOfTheCodeTree : Obligations.CodesAreThePathsOfTheCodeTree := by
  intro s t ht he
  obtain ⟨hsome, rfl⟩ := exec_build_success_iff.1 ⟨ht, he⟩
  obtain ⟨T, hT, hholds⟩ := exists_codeTree_holds hsome
  refine ⟨T, hT, fun x c => ?_⟩
  rw [hholds x c, mem_occurring]
  exact ⟨fun ⟨hx, hc⟩ => ⟨(entry_codeTable_buildCodes hx).1, (entry_codeTable_buildCodes hx).2.trans hc⟩,
    fun ⟨hvalid, hkey⟩ =>
      have hx := (valid_codeTable_iff _).1 hvalid
      ⟨hx, (entry_codeTable_buildCodes hx).2.symm.trans hkey⟩⟩

end Sys2Proof.Machine
end
